-- ==== Sys2Proof/Word.lean ====
section
/-! DEFINITION. The word types of OQM-CORE. -/

namespace Sys2Proof

/-- A 64-bit register, a 64-bit cell or a binary64 pattern (10_state.md section 3, 30_encoding.md R84). -/
abbrev Word := BitVec 64

/-- A character of the bit string, an operation selector, or one byte lane (R43, R80, R64). -/
abbrev Byte := BitVec 8

end Sys2Proof
end

