-- ==== Sys2Proof/Syntax.lean ====
section
/-! DEFINITION. The commands, the reasons a word is no command, the bus transactions of the host and the
platform, and the locations of the register window. -/

namespace Sys2Proof

/-- The four commands, one per row of the opcode table (30_encoding.md R81). A command has no operand
field: its inputs and outputs are fixed (R83). -/
inductive Instr where
  /-- 0x1, QMAP (40_mapper.md R109). -/
  | map
  /-- 0x2, SCMUX (41_assembler.md R134). -/
  | assemble
  /-- 0x3, IFFT64 and CPOUT (42_synthesizer.md R155). -/
  | synth
  /-- 0x4, the whole chain (43_sequencer.md R183). -/
  | run
  deriving DecidableEq, Repr

/-- Why a word is illegal (30_encoding.md R82). -/
inductive DecodeError where
  /-- RSVD, bits [63:8], is not zero, with any OP. -/
  | reservedNotZero
  /-- RSVD is zero and OP is 0x00 or 0x05..0xFF. -/
  | unknownOperation
  deriving DecidableEq, Repr

/-- What reaches OQM-CORE from outside: a bus access of the host at a byte offset and with a size in
bytes (20_memory.md R62, R63; 30_encoding.md R92), or the platform's reset (70_reset_and_hazards.md R230).
An access that the interface does not support can be written down; `BusInput.supported` tells it apart. -/
inductive BusInput where
  | read (off size : Nat)
  | write (off size : Nat) (data : Word)
  | reset
  deriving DecidableEq, Repr

/-- What an aligned offset of the register window names (20_memory.md R61): a register, one entry of a
table or buffer, or a reserved offset. -/
inductive Location where
  | id | ctrl | status | cmd | errinfo | norm | cpfrac | pilotRe | pilotIm
  | bitlen | symcnt | freqlen | outlen | nfft | ndata | npilot
  | pilotIdx (p : Fin 4)
  | dataIdx (d : Fin 48)
  | cromLev (c : Fin 64)
  | cromRe (c : Fin 64)
  | cromIm (c : Fin 64)
  | cromMag (c : Fin 64)
  | cromPh (c : Fin 64)
  | bitbuf (p : Fin 288)
  | symCode (g : Fin 48)
  | symRe (g : Fin 48)
  | symIm (g : Fin 48)
  | symMag (g : Fin 48)
  | symPh (g : Fin 48)
  | freqRe (b : Fin 64)
  | freqIm (b : Fin 64)
  | outRe (n : Fin 127)
  | outIm (n : Fin 127)
  | reserved
  deriving DecidableEq, Repr

end Sys2Proof
end

