-- ==== Sys2Proof/Decode.lean ====
section
/-! DEFINITION. Decoding and encoding of the command word (30_encoding.md R80 to R82). -/

namespace Sys2Proof

/-- Field OP, bits [7:0] of a command word (R80). -/
def opField (w : Word) : Byte := w.extractLsb' 0 8

/-- Field RSVD, bits [63:8] of a command word, which must be 0 (R80). -/
def rsvdField (w : Word) : BitVec 56 := w.extractLsb' 8 56

/-- Decode a command word. The whole word is read; every word R81 does not list is rejected (R82). -/
def decode (w : Word) : Except DecodeError Instr :=
  if rsvdField w = 0 then
    match (opField w).toNat with
    | 1 => .ok .map
    | 2 => .ok .assemble
    | 3 => .ok .synth
    | 4 => .ok .run
    | _ => .error .unknownOperation
  else .error .reservedNotZero

/-- OP of each command (R81). -/
def opcode : Instr → Byte
  | .map => 0x01
  | .assemble => 0x02
  | .synth => 0x03
  | .run => 0x04

/-- The command word of a command: RSVD zero, OP the selector (R80, R81). -/
def encode (i : Instr) : Word := (0 : BitVec 56) ++ opcode i

/-- The word a `nbits`-bit table entry stands for: its bits, every bit above them 0. -/
def tableWord (nbits w : Nat) : Word := (BitVec.ofNat nbits w).setWidth 64

/-- What the decoder reads from a table row's word. No command is longer than one 64-bit word (R80), so a
longer one is no command. Log 18. -/
def decodeTableWord (nbits w : Nat) : Option Instr :=
  if nbits ≤ 64 then
    match decode (tableWord nbits w) with
    | .ok i => some i
    | .error _ => none
  else none

end Sys2Proof
end

