-- ==== Sys2Proof/Config.lean ====
section
/-! DEFINITION. The parameters of OQM-CORE (00_scope.md R7) and the free values that the spec leaves open.
A free value is an `opaque` constant with no body: no proof can see what it is. -/

namespace Sys2Proof.Config

/-- 64 complex samples or 64 bins, each a pair (re, im) of binary64 (00_scope.md R10). -/
abbrev Samples := Vector (Word × Word) 64

/-- The type of the parameter SYNTH_IMPL: from 64 pairs and one policy bit to 64 pairs
(42_synthesizer.md R152). -/
abbrev SynthImpl := Samples → BitVec 1 → Samples

/-- The free part of SYNTH_IMPL, the OPEN numerics of IFFT64 and its scaler (42_synthesizer.md R152, D13). The
machine holds it to the law of R152 in `Sys2Proof.Machine.synthImpl`. Log 7. -/
opaque freeNumerics : Samples → BitVec 1 → Samples

/-- The free part of SYNTH_EPS, the OPEN accuracy bound (42_synthesizer.md R152). The machine holds it to its range
in `Sys2Proof.Machine.synthEps`. Log 8. -/
opaque freeEps : ℚ

/-- LATENCY, the OPEN number of host accesses that take effect between the acceptance of a command and its
completion (43_sequencer.md R181, D21). The argument is the draw counter, so it may differ from command to
command. Log 3. -/
opaque latency : Nat → Nat

/-- `draw64()` of 20_memory.md R65: what a read of a VOLATILE offset returns while BUSY (R71). The argument
is the draw counter, so every read has a draw of its own. Log 2. -/
opaque draw : Nat → Word

/-- The arbitrary contents of the cell at an offset after a reset (70_reset_and_hazards.md R232, and PEND of
R231 at CMD's offset). The first argument tells resets apart. Log 1. -/
opaque resetDraw : Nat → Nat → Word

/-- The parameters with a default (00_scope.md R7): the level map of a 3-bit field (40_mapper.md R102), the
data bins and the pilot bins (41_assembler.md R130, R131). -/
structure Params where
  levelOfBits : Vector Int 8
  dataIndex : Vector (Fin 64) 48
  pilotIndex : Vector (Fin 64) 4
  deriving DecidableEq, Repr

/-- N_FFT, N_DATA, N_PILOT (00_scope.md R7; 10_state.md R33 to R35). -/
def nFft : Nat := 64
/-- The number of data subcarriers. -/
def nData : Nat := 48
/-- The number of pilot subcarriers. -/
def nPilot : Nat := 4
/-- BLOCK_BITS, the length of a bit string MAP accepts (00_scope.md R7). -/
def blockBits : Nat := 288

/-- The ID register's constant (10_state.md R23). -/
def idWord : Word := 0x4F514D4300010007

end Sys2Proof.Config
end

