-- ==== Sys2Proof/Machine/Tables.lean ====
section
/-! DEFINITION. The level map and the index sets: the defaults of the parameters of OQM-CORE. The machine takes
its parameters from `State.params`. Log 9. -/

namespace Sys2Proof.Machine

/-- LEVELS, indexed 0..7 (40_mapper.md R100). -/
def levels : Vector Int 8 := #v[-7, -5, -3, -1, 1, 3, 5, 7]

/-- GRAY (40_mapper.md R101). -/
def gray : Vector (Fin 8) 8 := #v[0, 1, 3, 2, 6, 7, 5, 4]

/-- The default of LEVEL_OF_BITS: the literal construction LEVELS[GRAY[x]], which wins over the prose
(40_mapper.md R102; 90_conflicts.md C1). -/
def defaultLevelOfBits : Vector Int 8 := Vector.ofFn fun x => levels[gray[x].val]

/-- The default of PILOT_INDEX (41_assembler.md R130). -/
def defaultPilotIndex : Vector (Fin 64) 4 := #v[7, 21, 43, 57]

/-- The default of DATA_INDEX: ascending bins (41_assembler.md R131). -/
def defaultDataIndex : Vector (Fin 64) 48 :=
  #v[1, 2, 3, 4, 5, 6,
     8, 9, 10, 11, 12, 13, 14, 15, 16, 17, 18, 19, 20,
     22, 23, 24, 25, 26,
     38, 39, 40, 41, 42,
     44, 45, 46, 47, 48, 49, 50, 51, 52, 53, 54, 55, 56,
     58, 59, 60, 61, 62, 63]

/-- The default of every parameter of 00_scope.md R7 that has one. -/
def defaultParams : Config.Params where
  levelOfBits := defaultLevelOfBits
  dataIndex := defaultDataIndex
  pilotIndex := defaultPilotIndex

/-- The null set: every bin in neither list, in ascending order (41_assembler.md R132). -/
def nullBins (P : Config.Params) : List (Fin 64) :=
  (List.finRange 64).filter fun b => !(P.dataIndex.contains b) && !(P.pilotIndex.contains b)

end Sys2Proof.Machine
end

