-- ==== Sys2Proof/Machine/State.lean ====
section
/-! DEFINITION. The state of OQM-CORE (10_state.md R20), the reasons a step can stop, and the state after
reset (70_reset_and_hazards.md R231, R232). -/

namespace Sys2Proof.Machine

/-- The sequencer's state SEQ (10_state.md R47). -/
inductive SeqState where
  | idle
  | busy
  deriving DecidableEq, Repr

/-- OQM-CORE stops with no fault: every error of a command is a completion status that the host reads
(60_exceptions.md R200, R210), so nothing raises one and the type has no constructor. Safe: the type rules
nothing out that the spec describes. Log 22. -/
inductive Fault
  deriving DecidableEq, Repr

/-- Why a step has no next state. -/
inductive Refusal where
  /-- Raised by `exec` for an instruction that has no meaning yet. Safe: the model stops. No arm raises it. -/
  | notModelled (mnemonic : String)
  /-- Raised by a step whose only enabled action is a host access that is not an aligned 64-bit access below
  0x8000 (20_memory.md R63, 60_exceptions.md R209): "A model refuses such an access: it has no step". Safe:
  the model stops where the spec gives no behaviour. Log 6. -/
  | unsupportedAccess
  deriving DecidableEq, Repr

/-- The errors a command body raises, with what ERRINFO reports of them (60_exceptions.md R201). -/
inductive CommandError where
  /-- BITLEN was not 288 (R202). -/
  | invalidLength (bitlen : BitVec 16)
  /-- The character at the lowest bad position was not binary (R203). -/
  | invalidSymbol (char : Byte) (position : Nat)
  /-- SYMCNT was not 48 (R204). -/
  | cardinality (symcnt : BitVec 16)
  /-- Configuration, sub-code 1: CPFRAC was outside 1..65535 (R205). -/
  | prefixFraction (cpfrac : Word)
  /-- Configuration, sub-code 2: FREQLEN was not 64 (R206). -/
  | vectorLength (freqlen : BitVec 16)
  /-- The word is not listed in the opcode map (R207). -/
  | illegalCommand (word : Word)
  deriving DecidableEq, Repr

/-- The architectural state of OQM-CORE (10_state.md R20), and last the model's own five fields. -/
structure State where
  /-- CTRL.IE (R24). -/
  ie : Bool
  /-- STATUS.DONE (R25). -/
  done : Bool
  /-- STATUS.WRBUSY (R25). -/
  wrbusy : Bool
  /-- STATUS.ERRCODE (R25). -/
  errcode : BitVec 4
  /-- STATUS.ERRSUB (R25). -/
  errsub : BitVec 4
  /-- STATUS.LASTOP (R25). -/
  lastop : Byte
  /-- ERRINFO (R28). -/
  errinfo : Word
  /-- NORM.POLICY (R30): 0 is NONE, 1 is SQRT_N_OVER_ND. -/
  policy : BitVec 1
  /-- CPFRAC (R31). -/
  cpfrac : Word
  /-- PILOT_RE (R32). -/
  pilotRe : Word
  /-- PILOT_IM (R32). -/
  pilotIm : Word
  /-- BITLEN (R39). -/
  bitlen : BitVec 16
  /-- SYMCNT (R40). -/
  symcnt : BitVec 16
  /-- FREQLEN (R41). -/
  freqlen : BitVec 16
  /-- OUTLEN (R42). -/
  outlen : BitVec 16
  /-- BITBUF[p].CHAR (R43). -/
  bitbuf : Vector Byte 288
  /-- SYM_CODE (R44). -/
  symCode : Vector (BitVec 6) 48
  /-- SYM_RE (R44). -/
  symRe : Vector Word 48
  /-- SYM_IM (R44). -/
  symIm : Vector Word 48
  /-- SYM_MAG (R44). -/
  symMag : Vector Word 48
  /-- SYM_PH (R44). -/
  symPh : Vector Word 48
  /-- FREQ_RE (R45). -/
  freqRe : Vector Word 64
  /-- FREQ_IM (R45). -/
  freqIm : Vector Word 64
  /-- OUT_RE (R46). -/
  outRe : Vector Word 127
  /-- OUT_IM (R46). -/
  outIm : Vector Word 127
  /-- SEQ (R47). -/
  seq : SeqState
  /-- PEND (R47). -/
  pend : Word
  /-- The model's own: what the host and the platform do next, oldest first. Log 4. -/
  inputs : List BusInput
  /-- The model's own: what the host's reads returned, newest first. Log 4. -/
  replies : List Word
  /-- The model's own: how many more host accesses take effect before the pending command completes
  (43_sequencer.md R181). Read only while BUSY. Log 3. -/
  wait : Nat
  /-- The model's own: counts the free values taken, so that each has an argument of its own. Log 2. -/
  draws : Nat
  /-- The model's own: the values of the parameters LEVEL_OF_BITS, DATA_INDEX and PILOT_INDEX that this machine
  was built with (00_scope.md R7; 10_state.md R20 calls them "parameters of the model, not state"). They stand
  here because `exec` and `step` take no argument but the state. No step changes them. Log 9. -/
  params : Config.Params
  deriving DecidableEq, Repr

/-- The contents of `n` cells of `w` bits from offset `base` on after the reset numbered `k`: an arbitrary
value each (70_reset_and_hazards.md R232). -/
def drawnCells (k base w n : Nat) : Vector (BitVec w) n :=
  Vector.ofFn fun i => (Config.resetDraw k (base + 8 * i.val)).setWidth w

/-- The state the reset numbered `k` leaves (R231, R232), with nothing to come and nothing read, in a machine with
the default parameters. -/
def State.resetAt (k : Nat) : State where
  ie := false
  done := false
  wrbusy := false
  errcode := 0
  errsub := 0
  lastop := 0
  errinfo := 0
  policy := 0
  cpfrac := 0x4000
  pilotRe := 0x3FF0000000000000
  pilotIm := 0
  bitlen := 0
  symcnt := 0
  freqlen := 0
  outlen := 0
  bitbuf := drawnCells k 0x1000 8 288
  symCode := drawnCells k 0x2000 6 48
  symRe := drawnCells k 0x2200 64 48
  symIm := drawnCells k 0x2400 64 48
  symMag := drawnCells k 0x2600 64 48
  symPh := drawnCells k 0x2800 64 48
  freqRe := drawnCells k 0x3000 64 64
  freqIm := drawnCells k 0x3200 64 64
  outRe := drawnCells k 0x4000 64 127
  outIm := drawnCells k 0x4400 64 127
  seq := .idle
  pend := Config.resetDraw k 0x0018
  inputs := []
  replies := []
  wait := 0
  draws := k + 1
  params := defaultParams

/-- The machine right after power-on, which is a reset (70_reset_and_hazards.md R230 to R232). -/
def State.reset : State := State.resetAt 0

end Sys2Proof.Machine
end

