-- ==== Sys2Proof/Machine/Flags.lean ====
section
/-! DEFINITION. The flags: the STATUS word, the W1C acknowledgement and the interrupt output (10_state.md R25,
R26, R48, R49). -/

namespace Sys2Proof.Machine

/-- A one-bit flag in a 64-bit register. -/
def flagWord (b : Bool) : Word := (BitVec.ofBool b).setWidth 64

/-- STATUS.BUSY: 1 while SEQ = BUSY (10_state.md R25). Log 11. -/
def State.isBusy (s : State) : Bool := decide (s.seq = .busy)

/-- STATUS.ERR: equal to ERRCODE ≠ 0 at all times (10_state.md R25). Log 11. -/
def State.err (s : State) : Bool := decide (s.errcode ≠ 0)

/-- The STATUS register as the host reads it (20_memory.md R65). -/
def State.statusWord (s : State) : Word :=
  (s.lastop.setWidth 64 <<< 16) ||| (s.errsub.setWidth 64 <<< 12) ||| (s.errcode.setWidth 64 <<< 8)
    ||| (flagWord s.wrbusy <<< 3) ||| (flagWord s.err <<< 2) ||| (flagWord s.done <<< 1)
    ||| flagWord s.isBusy

/-- A host write of `v` to STATUS while IDLE: bits 1 and 3 clear DONE and WRBUSY where they are 1, and no
other field changes (10_state.md R26). -/
def State.acknowledge (s : State) (v : Word) : State :=
  { s with done := s.done && !(v.getLsbD 1), wrbusy := s.wrbusy && !(v.getLsbD 3) }

/-- The interrupt output, level-sensitive and active high (10_state.md R48; 60_exceptions.md R215). -/
def State.irq (s : State) : Bool := s.done && s.ie

end Sys2Proof.Machine
end

