-- ==== Sys2Proof/Machine/Float.lean ====
section
/-! DEFINITION. binary64 as data: its fields and the rational number a finite one denotes (30_encoding.md R84;
00_scope.md R10). -/

namespace Sys2Proof.Machine

/-- The biased exponent [62:52] of a binary64 (30_encoding.md R84). -/
def f64Exponent (b : Word) : Nat := (b.extractLsb' 52 11).toNat

/-- The fraction [51:0] of a binary64 (30_encoding.md R84). -/
def f64Fraction (b : Word) : Nat := (b.extractLsb' 0 52).toNat

/-- A binary64 that is neither an infinity nor a NaN. -/
def f64Finite (b : Word) : Bool := decide (f64Exponent b ≠ 2047)

/-- +0.0 and -0.0. -/
def f64Zero (b : Word) : Bool := decide (b = 0 ∨ b = 0x8000000000000000)

/-- The integer significand: with the hidden bit, or a subnormal's fraction. -/
def f64Significand (b : Word) : Nat :=
  if f64Exponent b = 0 then f64Fraction b else 2 ^ 52 + f64Fraction b

/-- The exponent of the last place, at least that of the subnormals (bias 1023, 52 fraction bits). -/
def f64LastPlace (b : Word) : Int := (max (f64Exponent b) 1 : Nat) - 1075

/-- `real(b)` of a finite binary64 (00_scope.md R10; 30_encoding.md R84). -/
def f64Value (b : Word) : ℚ :=
  (if b.getLsbD 63 then -1 else 1) * (f64Significand b : ℚ) * (2 : ℚ) ^ f64LastPlace b

/-- Every component is finite with magnitude at most 2^1000, the premise of the accuracy condition of
42_synthesizer.md R152. -/
def moderate (X : Config.Samples) : Bool :=
  (List.finRange 64).all fun k =>
    f64Finite (X[k]).1 && decide (|f64Value (X[k]).1| ≤ 2 ^ 1000) &&
      (f64Finite (X[k]).2 && decide (|f64Value (X[k]).2| ≤ 2 ^ 1000))

end Sys2Proof.Machine
end

