-- ==== Sys2Proof/Machine/Rom.lean ====
section
/-! DEFINITION. The constellation ROM (40_mapper.md R104 to R108): each entry from its two levels, with the
stored binary64 constants of R106 and R107. Log 15. -/

namespace Sys2Proof.Machine

/-- One ROM entry (40_mapper.md R105; 10_state.md R38). -/
structure RomEntry where
  ilev : Int
  qlev : Int
  re : Word
  im : Word
  mag : Word
  ph : Word
  deriving DecidableEq, Repr

/-- The binary64 with the sign bit [63] of a negative value: RN(-x) = -RN(x) (40_mapper.md R105). -/
def withSign (negative : Bool) (b : Word) : Word :=
  if negative then b ||| 0x8000000000000000 else b

/-- RN(K * m) for the magnitude m of a level (40_mapper.md R107, first table). Any other m is no level. -/
def scaledLevelMagnitude : Nat → Word
  | 1 => 0x3FC3C03650E00E03
  | 3 => 0x3FDDA05179501504
  | 5 => 0x3FE8B043E5181184
  | 7 => 0x3FF1482F86C40C43
  | _ => 0

/-- RN(K * L) for a level L (40_mapper.md R105). -/
def scaledLevel (l : Int) : Word := withSign (decide (l < 0)) (scaledLevelMagnitude l.natAbs)

/-- RN(K * sqrt(m)) for m = ILEV^2 + QLEV^2 (40_mapper.md R107, second table; R116). -/
def scaledMagnitude : Nat → Word
  | 2 => 0x3FCBEE9056FB9C39
  | 10 => 0x3FDF3A92CA2F4B7C
  | 18 => 0x3FE4F2EC413CB52B
  | 26 => 0x3FE92D6E5EA92C55
  | 34 => 0x3FECCAA1EA93E272
  | 50 => 0x3FF1751A365D41A3
  | 58 => 0x3FF2CD5EDE9B5CBA
  | 74 => 0x3FF53CE5D0A43282
  | 98 => 0x3FF870BE4C1C28B2
  | _ => 0

/-- RN(atan2(q, ILEV)) for a positive quadrature level q: the PHASE column of 40_mapper.md R106. -/
def upperPhase : Int → Nat → Word
  | -7, 1 => 0x4007FF6067FCC98A
  | -7, 3 => 0x4005E4C36CA0118A
  | -7, 5 => 0x40042BB5F776EB80
  | -7, 7 => 0x4002D97C7F3321D2
  | -5, 1 => 0x40078DB734B4BAB8
  | -5, 3 => 0x4004CF33DEC5E9E0
  | -5, 5 => 0x4002D97C7F3321D2
  | -5, 7 => 0x4001874306EF5824
  | -3, 1 => 0x40068F095FDF593C
  | -3, 3 => 0x4002D97C7F3321D2
  | -3, 5 => 0x4000E3C51FA059C4
  | -3, 7 => 0x3FFF9C6B238C6434
  | -1, 1 => 0x4002D97C7F3321D2
  | -1, 3 => 0x3FFE47DF3D0DD4D1
  | -1, 5 => 0x3FFC4A83936311DA
  | -1, 7 => 0x3FFB67312CD2F434
  | 1, 1 => 0x3FE921FB54442D18
  | 1, 3 => 0x3FF3FC176B7A8560
  | 1, 5 => 0x3FF5F97315254857
  | 1, 7 => 0x3FF6DCC57BB565FD
  | 3, 1 => 0x3FD4978FA3269EE1
  | 3, 3 => 0x3FE921FB54442D18
  | 3, 5 => 0x3FF07C6C6947A6A8
  | 3, 7 => 0x3FF2A78B84FBF5FC
  | 5, 1 => 0x3FC94441F8F7260B
  | 5, 3 => 0x3FE14B1DD5F90CE1
  | 5, 5 => 0x3FE921FB54442D18
  | 5, 7 => 0x3FEE6AE1355353D0
  | 7, 1 => 0x3FC229AEC47638DD
  | 7, 3 => 0x3FD9E9BF3D20DC71
  | 7, 5 => 0x3FE3D91573350661
  | 7, 7 => 0x3FE921FB54442D18
  | _, _ => 0

/-- RN(atan2(QLEV, ILEV)) (40_mapper.md R105): atan2(-y, x) = -atan2(y, x) for y other than 0. -/
def phaseOf (ilev qlev : Int) : Word := withSign (decide (qlev < 0)) (upperPhase ilev qlev.natAbs)

/-- The entry whose levels are `ilev` and `qlev` (40_mapper.md R105). -/
def entryOfLevels (ilev qlev : Int) : RomEntry where
  ilev := ilev
  qlev := qlev
  re := scaledLevel ilev
  im := scaledLevel qlev
  mag := scaledMagnitude (ilev.natAbs * ilev.natAbs + qlev.natAbs * qlev.natAbs)
  ph := phaseOf ilev qlev

/-- LEVEL_OF_BITS(x) for a 3-bit field x (40_mapper.md R102). -/
def levelOf (map : Vector Int 8) (x : BitVec 3) : Int := map[x.toFin]

/-- The in-phase sub-index i = c[5:3] of a code (30_encoding.md R88). -/
def inPhase (c : BitVec 6) : BitVec 3 := c.extractLsb' 3 3

/-- The quadrature sub-index q = c[2:0] of a code (30_encoding.md R88). -/
def quadrature (c : BitVec 6) : BitVec 3 := c.extractLsb' 0 3

/-- ROM[c] under a value of the parameter LEVEL_OF_BITS (40_mapper.md R104; 90_conflicts.md C1). It never changes
(R108). -/
def romWith (map : Vector Int 8) (c : BitVec 6) : RomEntry :=
  entryOfLevels (levelOf map (inPhase c)) (levelOf map (quadrature c))

/-- ROM[c] under the default level map: the rows of 40_mapper.md R106. -/
def rom (c : BitVec 6) : RomEntry := romWith defaultLevelOfBits c

/-- The fields QLEV and ILEV of CROM_LEV[c], 4-bit two's complement each (30_encoding.md R89; 10_state.md
R38). -/
def levelFields (e : RomEntry) : Byte := BitVec.ofInt 4 e.qlev ++ BitVec.ofInt 4 e.ilev

end Sys2Proof.Machine
end

