-- ==== Sys2Proof/Machine/Surd.lean ====
section
/-! DEFINITION. Exact arithmetic in the real numbers that the reference transform of 42_synthesizer.md R150 and R151
takes on rational inputs: the rationals with sqrt 3, sqrt 2, sqrt (2 + sqrt 2) and so on adjoined one after another.
The last of five roots is 2 cos (pi/32). It lets a step compare a binary64 with an exact reference value. -/

namespace Sys2Proof.Machine

/-- A number over n roots: a rational, or a + b * r with r the newest root. -/
inductive Surd : Nat → Type where
  | rat (q : ℚ) : Surd 0
  | pair {n : Nat} (a b : Surd n) : Surd (n + 1)
  deriving DecidableEq, Repr

/-- A rational number. -/
def surdConst : (n : Nat) → ℚ → Surd n
  | 0, q => .rat q
  | n + 1, q => .pair (surdConst n q) (surdConst n 0)

/-- The newest root itself. -/
def surdRoot (n : Nat) : Surd (n + 1) := .pair (surdConst n 0) (surdConst n 1)

/-- The sum. -/
def surdAdd : {n : Nat} → Surd n → Surd n → Surd n
  | _, .rat x, .rat y => .rat (x + y)
  | _, .pair a b, .pair c d => .pair (surdAdd a c) (surdAdd b d)

/-- The product with a rational. -/
def surdScale (q : ℚ) : {n : Nat} → Surd n → Surd n
  | _, .rat x => .rat (q * x)
  | _, .pair a b => .pair (surdScale q a) (surdScale q b)

/-- The difference. -/
def surdSub {n : Nat} (x y : Surd n) : Surd n := surdAdd x (surdScale (-1) y)

/-- The product with the number under the root that comes after n roots: 3, then 2, then 2 plus the newest root. -/
def surdTimesRadicand : {n : Nat} → Surd n → Surd n
  | 0, x => surdScale 3 x
  | 1, x => surdScale 2 x
  | _ + 2, .pair a b => surdAdd (surdScale 2 (.pair a b)) (.pair (surdTimesRadicand b) a)

/-- The product with the newest root. -/
def surdTimesRoot {n : Nat} : Surd (n + 1) → Surd (n + 1)
  | .pair a b => .pair (surdTimesRadicand b) a

/-- The product with the first root, sqrt 3. -/
def surdTimesSqrtThree : {n : Nat} → Surd (n + 1) → Surd (n + 1)
  | 0, .pair a b => .pair (surdScale 3 b) a
  | _ + 1, .pair a b => .pair (surdTimesSqrtThree a) (surdTimesSqrtThree b)

/-- The product. -/
def surdMul : {n : Nat} → Surd n → Surd n → Surd n
  | _, .rat x, .rat y => .rat (x * y)
  | _, .pair a b, .pair c d =>
    .pair (surdAdd (surdMul a c) (surdTimesRadicand (surdMul b d))) (surdAdd (surdMul a d) (surdMul b c))

/-- Whether the number is 0 or more. For a + b * r with r the root of d: by the signs of a and b, and where they
differ by comparing a * a with b * b * d. -/
def surdNonneg : {n : Nat} → Surd n → Bool
  | _, .rat q => decide (0 ≤ q)
  | _, .pair a b =>
    if surdNonneg a then
      surdNonneg b || surdNonneg (surdSub (surdMul a a) (surdTimesRadicand (surdMul b b)))
    else
      surdNonneg b && surdNonneg (surdSub (surdTimesRadicand (surdMul b b)) (surdMul a a))

/-- The sum of a list. -/
def surdSum {n : Nat} (l : List (Surd n)) : Surd n := l.foldr surdAdd (surdConst n 0)

/-- 2 cos (j pi/32) and 2 cos ((j + 1) pi/32), by 2 cos ((j + 2) t) = 2 cos t * 2 cos ((j + 1) t) - 2 cos (j t). -/
def doubleCosines : Nat → Surd 5 × Surd 5
  | 0 => (surdConst 5 2, surdRoot 4)
  | j + 1 => ((doubleCosines j).2, surdSub (surdTimesRoot (doubleCosines j).2) (doubleCosines j).1)

/-- 2 cos (2 pi m/64). -/
def doubleCos (m : Nat) : Surd 5 := (doubleCosines (m % 64)).1

/-- 2 sin (2 pi m/64), the cosine a quarter turn earlier. -/
def doubleSin (m : Nat) : Surd 5 := doubleCos (m + 48)

end Sys2Proof.Machine
end

