-- ==== Sys2Proof/Machine/Numerics.lean ====
section
/-! DEFINITION. The numerics of IFFT64 and its scaler, SYNTH_IMPL, as a free function held to the law of
42_synthesizer.md R152: a part that the free function gives stands if it obeys the law, and a nearest binary64
stands for it otherwise. Log 7. -/

namespace Sys2Proof.Machine

/-- The product with the scale s of NORM.POLICY, 1 or 2/sqrt 3 (42_synthesizer.md R151). -/
def surdPolicyScale (policy : BitVec 1) (x : Surd 5) : Surd 5 :=
  if policy = 0 then x else surdScale (2 / 3) (surdTimesSqrtThree x)

/-- One part of y_ref[n] from 64 terms with doubled cosines and sines (42_synthesizer.md R150). -/
def surdSample (policy : BitVec 1) (term : Fin 64 → Surd 5) : Surd 5 :=
  surdPolicyScale policy (surdScale (1 / 128) (surdSum ((List.finRange 64).map term)))

/-- Re y_ref[n], exactly (42_synthesizer.md R150). -/
def referenceRe (X : Config.Samples) (policy : BitVec 1) (n : Fin 64) : Surd 5 :=
  surdSample policy fun k => surdSub (surdScale (f64Value (X[k]).1) (doubleCos (k.val * n.val)))
    (surdScale (f64Value (X[k]).2) (doubleSin (k.val * n.val)))

/-- Im y_ref[n], exactly (42_synthesizer.md R150). -/
def referenceIm (X : Config.Samples) (policy : BitVec 1) (n : Fin 64) : Surd 5 :=
  surdSample policy fun k => surdAdd (surdScale (f64Value (X[k]).1) (doubleSin (k.val * n.val)))
    (surdScale (f64Value (X[k]).2) (doubleCos (k.val * n.val)))

/-- The bound B, exactly (42_synthesizer.md R152). -/
def referenceBound (X : Config.Samples) (policy : BitVec 1) : Surd 5 :=
  surdPolicyScale policy (surdConst 5
    (1 / 64 * ((List.finRange 64).map fun k => |f64Value (X[k]).1| + |f64Value (X[k]).2|).sum))

/-- |real(v) - y| ≤ eps * B for a finite v (42_synthesizer.md R152). -/
def partAccurate (eps : ℚ) (y bound : Surd 5) (v : Word) : Bool :=
  surdNonneg (surdSub (surdScale eps bound) (surdSub (surdConst 5 (f64Value v)) y)) &&
    surdNonneg (surdAdd (surdScale eps bound) (surdSub (surdConst 5 (f64Value v)) y))

/-- The value of the binary64 with sign 0 and the bits p below it; these values rise with p. -/
def magnitudeValue (p : Nat) : ℚ := f64Value (BitVec.ofNat 64 p)

/-- From p on, add the powers of two below 2^i, the largest first, that keep the pattern finite and its value at
most a. -/
def floorSearch (a : Surd 5) : Nat → Nat → Nat
  | 0, p => p
  | i + 1, p =>
    floorSearch a i
      (if p + 2 ^ i < 0x7FF0000000000000 ∧ surdNonneg (surdSub a (surdConst 5 (magnitudeValue (p + 2 ^ i)))) = true
        then p + 2 ^ i else p)

/-- The pattern of the largest finite magnitude that is at most a, for a of 0 or more. -/
def floorPattern (a : Surd 5) : Nat := floorSearch a 63 0

/-- Of the finite magnitudes p and p + 1 around a, the nearer; of two equally near, the even one. -/
def nearerPattern (a : Surd 5) (p : Nat) : Nat :=
  if p + 1 < 0x7FF0000000000000 ∧
      surdNonneg (surdSub (surdScale 2 a) (surdConst 5 (magnitudeValue p + magnitudeValue (p + 1)))) = true ∧
      (surdNonneg (surdSub (surdConst 5 (magnitudeValue p + magnitudeValue (p + 1))) (surdScale 2 a)) = false ∨
        p % 2 = 1)
  then p + 1 else p

/-- The magnitude of a number. -/
def surdAbs (y : Surd 5) : Surd 5 := if surdNonneg y then y else surdScale (-1) y

/-- The finite binary64 nearest to y, ties to even, with the sign of y (00_scope.md R10). -/
def roundSurd (y : Surd 5) : Word :=
  withSign (!surdNonneg y) (BitVec.ofNat 64 (nearerPattern (surdAbs y) (floorPattern (surdAbs y))))

/-- One part of a sample held to the law of 42_synthesizer.md R152: the part v itself if it obeys the law, else the
nearest binary64. -/
def lawfulPart (eps : ℚ) (y bound : Surd 5) (v : Word) : Word :=
  if f64Finite v && partAccurate eps y bound v then v
  else if partAccurate eps y bound (roundSurd y) then roundSurd y
  else if f64Finite v then v
  else roundSurd y

/-- A function held to the law of SYNTH_IMPL with SYNTH_EPS = eps (42_synthesizer.md R152). One that obeys the law is
not changed; on an input that is not moderate there is no law (R160). -/
def heldToLaw (eps : ℚ) (free : Config.SynthImpl) : Config.SynthImpl := fun X policy =>
  if moderate X then
    Vector.ofFn fun n =>
      (lawfulPart eps (referenceRe X policy n) (referenceBound X policy) ((free X policy)[n]).1,
        lawfulPart eps (referenceIm X policy n) (referenceBound X policy) ((free X policy)[n]).2)
  else free X policy

/-- SYNTH_EPS of this machine: a free rational, held to the range of 42_synthesizer.md R152. Log 8. -/
def synthEps : ℚ := max (1 / 2 ^ 53) (min (1 / 10 ^ 9) Config.freeEps)

/-- SYNTH_IMPL of this machine: a free function, held to its law (42_synthesizer.md R152). Log 7. -/
def synthImpl : Config.SynthImpl := heldToLaw synthEps Config.freeNumerics

end Sys2Proof.Machine
end

