-- ==== Sys2Proof/Machine/Operands.lean ====
section
/-! DEFINITION. The operands of the commands: every command reads fixed registers and buffers
(30_encoding.md R83), and this file says how each reads its own. -/

namespace Sys2Proof.Machine

/-- A binary character, 0x30 or 0x31 (30_encoding.md R87). -/
def isBinary (ch : Byte) : Bool := ch == 0x30 || ch == 0x31

/-- The first character of a string that is not binary, with its position counted from `p`
(40_mapper.md R109: "ascending; first failure wins"; D35). -/
def firstNonBinary (p : Nat) : List Byte → Option (Byte × Nat)
  | [] => none
  | ch :: rest => if isBinary ch then firstNonBinary (p + 1) rest else some (ch, p)

/-- A string of binary characters read as a number, the first character most significant
(40_mapper.md R109, R110). -/
def binaryValue (chars : List Byte) : Nat :=
  chars.foldl (fun c ch => 2 * c + (ch.toNat - 0x30)) 0

/-- The six characters 6g..6g+5 of group g (20_memory.md R69). -/
def groupChars (bits : Vector Byte 288) (g : Fin 48) : List Byte :=
  List.ofFn fun j : Fin 6 => bits[6 * g.val + j.val]

/-- The 6-bit code of group g (40_mapper.md R110). -/
def groupCode (bits : Vector Byte 288) (g : Fin 48) : BitVec 6 :=
  BitVec.ofNat 6 (binaryValue (groupChars bits g))

/-- CPFRAC is legal when 1 ≤ sint64(CPFRAC) ≤ 65535 (42_synthesizer.md R154). -/
def fractionLegal (cpfrac : Word) : Bool := decide (1 ≤ cpfrac.toInt ∧ cpfrac.toInt ≤ 65535)

/-- cp_len = sint64(CPFRAC) >> 10, an integer in 0..63 for a legal CPFRAC (42_synthesizer.md R153). -/
def cpLen (cpfrac : Word) : Fin 64 := Fin.ofNat 64 (cpfrac.toInt.toNat >>> 10)

/-- The subcarrier vector X that SYNTH reads (42_synthesizer.md R155; 30_encoding.md R85). -/
def subcarrierVector (s : State) : Config.Samples := Vector.ofFn fun k => (s.freqRe[k], s.freqIm[k])

end Sys2Proof.Machine
end

