-- ==== Sys2Proof/Machine/Ops.lean ====
section
/-! DEFINITION. The shared operations: a command's acceptance, its completion in success or in error
(OQM-CORE's only "trap entry", 60_exceptions.md R210), and the buffer writes of the three units. -/

namespace Sys2Proof.Machine

/-- The error code of 60_exceptions.md R201. -/
def CommandError.code : CommandError → BitVec 4
  | .invalidLength _ => 1
  | .invalidSymbol _ _ => 2
  | .cardinality _ => 3
  | .prefixFraction _ => 4
  | .vectorLength _ => 4
  | .illegalCommand _ => 5

/-- The sub-code of 60_exceptions.md R201. -/
def CommandError.sub : CommandError → BitVec 4
  | .invalidLength _ => 0
  | .invalidSymbol _ _ => 0
  | .cardinality _ => 0
  | .prefixFraction _ => 1
  | .vectorLength _ => 2
  | .illegalCommand _ => 0

/-- ERRINFO as two 32-bit halves, "expected << 32 | actual" for the counts (60_exceptions.md R201). -/
def errorHalves (high low : BitVec 32) : Word := high ++ low

/-- ERRINFO of 60_exceptions.md R201. -/
def CommandError.info : CommandError → Word
  | .invalidLength n => errorHalves 288 (n.setWidth 32)
  | .invalidSymbol ch p => errorHalves (ch.setWidth 32) (BitVec.ofNat 32 p)
  | .cardinality m => errorHalves 48 (m.setWidth 32)
  | .prefixFraction f => f
  | .vectorLength m => errorHalves 64 (m.setWidth 32)
  | .illegalCommand v => v

/-- Acceptance of the word `v` (43_sequencer.md R180). Every word is accepted, none is decoded. The latency of
this command is a free value (R181; log 3). -/
def State.accept (s : State) (v : Word) : State :=
  { s with
    pend := v
    seq := .busy
    done := false
    errcode := 0
    errsub := 0
    errinfo := 0
    wait := Config.latency s.draws
    draws := s.draws + 1 }

/-- The part of a completion that success and error share (43_sequencer.md R182): LASTOP, DONE, SEQ, and the
error record. -/
def State.finish (s : State) (op : Byte) (code sub : BitVec 4) (info : Word) : State :=
  { s with
    errcode := code
    errsub := sub
    errinfo := info
    lastop := op
    done := true
    seq := .idle
    wait := 0 }

/-- Completion in success: `s` holds the body's writes (43_sequencer.md R182, else branch). -/
def State.succeed (s : State) (op : Byte) : State := s.finish op 0 0 0

/-- Completion in error, the one way an error is taken (60_exceptions.md R210): no vector, no handler, no
mode; no buffer, count or configuration register is written. -/
def State.fail (s : State) (op : Byte) (e : CommandError) : State := s.finish op e.code e.sub e.info

/-- The completion step of a command whose checks give `error` and whose body would leave `written`
(43_sequencer.md R182; 00_scope.md R12: every check precedes every write, so an error discards them all). -/
def completeWith (op : Byte) (error : Option CommandError) (written s : State) : State :=
  match error with
  | none => written.succeed op
  | some e => s.fail op e

/-- The ILLEGAL body (43_sequencer.md R184; 60_exceptions.md R207): LASTOP still takes OP. -/
def completeIllegal (word : Word) (s : State) : State :=
  s.fail (word.setWidth 8) (.illegalCommand word)

/-- BITLEN must be 288 (60_exceptions.md R202). -/
def lengthError (s : State) : Option CommandError :=
  if s.bitlen = 288 then none else some (.invalidLength s.bitlen)

/-- Every character of BITBUF[0..287] must be binary; the lowest bad position is reported
(60_exceptions.md R203). -/
def symbolError (s : State) : Option CommandError :=
  match firstNonBinary 0 s.bitbuf.toList with
  | none => none
  | some (ch, p) => some (.invalidSymbol ch p)

/-- SYMCNT must be 48 (60_exceptions.md R204). -/
def cardinalityError (s : State) : Option CommandError :=
  if s.symcnt = 48 then none else some (.cardinality s.symcnt)

/-- CPFRAC must be a fraction inside (0, 1) (60_exceptions.md R205). -/
def fractionError (s : State) : Option CommandError :=
  if fractionLegal s.cpfrac then none else some (.prefixFraction s.cpfrac)

/-- FREQLEN must be 64 (60_exceptions.md R206). -/
def vectorError (s : State) : Option CommandError :=
  if s.freqlen = 64 then none else some (.vectorLength s.freqlen)

/-- The first error of `a`, else that of `b`: a command reports the first in its check order
(60_exceptions.md R211). -/
def firstError (a b : Option CommandError) : Option CommandError :=
  match a with
  | some e => some e
  | none => b

/-- ROM[c] of this machine (40_mapper.md R104). -/
def State.rom (s : State) (c : BitVec 6) : RomEntry := romWith s.params.levelOfBits c

/-- The writes of MAP (40_mapper.md R109): record g is a copy of the ROM entry of group g's code (R111,
R112). -/
def mapWrites (s : State) : State :=
  { s with
    symCode := Vector.ofFn fun g => groupCode s.bitbuf g
    symRe := Vector.ofFn fun g => (s.rom (groupCode s.bitbuf g)).re
    symIm := Vector.ofFn fun g => (s.rom (groupCode s.bitbuf g)).im
    symMag := Vector.ofFn fun g => (s.rom (groupCode s.bitbuf g)).mag
    symPh := Vector.ofFn fun g => (s.rom (groupCode s.bitbuf g)).ph
    symcnt := 48 }

/-- "data symbols, in list order": put each of the symbols `ds` in its bin (41_assembler.md R134). -/
def placeData (dataIndex : Vector (Fin 64) 48) (sym : Vector Word 48) (ds : List (Fin 48))
    (v : Vector Word 64) : Vector Word 64 :=
  ds.foldl (fun v d => v.set (dataIndex[d]).val sym[d]) v

/-- Put the one pilot value in the pilot bins `ps` (41_assembler.md R134, R139). -/
def placePilots (pilotIndex : Vector (Fin 64) 4) (pilot : Word) (ps : List (Fin 4))
    (v : Vector Word 64) : Vector Word 64 :=
  ps.foldl (fun v p => v.set (pilotIndex[p]).val pilot) v

/-- One part, real or imaginary, of the assembled vector: all +0.0, then the data symbols, then the pilots
(41_assembler.md R134, R136). -/
def assembledBins (P : Config.Params) (sym : Vector Word 48) (pilot : Word) : Vector Word 64 :=
  placePilots P.pilotIndex pilot (List.finRange 4)
    (placeData P.dataIndex sym (List.finRange 48) (Vector.replicate 64 0))

/-- The writes of ASSEMBLE under the parameters `P` (41_assembler.md R134). -/
def assembleWritesWith (P : Config.Params) (s : State) : State :=
  { s with
    freqRe := assembledBins P s.symRe s.pilotRe
    freqIm := assembledBins P s.symIm s.pilotIm
    freqlen := 64 }

/-- The writes of ASSEMBLE with the index sets of this machine (41_assembler.md R134). -/
def assembleWrites (s : State) : State := assembleWritesWith s.params s

/-- Entry n of one output array (42_synthesizer.md R155, R156, R159): the prefix is block sample 64 - cp + n,
then block sample n - cp; entries at and beyond 64 + cp keep what they held. -/
def outputCell (cp : Fin 64) (block : Vector Word 64) (old : Vector Word 127) (n : Fin 127) : Word :=
  if h : n.val < cp.val then block[64 - cp.val + n.val]
  else if h' : n.val < cp.val + 64 then block[n.val - cp.val]
  else old[n]

/-- One output array after SYNTH. -/
def outputArray (cp : Fin 64) (block : Vector Word 64) (old : Vector Word 127) : Vector Word 127 :=
  Vector.ofFn fun n => outputCell cp block old n

/-- The writes of SYNTH with the transform numerics `impl` (42_synthesizer.md R155). -/
def synthWritesWith (impl : Config.SynthImpl) (s : State) : State :=
  { s with
    outRe := outputArray (cpLen s.cpfrac) ((impl (subcarrierVector s) s.policy).map Prod.fst) s.outRe
    outIm := outputArray (cpLen s.cpfrac) ((impl (subcarrierVector s) s.policy).map Prod.snd) s.outIm
    outlen := BitVec.ofNat 16 (64 + (cpLen s.cpfrac).val) }

/-- The writes of SYNTH (42_synthesizer.md R155). -/
def synthWrites (s : State) : State := synthWritesWith synthImpl s

/-- The writes of RUN with the transform numerics `impl`: those of MAP, ASSEMBLE and SYNTH in order, each reading
what the previous one wrote (43_sequencer.md R183). -/
def runWritesWith (impl : Config.SynthImpl) (s : State) : State :=
  synthWritesWith impl (assembleWrites (mapWrites s))

/-- The writes of RUN (43_sequencer.md R183). -/
def runWrites (s : State) : State := runWritesWith synthImpl s

end Sys2Proof.Machine
end

