-- ==== Sys2Proof/Machine/Assembler.lean ====
section
/-! DEFINITION. The command ASSEMBLE (41_assembler.md R134). -/

namespace Sys2Proof.Machine

/-- ASSEMBLE: the completion step of the word 0x2 (41_assembler.md R134). Its one check is SYMCNT. -/
def execAssemble (s : State) : Host.Outcome State Fault Refusal :=
  .next (completeWith (opcode .assemble) (cardinalityError s) (assembleWrites s) s)

end Sys2Proof.Machine
end

