-- ==== Sys2Proof/Machine/Chain.lean ====
section
/-! DEFINITION. The command RUN (43_sequencer.md R183). -/

namespace Sys2Proof.Machine

/-- The checks of RUN in their order, every one before any write: BITLEN, characters, CPFRAC
(43_sequencer.md R183; 60_exceptions.md R211). -/
def runError (s : State) : Option CommandError :=
  firstError (lengthError s) (firstError (symbolError s) (fractionError s))

/-- RUN with a given value of the parameter SYNTH_IMPL (42_synthesizer.md R152; 43_sequencer.md R183). -/
def execRunWith (impl : Config.SynthImpl) (s : State) : Host.Outcome State Fault Refusal :=
  .next (completeWith (opcode .run) (runError s) (runWritesWith impl s) s)

/-- RUN: the completion step of the word 0x4 (43_sequencer.md R183). -/
def execRun (s : State) : Host.Outcome State Fault Refusal := execRunWith synthImpl s

end Sys2Proof.Machine
end

