-- ==== Sys2Proof/Machine/Mapper.lean ====
section
/-! DEFINITION. The command MAP (40_mapper.md R109). -/

namespace Sys2Proof.Machine

/-- The checks of MAP in their order: length, then characters (60_exceptions.md R211). -/
def mapError (s : State) : Option CommandError := firstError (lengthError s) (symbolError s)

/-- MAP: the completion step of the word 0x1 (40_mapper.md R109). -/
def execMap (s : State) : Host.Outcome State Fault Refusal :=
  .next (completeWith (opcode .map) (mapError s) (mapWrites s) s)

end Sys2Proof.Machine
end

