-- ==== Sys2Proof/Machine/Synthesizer.lean ====
section
/-! DEFINITION. The command SYNTH (42_synthesizer.md R155). -/

namespace Sys2Proof.Machine

/-- The checks of SYNTH in their order: CPFRAC, then FREQLEN (60_exceptions.md R211). -/
def synthError (s : State) : Option CommandError := firstError (fractionError s) (vectorError s)

/-- SYNTH with a given value of the parameter SYNTH_IMPL (42_synthesizer.md R152, R155). -/
def execSynthWith (impl : Config.SynthImpl) (s : State) : Host.Outcome State Fault Refusal :=
  .next (completeWith (opcode .synth) (synthError s) (synthWritesWith impl s) s)

/-- SYNTH: the completion step of the word 0x3 (42_synthesizer.md R155). -/
def execSynth (s : State) : Host.Outcome State Fault Refusal := execSynthWith synthImpl s

end Sys2Proof.Machine
end

