-- ==== Sys2Proof/Machine/Dispatch.lean ====
section
/-! DEFINITION. One arm per command: its meaning (43_sequencer.md R182). -/

namespace Sys2Proof.Machine

def exec (i : Instr) (s : State) : Host.Outcome State Fault Refusal :=
  match i with
  | .map => Sys2Proof.Machine.execMap s
  | .assemble => Sys2Proof.Machine.execAssemble s
  | .synth => Sys2Proof.Machine.execSynth s
  | .run => Sys2Proof.Machine.execRun s

end Sys2Proof.Machine
end

