-- ==== Sys2Proof/Machine/Window.lean ====
section
/-! DEFINITION. The register window: the address map (20_memory.md R61), the host's read (R65) and the host's
write (R66). -/

namespace Sys2Proof.Machine

/-- The entry of an array of `n` cells from `base` on that lies at offset `off`, entry i at base + 8 * i
(20_memory.md R61). -/
def entryAt (base n off : Nat) : Option (Fin n) :=
  if h : base ≤ off ∧ off < base + 8 * n then some ⟨(off - base) / 8, by omega⟩ else none

/-- The single registers of the address map (20_memory.md R61). -/
def registerAt : Nat → Option Location
  | 0x0000 => some .id
  | 0x0008 => some .ctrl
  | 0x0010 => some .status
  | 0x0018 => some .cmd
  | 0x0020 => some .errinfo
  | 0x0028 => some .norm
  | 0x0030 => some .cpfrac
  | 0x0038 => some .pilotRe
  | 0x0040 => some .pilotIm
  | 0x0048 => some .bitlen
  | 0x0050 => some .symcnt
  | 0x0058 => some .freqlen
  | 0x0060 => some .outlen
  | 0x0068 => some .nfft
  | 0x0070 => some .ndata
  | 0x0078 => some .npilot
  | _ => none

/-- The read-only tables of the address map (20_memory.md R61; 10_state.md section 5). -/
def tableAt (off : Nat) : Option Location :=
  ((entryAt 0x0100 4 off).map Location.pilotIdx).or <|
  ((entryAt 0x0200 48 off).map Location.dataIdx).or <|
  ((entryAt 0x0400 64 off).map Location.cromLev).or <|
  ((entryAt 0x0600 64 off).map Location.cromRe).or <|
  ((entryAt 0x0800 64 off).map Location.cromIm).or <|
  ((entryAt 0x0A00 64 off).map Location.cromMag).or <|
  (entryAt 0x0C00 64 off).map Location.cromPh

/-- The buffers of the address map (20_memory.md R61; 10_state.md section 7). -/
def bufferAt (off : Nat) : Option Location :=
  ((entryAt 0x1000 288 off).map Location.bitbuf).or <|
  ((entryAt 0x2000 48 off).map Location.symCode).or <|
  ((entryAt 0x2200 48 off).map Location.symRe).or <|
  ((entryAt 0x2400 48 off).map Location.symIm).or <|
  ((entryAt 0x2600 48 off).map Location.symMag).or <|
  ((entryAt 0x2800 48 off).map Location.symPh).or <|
  ((entryAt 0x3000 64 off).map Location.freqRe).or <|
  ((entryAt 0x3200 64 off).map Location.freqIm).or <|
  ((entryAt 0x4000 127 off).map Location.outRe).or <|
  (entryAt 0x4400 127 off).map Location.outIm

/-- What the aligned offset `off` names: "Every offset not listed is reserved" (20_memory.md R61). -/
def locationAt (off : Nat) : Location :=
  ((registerAt off).or ((tableAt off).or (bufferAt off))).getD .reserved

/-- Whether the offset of a location is in VOLATILE (20_memory.md R65). -/
def isVolatile : Location → Bool
  | .errinfo | .bitlen | .symcnt | .freqlen | .outlen => true
  | .bitbuf _ | .symCode _ | .symRe _ | .symIm _ | .symMag _ | .symPh _ => true
  | .freqRe _ | .freqIm _ | .outRe _ | .outIm _ => true
  | .id | .ctrl | .status | .cmd | .norm | .cpfrac | .pilotRe | .pilotIm => false
  | .nfft | .ndata | .npilot | .pilotIdx _ | .dataIdx _ => false
  | .cromLev _ | .cromRe _ | .cromIm _ | .cromMag _ | .cromPh _ | .reserved => false

/-- The ROM entry of the index c = 0..63 (10_state.md R38). -/
def State.romAt (s : State) (c : Fin 64) : RomEntry := s.rom (BitVec.ofNat 6 c.val)

/-- The true 64-bit value of a location (20_memory.md R65, the case analysis). Fields the register does not
have, and reserved offsets, read 0. -/
def State.valueAt (s : State) : Location → Word
  | .id => Config.idWord
  | .ctrl => flagWord s.ie
  | .status => s.statusWord
  | .cmd => 0
  | .errinfo => s.errinfo
  | .norm => s.policy.setWidth 64
  | .cpfrac => s.cpfrac
  | .pilotRe => s.pilotRe
  | .pilotIm => s.pilotIm
  | .bitlen => s.bitlen.setWidth 64
  | .symcnt => s.symcnt.setWidth 64
  | .freqlen => s.freqlen.setWidth 64
  | .outlen => s.outlen.setWidth 64
  | .nfft => BitVec.ofNat 64 Config.nFft
  | .ndata => BitVec.ofNat 64 Config.nData
  | .npilot => BitVec.ofNat 64 Config.nPilot
  | .pilotIdx p => BitVec.ofNat 64 (s.params.pilotIndex[p]).val
  | .dataIdx d => BitVec.ofNat 64 (s.params.dataIndex[d]).val
  | .cromLev c => (levelFields (s.romAt c)).setWidth 64
  | .cromRe c => (s.romAt c).re
  | .cromIm c => (s.romAt c).im
  | .cromMag c => (s.romAt c).mag
  | .cromPh c => (s.romAt c).ph
  | .bitbuf p => (s.bitbuf[p]).setWidth 64
  | .symCode g => (s.symCode[g]).setWidth 64
  | .symRe g => s.symRe[g]
  | .symIm g => s.symIm[g]
  | .symMag g => s.symMag[g]
  | .symPh g => s.symPh[g]
  | .freqRe b => s.freqRe[b]
  | .freqIm b => s.freqIm[b]
  | .outRe n => s.outRe[n]
  | .outIm n => s.outIm[n]
  | .reserved => 0

/-- A host write of `v` to a location while IDLE (20_memory.md R66). Bits outside the writable fields are
dropped; a read-only or reserved location is not changed and no flag is set. -/
def State.writeAt (s : State) (v : Word) : Location → State
  | .ctrl => { s with ie := v.getLsbD 0 }
  | .status => s.acknowledge v
  | .cmd => s.accept v
  | .norm => { s with policy := v.setWidth 1 }
  | .cpfrac => { s with cpfrac := v }
  | .pilotRe => { s with pilotRe := v }
  | .pilotIm => { s with pilotIm := v }
  | .bitlen => { s with bitlen := v.setWidth 16 }
  | .symcnt => { s with symcnt := v.setWidth 16 }
  | .freqlen => { s with freqlen := v.setWidth 16 }
  | .bitbuf p => { s with bitbuf := s.bitbuf.set p.val (v.setWidth 8) }
  | .symCode g => { s with symCode := s.symCode.set g.val (v.setWidth 6) }
  | .symRe g => { s with symRe := s.symRe.set g.val v }
  | .symIm g => { s with symIm := s.symIm.set g.val v }
  | .symMag g => { s with symMag := s.symMag.set g.val v }
  | .symPh g => { s with symPh := s.symPh.set g.val v }
  | .freqRe b => { s with freqRe := s.freqRe.set b.val v }
  | .freqIm b => { s with freqIm := s.freqIm.set b.val v }
  | .id | .errinfo | .outlen | .nfft | .ndata | .npilot => s
  | .pilotIdx _ | .dataIdx _ => s
  | .cromLev _ | .cromRe _ | .cromIm _ | .cromMag _ | .cromPh _ => s
  | .outRe _ | .outIm _ | .reserved => s

/-- `MemRead(off, 8)` at a supported offset: the value and the state after (20_memory.md R65). A read of a
VOLATILE offset while BUSY returns a free value (R71; log 2), and only the model's own counter moves. -/
def State.hostRead (s : State) (off : Nat) : Word × State :=
  if s.seq = .busy ∧ isVolatile (locationAt off) = true then
    (Config.draw s.draws, { s with draws := s.draws + 1 })
  else (s.valueAt (locationAt off), s)

/-- `MemWrite(off, 8, v)` at a supported offset (20_memory.md R66): while BUSY it is dropped and sets
STATUS.WRBUSY. -/
def State.hostWrite (s : State) (off : Nat) (v : Word) : State :=
  if s.seq = .busy then { s with wrbusy := true } else s.writeAt v (locationAt off)

/-- Byte lane j of a 64-bit register holds its bits [8j+7:8j] (20_memory.md R64). -/
def byteLane (w : Word) (j : Nat) : Byte := w.extractLsb' (8 * j) 8

/-- The byte at byte offset `a` of the window, by its true value (20_memory.md R64): lane `a % 8` of the
location at the aligned offset below it. -/
def State.windowByte (s : State) (a : Nat) : Byte := byteLane (s.valueAt (locationAt (a - a % 8))) (a % 8)

end Sys2Proof.Machine
end

