-- ==== Sys2Proof/WellFormed.lean ====
section
/-! DEFINITION. What is well formed: a command, an access of the host, a value of the parameters. -/

namespace Sys2Proof

/-- A command has no operand (30_encoding.md R83), so each of the four is well formed. -/
def Instr.wellFormed : Instr → Bool
  | .map => true
  | .assemble => true
  | .synth => true
  | .run => true

/-- The only supported accesses move exactly 64 bits at a multiple of 8 below 0x8000 (20_memory.md R62). -/
def accessSupported (off size : Nat) : Bool :=
  decide (size = 8 ∧ off % 8 = 0 ∧ off < 0x8000)

/-- Whether the machine has a step for an input: the reset input always, an access if R62 supports it
(20_memory.md R63). -/
def BusInput.supported : BusInput → Bool
  | .read off size => accessSupported off size
  | .write off size _ => accessSupported off size
  | .reset => true

/-- LEVEL_OF_BITS draws its levels from LEVELS (40_mapper.md R100). -/
def Config.Params.levelsLegal (P : Config.Params) : Bool :=
  P.levelOfBits.toList.all fun l => [-7, -5, -3, -1, 1, 3, 5, 7].contains l

/-- 41_assembler.md R133: the data bins are distinct, the pilot bins are distinct and none is a data bin,
bin 0 is neither. -/
def Config.Params.binsLegal (P : Config.Params) : Bool :=
  decide (P.dataIndex.toList ++ P.pilotIndex.toList).Nodup &&
    !(P.dataIndex.toList ++ P.pilotIndex.toList).contains 0

/-- "A parameter value that breaks a constraint is not a configuration of OQM-CORE" (41_assembler.md R133). -/
def Config.Params.wellFormed (P : Config.Params) : Bool :=
  P.levelsLegal && P.binsLegal

end Sys2Proof
end

