-- ==== Sys2Proof/Machine/Agents.lean ====
section
/-! DEFINITION. What each agent does when it moves: the sequencer's completion step (43_sequencer.md R182), a
host access (20_memory.md R65, R66) and the platform's reset (70_reset_and_hazards.md R230, R234). -/

namespace Sys2Proof.Machine

/-- The completion step (43_sequencer.md R182): run the body of PEND, or the ILLEGAL body where the opcode map
does not list the word (R184). -/
def completion (s : State) : Host.Outcome State Fault Refusal :=
  match decode s.pend with
  | .ok i => exec i s
  | .error _ => .next (completeIllegal s.pend s)

/-- One host access has taken effect while BUSY, so one fewer comes before the completion step
(43_sequencer.md R181). Log 3. -/
def State.countAccess (s : State) : State :=
  if s.seq = .busy then { s with wait := s.wait - 1 } else s

/-- The platform's reset (70_reset_and_hazards.md R230, R234): a pending command is discarded, the registers
take their reset values, the buffers take fresh arbitrary contents (R232). What the host has read and what
comes next are outside the machine and stay, and so do the parameters it was built with. Log 13. -/
def State.platformReset (s : State) : State :=
  { State.resetAt s.draws with inputs := s.inputs, replies := s.replies, params := s.params }

/-- The effect of one supported input on a state from whose list it has been taken. -/
def State.takeInput (s : State) : BusInput → State
  | .read off _ =>
    { ((s.countAccess).hostRead off).2 with
      replies := ((s.countAccess).hostRead off).1 :: s.replies }
  | .write off _ v => (s.countAccess).hostWrite off v
  | .reset => s.platformReset

/-- An input's step: its effect, or a refusal where the interface does not support it (20_memory.md R63).
DESIGN CHOICE (safe, log 6): R63 makes only the host agent stuck, and the spec leaves open whether a platform
reset (70_reset_and_hazards.md R230) still takes effect then. The host and the platform share the list `inputs`,
so here the whole step is refused and a reset listed behind the access is never taken. -/
def inputStep (a : BusInput) (s : State) : Host.Outcome State Fault Refusal :=
  if a.supported then .next (s.takeInput a) else .refused .unsupportedAccess

/-- With nothing to come from outside: a pending command completes, and an IDLE machine "does nothing until a
host access or a reset" (60_exceptions.md R223). Log 4, 5. -/
def quietStep (s : State) : Host.Outcome State Fault Refusal :=
  match s.seq with
  | .busy => completion s
  | .idle => .next s

/-- With the input `a` next and `rest` after it: while BUSY the completion step comes when the latency has run
out (43_sequencer.md R181), and also when the host is stuck on an access that has no step (20_memory.md R63);
else the input is taken. Log 3, 6. -/
def contendedStep (a : BusInput) (rest : List BusInput) (s : State) : Host.Outcome State Fault Refusal :=
  if s.seq = .busy ∧ (s.wait = 0 ∨ a.supported = false) then completion s
  else inputStep a { s with inputs := rest }

/-- The step of the whole machine: one action of one agent (20_memory.md R70; 43_sequencer.md R181). -/
def agentStep (s : State) : Host.Outcome State Fault Refusal :=
  match s.inputs with
  | [] => quietStep s
  | a :: rest => contendedStep a rest s

/-- `s` with the word `v` accepted and its completion step next: the sequencer's PEND, SEQ and latency
(10_state.md R22, R47). Log 16. -/
def State.withPending (s : State) (v : Word) : State := { s with pend := v, seq := .busy, wait := 0 }

end Sys2Proof.Machine
end

