-- ==== Sys2Proof/Machine/Step.lean ====
section
/-! DEFINITION. One step of the machine, and the placing of a command word where the next step runs it. -/

namespace Sys2Proof.Machine

/-- One step: an action of the host, the platform or the sequencer (20_memory.md R70). -/
def step (s : State) : Host.Outcome State Fault Refusal := agentStep s

/-- `s` with the table word placed in PEND as an accepted command whose completion is the next step. OQM-CORE
has no program counter: SEQ and PEND take its place (10_state.md R22). Log 16. -/
def State.withFetchWord (s : State) (nbits w : Nat) : State := s.withPending (tableWord nbits w)

end Sys2Proof.Machine
end

