-- ==== Sys2Proof/Machine/HostProgram.lean ====
section
/-! DEFINITION. Host programs as lists of bus transactions (30_encoding.md R92 to R94). A host's own branches
are the host's: "OQM-CORE never sees it" (R93; log 21). -/

namespace Sys2Proof.Machine

/-- The offset of a location, the other direction of the address map (20_memory.md R61). A reserved location
has many; this one is 0x0080. -/
def offsetOf : Location → Nat
  | .id => 0x0000
  | .ctrl => 0x0008
  | .status => 0x0010
  | .cmd => 0x0018
  | .errinfo => 0x0020
  | .norm => 0x0028
  | .cpfrac => 0x0030
  | .pilotRe => 0x0038
  | .pilotIm => 0x0040
  | .bitlen => 0x0048
  | .symcnt => 0x0050
  | .freqlen => 0x0058
  | .outlen => 0x0060
  | .nfft => 0x0068
  | .ndata => 0x0070
  | .npilot => 0x0078
  | .pilotIdx p => 0x0100 + 8 * p.val
  | .dataIdx d => 0x0200 + 8 * d.val
  | .cromLev c => 0x0400 + 8 * c.val
  | .cromRe c => 0x0600 + 8 * c.val
  | .cromIm c => 0x0800 + 8 * c.val
  | .cromMag c => 0x0A00 + 8 * c.val
  | .cromPh c => 0x0C00 + 8 * c.val
  | .bitbuf p => 0x1000 + 8 * p.val
  | .symCode g => 0x2000 + 8 * g.val
  | .symRe g => 0x2200 + 8 * g.val
  | .symIm g => 0x2400 + 8 * g.val
  | .symMag g => 0x2600 + 8 * g.val
  | .symPh g => 0x2800 + 8 * g.val
  | .freqRe b => 0x3000 + 8 * b.val
  | .freqIm b => 0x3200 + 8 * b.val
  | .outRe n => 0x4000 + 8 * n.val
  | .outIm n => 0x4400 + 8 * n.val
  | .reserved => 0x0080

/-- `wr REG, value` (30_encoding.md R93): the line `W off data` of R92. -/
def wr (l : Location) (v : Word) : BusInput := .write (offsetOf l) 8 v

/-- `rd REG -> t` (30_encoding.md R93): the line `R off -> t` of R92. -/
def rd (l : Location) : BusInput := .read (offsetOf l) 8

/-- `cmd MAP` and its like (30_encoding.md R94). -/
def cmd (i : Instr) : BusInput := wr .cmd (encode i)

/-- `ack` (30_encoding.md R94): clear DONE and WRBUSY. -/
def ackStatus : BusInput := wr .status 0xA

/-- `n` reads of STATUS, one run of the polling loop `wait` (30_encoding.md R92, R94). -/
def poll (n : Nat) : List BusInput := List.replicate n (rd .status)

/-- The writes of the characters of a bit string to BITBUF from position p on, `true` for '1'
(30_encoding.md R94). -/
def characterWrites (p : Nat) : List Bool → List BusInput
  | [] => []
  | b :: rest => .write (0x1000 + 8 * p) 8 (if b then 0x31 else 0x30) :: characterWrites (p + 1) rest

/-- `loadbits "s"` (30_encoding.md R94): BITLEN, then the characters in order. -/
def loadbits (bits : List Bool) : List BusInput :=
  wr .bitlen (BitVec.ofNat 64 bits.length) :: characterWrites 0 bits

/-- `fill BUF[a..b], v` in ascending index (30_encoding.md R94), the entries given as locations. -/
def fill (entries : List Location) (v : Word) : List BusInput := entries.map fun l => wr l v

end Sys2Proof.Machine
end

