-- ==== Sys2Proof/Machine/Reference.lean ====
section
/-! DEFINITION. The exact reference values the spec speaks of (00_scope.md R10, R13): what real number a
binary64 denotes, correct rounding, the exact constellation point, and the reference transform with its
accuracy bound (42_synthesizer.md R150 to R152), over the real numbers. The step computes the same values exactly
with `Sys2Proof.Machine.Surd`; these say what a stored or computed binary64 is compared with. -/

namespace Sys2Proof.Machine

/-- `b` is RN(x): the binary64 nearest to x, ties to even, +0.0 for x = 0 (00_scope.md R10), for an x in the
range of the finite values. -/
def IsRN (b : Word) (x : ℝ) : Prop :=
  f64Finite b = true ∧
  (∀ b', f64Finite b' = true → |(f64Value b : ℝ) - x| ≤ |(f64Value b' : ℝ) - x|) ∧
  (∀ b', f64Finite b' = true → f64Value b' ≠ f64Value b →
    |(f64Value b : ℝ) - x| = |(f64Value b' : ℝ) - x| → b.getLsbD 0 = false) ∧
  (x = 0 → b = 0)

/-- The integer nearest to x, a tie going to the even one. -/
noncomputable def roundHalfEven (x : ℝ) : ℤ :=
  if Int.fract x < 1 / 2 then ⌊x⌋
  else if 1 / 2 < Int.fract x then ⌊x⌋ + 1
  else if ⌊x⌋ % 2 = 0 then ⌊x⌋
  else ⌊x⌋ + 1

/-- The exponent of the last place of the binary64 values near a nonzero x of magnitude below 2^1024. -/
noncomputable def lastPlaceOf (x : ℝ) : ℤ := max (Int.log 2 |x| - 52) (-1074)

/-- RN(x) (00_scope.md R10): the magnitude rounded to a multiple of its last place, ties to even, with the sign of
x in bit 63; +0.0 for x = 0. A significand that rounds up to 2^53 carries into the exponent field. For x in the
range of the finite values. -/
noncomputable def roundToBinary64 (x : ℝ) : Word :=
  if x = 0 then 0
  else
    withSign (decide (x < 0)) (BitVec.ofInt 64
      ((lastPlaceOf x + 1074) * 2 ^ 52 + roundHalfEven (|x| / (2 : ℝ) ^ lastPlaceOf x)))

/-- K = 1/sqrt(42) in exact arithmetic (40_mapper.md R103). -/
noncomputable def scaleK : ℝ := 1 / √42

/-- The exact point K * (ILEV + j * QLEV) of a code under the default level map (40_mapper.md R104). -/
noncomputable def exactPoint (c : BitVec 6) : ℂ := ⟨scaleK * (rom c).ilev, scaleK * (rom c).qlev⟩

/-- The scale s of NORM.POLICY (42_synthesizer.md R151). -/
noncomputable def refScale (policy : BitVec 1) : ℝ := if policy = 0 then 1 else √(64 / 48)

/-- y_ref[n], the reference transform, evaluated exactly (42_synthesizer.md R150). -/
noncomputable def refSample (s : ℝ) (X : Fin 64 → ℂ) (n : Fin 64) : ℂ :=
  s * (1 / 64) * ∑ k : Fin 64, X k * Complex.exp (Complex.I * (2 * Real.pi * k.val * n.val / 64 : ℝ))

/-- The bound B = s * (1/64) * sum of |Re X[k]| + |Im X[k]| (42_synthesizer.md R152). -/
noncomputable def refBound (s : ℝ) (X : Fin 64 → ℂ) : ℝ :=
  s * (1 / 64) * ∑ k : Fin 64, (|(X k).re| + |(X k).im|)

/-- The complex numbers that a vector of 64 finite pairs holds (42_synthesizer.md R150). -/
noncomputable def complexOf (X : Config.Samples) (k : Fin 64) : ℂ :=
  ⟨(f64Value (X[k]).1 : ℝ), (f64Value (X[k]).2 : ℝ)⟩

/-- Every component is finite with magnitude at most 2^1000, the premise of R152's accuracy condition. -/
def Moderate (X : Config.Samples) : Prop :=
  ∀ k : Fin 64, f64Finite (X[k]).1 = true ∧ |f64Value (X[k]).1| ≤ 2 ^ 1000 ∧
    f64Finite (X[k]).2 = true ∧ |f64Value (X[k]).2| ≤ 2 ^ 1000

/-- The block Y meets the bounds of R152's accuracy condition for the input X. -/
def AccurateBlock (Y : Config.Samples) (eps : ℝ) (X : Config.Samples) (policy : BitVec 1) : Prop :=
  ∀ n : Fin 64,
    f64Finite (Y[n]).1 = true ∧ f64Finite (Y[n]).2 = true ∧
    |(f64Value (Y[n]).1 : ℝ) - (refSample (refScale policy) (complexOf X) n).re| ≤
      eps * refBound (refScale policy) (complexOf X) ∧
    |(f64Value (Y[n]).2 : ℝ) - (refSample (refScale policy) (complexOf X) n).im| ≤
      eps * refBound (refScale policy) (complexOf X)

/-- The numerics `impl` meet the accuracy condition of 42_synthesizer.md R152 on the input X. -/
def SynthAccurateAt (impl : Config.SynthImpl) (eps : ℝ) (X : Config.Samples) (policy : BitVec 1) : Prop :=
  Moderate X → AccurateBlock (impl X policy) eps X policy

/-- The range of the OPEN parameter SYNTH_EPS (42_synthesizer.md R152). Log 8. -/
def SynthEpsLegal (eps : ℝ) : Prop := 1 / 2 ^ 53 ≤ eps ∧ eps ≤ 1 / 10 ^ 9

/-- Some finite binary64 lies within eps * B of y, so the bound of 42_synthesizer.md R152 can be met there. -/
def PartReachable (eps y B : ℝ) : Prop := ∃ v, f64Finite v = true ∧ |(f64Value v : ℝ) - y| ≤ eps * B

/-- What 42_synthesizer.md R152 asks of one part v of a sample with reference y: it is finite, and within eps * B
of y. DEDUCED: the bound is asked wherever any binary64 meets it, since R152 asks it of every part, which no
function can give (log 7). -/
def PartLawful (v : Word) (eps y B : ℝ) : Prop :=
  f64Finite v = true ∧ (PartReachable eps y B → |(f64Value v : ℝ) - y| ≤ eps * B)

/-- Both parts of every sample of the block Y obey the law for the input X. -/
def LawfulBlock (Y : Config.Samples) (eps : ℝ) (X : Config.Samples) (policy : BitVec 1) : Prop :=
  ∀ n : Fin 64,
    PartLawful (Y[n]).1 eps (refSample (refScale policy) (complexOf X) n).re
      (refBound (refScale policy) (complexOf X)) ∧
    PartLawful (Y[n]).2 eps (refSample (refScale policy) (complexOf X) n).im
      (refBound (refScale policy) (complexOf X))

/-- The law of the parameters SYNTH_IMPL and SYNTH_EPS (42_synthesizer.md R152): SYNTH_EPS is in its range, and on
every moderate input every part of the output is finite and, where any binary64 is, within the bound. Determinism
and totality hold by the type of SYNTH_IMPL. -/
def SynthAdmissible (impl : Config.SynthImpl) (eps : ℝ) : Prop :=
  SynthEpsLegal eps ∧ ∀ X policy, Moderate X → LawfulBlock (impl X policy) eps X policy

/-- SYNTH_REF, the correctly rounded reference (42_synthesizer.md R152). -/
noncomputable def synthRef (X : Config.Samples) (policy : BitVec 1) : Config.Samples :=
  Vector.ofFn fun n =>
    (roundToBinary64 (refSample (refScale policy) (complexOf X) n).re,
      roundToBinary64 (refSample (refScale policy) (complexOf X) n).im)

/-- The accuracy condition of R152 read literally: on every input. No numerics meet it (log 7), so no statement
takes it as a premise. -/
def SynthAccurateEverywhere (impl : Config.SynthImpl) (eps : ℝ) : Prop :=
  ∀ X policy, SynthAccurateAt impl eps X policy

/-- The subcarrier vector whose bin 0 is the smallest positive binary64, 2^-1074, and every other part +0.0. -/
def smallestSpectrum : Config.Samples := Vector.ofFn fun k => (if k.val = 0 then 1 else 0, 0)

end Sys2Proof.Machine
end

