-- ==== Sys2Proof/Safety.lean ====
section
/-! DEFINITION. The terms the claims are stated in: what a legal error record is, the invariant of a run, what
a loaded bit string is, what a command may write, and when two states agree on a command's inputs. -/

namespace Sys2Proof.Machine

/-- The bit string MAP and RUN accept: 288 characters, each 0x30 or 0x31 (40_mapper.md R109). -/
def BitsLoaded (s : State) : Prop :=
  s.bitlen = 288 ∧ ∀ p : Fin 288, s.bitbuf[p] = 0x30 ∨ s.bitbuf[p] = 0x31

/-- A prefix fraction inside (0, 1) (42_synthesizer.md R154). -/
def FractionInside (s : State) : Prop := 1 ≤ s.cpfrac.toInt ∧ s.cpfrac.toInt ≤ 65535

/-- The command `op` raises the error `e`, and `e` reports a true cause (60_exceptions.md R201, columns
"raised by" and "cause"). -/
def CommandError.RaisedBy (op : Byte) : CommandError → Prop
  | .invalidLength n => n ≠ 288 ∧ (op = 0x01 ∨ op = 0x04)
  | .invalidSymbol ch p => ch ≠ 0x30 ∧ ch ≠ 0x31 ∧ p < 288 ∧ (op = 0x01 ∨ op = 0x04)
  | .cardinality m => m ≠ 48 ∧ op = 0x02
  | .prefixFraction f => ¬(1 ≤ f.toInt ∧ f.toInt ≤ 65535) ∧ (op = 0x03 ∨ op = 0x04)
  | .vectorLength m => m ≠ 64 ∧ op = 0x03
  | .illegalCommand v => v ≠ 1 ∧ v ≠ 2 ∧ v ≠ 3 ∧ v ≠ 4 ∧ op = v.setWidth 8

/-- ERRCODE, ERRSUB, ERRINFO and LASTOP hold a row of the table of 60_exceptions.md R201; in particular
ERRCODE is 0..5, ERRSUB 0..2, and ERRINFO is 0 without an error (10_state.md R25, R28). -/
def ErrorRecordLegal (s : State) : Prop :=
  (s.errcode = 0 ∧ s.errsub = 0 ∧ s.errinfo = 0) ∨
  ∃ e : CommandError, e.RaisedBy s.lastop ∧ s.errcode = e.code ∧ s.errsub = e.sub ∧ s.errinfo = e.info

/-- The invariant of a run: a legal error record (R201), no DONE and no error from acceptance until completion
(43_sequencer.md R180; 10_state.md R28), OUTLEN 0 or 64..127 (10_state.md R42), and parameters that are a
configuration of OQM-CORE (41_assembler.md R133). -/
structure RunInvariant (s : State) : Prop where
  record : ErrorRecordLegal s
  busy : s.seq = .busy → s.done = false ∧ s.errcode = 0
  params : s.params.wellFormed = true
  outlen : s.outlen = 0 ∨ (64 ≤ s.outlen.toNat ∧ s.outlen.toNat ≤ 127)

/-- Whether the command `i`, started with the fraction `cpfrac`, may change what the host reads at a location:
its row of 30_encoding.md R83 ("writes on success"), and STATUS and ERRINFO. -/
def mayWrite (i : Instr) (cpfrac : Word) : Location → Bool
  | .status | .errinfo => true
  | .symCode _ | .symRe _ | .symIm _ | .symMag _ | .symPh _ | .symcnt => i == .map || i == .run
  | .freqRe _ | .freqIm _ | .freqlen => i == .assemble || i == .run
  | .outRe n | .outIm n => (i == .synth || i == .run) && decide (n.val < 64 + (cpLen cpfrac).val)
  | .outlen => i == .synth || i == .run
  | .id | .ctrl | .cmd | .norm | .cpfrac | .pilotRe | .pilotIm | .bitlen => false
  | .nfft | .ndata | .npilot | .pilotIdx _ | .dataIdx _ | .bitbuf _ => false
  | .cromLev _ | .cromRe _ | .cromIm _ | .cromMag _ | .cromPh _ | .reserved => false

/-- Two states agree on what MAP reads (30_encoding.md R83), the ROM by its level map. -/
def SameMapInputs (s t : State) : Prop :=
  s.bitlen = t.bitlen ∧ s.bitbuf = t.bitbuf ∧ s.params.levelOfBits = t.params.levelOfBits

/-- Two states agree on what ASSEMBLE reads (30_encoding.md R83), the index tables by the parameters. -/
def SameAssembleInputs (s t : State) : Prop :=
  s.symcnt = t.symcnt ∧ s.symRe = t.symRe ∧ s.symIm = t.symIm ∧ s.pilotRe = t.pilotRe ∧ s.pilotIm = t.pilotIm ∧
    s.params.dataIndex = t.params.dataIndex ∧ s.params.pilotIndex = t.params.pilotIndex

/-- Two states agree on what SYNTH reads (30_encoding.md R83). -/
def SameSynthInputs (s t : State) : Prop :=
  s.cpfrac = t.cpfrac ∧ s.freqlen = t.freqlen ∧ s.freqRe = t.freqRe ∧ s.freqIm = t.freqIm ∧
    s.policy = t.policy

/-- Two states agree on what RUN reads (43_sequencer.md R183, "Inputs"). -/
def SameRunInputs (s t : State) : Prop :=
  SameMapInputs s t ∧ s.pilotRe = t.pilotRe ∧ s.pilotIm = t.pilotIm ∧ s.cpfrac = t.cpfrac ∧
    s.policy = t.policy ∧ s.params.dataIndex = t.params.dataIndex ∧ s.params.pilotIndex = t.params.pilotIndex

/-- The completion step is the next action: BUSY, and the latency has run out, or nothing comes from outside,
or the host is stuck (43_sequencer.md R181; 20_memory.md R63). -/
def CompletionNext (s : State) : Prop :=
  s.seq = .busy ∧
    (s.wait = 0 ∨ s.inputs = [] ∨ ∃ a rest, s.inputs = a :: rest ∧ a.supported = false)

/-- The states agree but for the model's bookkeeping of the interleaving (inputs still to come, replies, the
latency countdown, the draw counter) and STATUS.WRBUSY, which dropped writes set (60_exceptions.md R208). -/
def SameMachine (s t : State) : Prop :=
  t = { s with inputs := t.inputs, replies := t.replies, wait := t.wait, draws := t.draws, wrbusy := t.wrbusy }

/-- A location whose value nothing ever changes (20_memory.md R76, R61). -/
def isConstant : Location → Bool
  | .id | .nfft | .ndata | .npilot | .pilotIdx _ | .dataIdx _ => true
  | .cromLev _ | .cromRe _ | .cromIm _ | .cromMag _ | .cromPh _ => true
  | .cmd | .reserved => true
  | .ctrl | .status | .errinfo | .norm | .cpfrac | .pilotRe | .pilotIm => false
  | .bitlen | .symcnt | .freqlen | .outlen | .bitbuf _ => false
  | .symCode _ | .symRe _ | .symIm _ | .symMag _ | .symPh _ => false
  | .freqRe _ | .freqIm _ | .outRe _ | .outIm _ => false

/-- The character at position p is not binary (30_encoding.md R87). -/
def BadSymbolAt (s : State) (p : Fin 288) : Prop := s.bitbuf[p] ≠ 0x30 ∧ s.bitbuf[p] ≠ 0x31

/-- `t` is `s` after a completion that wrote the error record, LASTOP, DONE and SEQ and nothing else of the
machine (60_exceptions.md R210); `wait` is the model's latency countdown, which ends with the command. -/
def OnlyStatusWritten (s t : State) (op : Byte) (code sub : BitVec 4) (info : Word) : Prop :=
  t = { s with
    errcode := code, errsub := sub, errinfo := info, lastop := op, done := true, seq := .idle, wait := 0 }

/-- The bins data symbols go to (41_assembler.md R131). -/
def IsDataBin (P : Config.Params) (b : Fin 64) : Prop := ∃ d : Fin 48, P.dataIndex[d] = b
/-- The bins pilots go to (41_assembler.md R130). -/
def IsPilotBin (P : Config.Params) (b : Fin 64) : Prop := ∃ p : Fin 4, P.pilotIndex[p] = b

/-- A bin that holds a nonzero complex value: one part is a binary64 other than +0.0 and -0.0
(41_assembler.md R137). -/
def binNonzero (s : State) (b : Fin 64) : Bool := !(f64Zero s.freqRe[b] && f64Zero s.freqIm[b])

/-- No platform reset is among the inputs to come. -/
def NoReset (s : State) : Prop := ∀ a ∈ s.inputs, a ≠ .reset

/-- A read-only or reserved location: a host write to it while IDLE has no effect (20_memory.md R61, R66). -/
def isReadOnly : Location → Bool
  | .id | .errinfo | .outlen | .nfft | .ndata | .npilot | .pilotIdx _ | .dataIdx _ => true
  | .cromLev _ | .cromRe _ | .cromIm _ | .cromMag _ | .cromPh _ => true
  | .outRe _ | .outIm _ | .reserved => true
  | .ctrl | .status | .cmd | .norm | .cpfrac | .pilotRe | .pilotIm => false
  | .bitlen | .symcnt | .freqlen | .bitbuf _ => false
  | .symCode _ | .symRe _ | .symIm _ | .symMag _ | .symPh _ => false
  | .freqRe _ | .freqIm _ => false

/-- What `t` shows at the output buffer is a block within `eps` * B of the reference transform of the subcarrier
vector of `s` (42_synthesizer.md R150 to R152), finite in every part. -/
def BlockWithinBound (eps : ℝ) (s t : State) : Prop :=
  ∀ (n : Fin 127) (k : Fin 64), n.val = (cpLen s.cpfrac).val + k.val →
    f64Finite t.outRe[n] = true ∧ f64Finite t.outIm[n] = true ∧
    |(f64Value t.outRe[n] : ℝ) - (refSample (refScale s.policy) (complexOf (subcarrierVector s)) k).re| ≤
      eps * refBound (refScale s.policy) (complexOf (subcarrierVector s)) ∧
    |(f64Value t.outIm[n] : ℝ) - (refSample (refScale s.policy) (complexOf (subcarrierVector s)) k).im| ≤
      eps * refBound (refScale s.policy) (complexOf (subcarrierVector s))

/-- The block in the output buffer of `t` obeys the law of 42_synthesizer.md R152 for the subcarrier vector and the
policy of `t`: every part is finite, and within `eps` * B of the reference wherever any binary64 is. -/
def OutputLawful (eps : ℝ) (t : State) : Prop :=
  ∀ (n : Fin 127) (k : Fin 64), n.val = (cpLen t.cpfrac).val + k.val →
    PartLawful t.outRe[n] eps (refSample (refScale t.policy) (complexOf (subcarrierVector t)) k).re
      (refBound (refScale t.policy) (complexOf (subcarrierVector t))) ∧
    PartLawful t.outIm[n] eps (refSample (refScale t.policy) (complexOf (subcarrierVector t)) k).im
      (refBound (refScale t.policy) (complexOf (subcarrierVector t)))

/-- The thirteen reserved ranges of 20_memory.md R61. -/
abbrev ReservedOffset (off : Nat) : Prop :=
  (0x0080 ≤ off ∧ off ≤ 0x00FF) ∨ (0x0120 ≤ off ∧ off ≤ 0x01FF) ∨ (0x0380 ≤ off ∧ off ≤ 0x03FF) ∨
  (0x0E00 ≤ off ∧ off ≤ 0x0FFF) ∨ (0x1900 ≤ off ∧ off ≤ 0x1FFF) ∨ (0x2180 ≤ off ∧ off ≤ 0x21FF) ∨
  (0x2380 ≤ off ∧ off ≤ 0x23FF) ∨ (0x2580 ≤ off ∧ off ≤ 0x25FF) ∨ (0x2780 ≤ off ∧ off ≤ 0x27FF) ∨
  (0x2980 ≤ off ∧ off ≤ 0x2FFF) ∨ (0x3400 ≤ off ∧ off ≤ 0x3FFF) ∨ (0x43F8 ≤ off ∧ off ≤ 0x43FF) ∨
  (0x47F8 ≤ off ∧ off ≤ 0x7FFF)

/-- The set VOLATILE of 20_memory.md R65, at the offsets of R61: ERRINFO, BITLEN, SYMCNT, FREQLEN, OUTLEN; BITBUF;
SYM_CODE, SYM_RE, SYM_IM, SYM_MAG, SYM_PH; FREQ_RE, FREQ_IM; OUT_RE, OUT_IM. -/
abbrev VolatileOffset (off : Nat) : Prop :=
  off = 0x0020 ∨ off = 0x0048 ∨ off = 0x0050 ∨ off = 0x0058 ∨ off = 0x0060 ∨
  (0x1000 ≤ off ∧ off ≤ 0x18FF) ∨
  (0x2000 ≤ off ∧ off ≤ 0x217F) ∨ (0x2200 ≤ off ∧ off ≤ 0x237F) ∨ (0x2400 ≤ off ∧ off ≤ 0x257F) ∨
  (0x2600 ≤ off ∧ off ≤ 0x277F) ∨ (0x2800 ≤ off ∧ off ≤ 0x297F) ∨
  (0x3000 ≤ off ∧ off ≤ 0x31FF) ∨ (0x3200 ≤ off ∧ off ≤ 0x33FF) ∨
  (0x4000 ≤ off ∧ off ≤ 0x43F7) ∨ (0x4400 ≤ off ∧ off ≤ 0x47F7)

/-- A reserved offset reads as 0 (20_memory.md R61, R65). -/
def ReservedReadsZero (s : State) : Prop := ∀ off, ReservedOffset off → s.valueAt (locationAt off) = 0

/-- What a host reads at the single registers, at their literal offsets (20_memory.md R61, R65). -/
def RegistersReadTheirState (s : State) : Prop :=
  s.valueAt (locationAt 0x0000) = 0x4F514D4300010007 ∧
  s.valueAt (locationAt 0x0008) = (if s.ie then 1 else 0) ∧
  s.valueAt (locationAt 0x0010) = s.statusWord ∧
  s.valueAt (locationAt 0x0018) = 0 ∧
  s.valueAt (locationAt 0x0020) = s.errinfo ∧
  s.valueAt (locationAt 0x0028) = s.policy.setWidth 64 ∧
  s.valueAt (locationAt 0x0030) = s.cpfrac ∧
  s.valueAt (locationAt 0x0038) = s.pilotRe ∧
  s.valueAt (locationAt 0x0040) = s.pilotIm ∧
  s.valueAt (locationAt 0x0048) = s.bitlen.setWidth 64 ∧
  s.valueAt (locationAt 0x0050) = s.symcnt.setWidth 64 ∧
  s.valueAt (locationAt 0x0058) = s.freqlen.setWidth 64 ∧
  s.valueAt (locationAt 0x0060) = s.outlen.setWidth 64 ∧
  s.valueAt (locationAt 0x0068) = 64 ∧
  s.valueAt (locationAt 0x0070) = 48 ∧
  s.valueAt (locationAt 0x0078) = 4

/-- What a host reads at the index tables and the constellation ROM (20_memory.md R61, R65; 30_encoding.md R89):
CROM_LEV[c] holds two 4-bit two's-complement fields, QLEV above ILEV. -/
def TablesReadTheParameters (s : State) : Prop :=
  (∀ p : Fin 4, (s.valueAt (locationAt (0x0100 + 8 * p.val))).toNat = (s.params.pilotIndex[p]).val) ∧
  (∀ d : Fin 48, (s.valueAt (locationAt (0x0200 + 8 * d.val))).toNat = (s.params.dataIndex[d]).val) ∧
  (s.params.levelsLegal = true → ∀ c : Fin 64,
    ((s.valueAt (locationAt (0x0400 + 8 * c.val))).extractLsb' 0 4).toInt =
      levelOf s.params.levelOfBits (inPhase (BitVec.ofNat 6 c.val)) ∧
    ((s.valueAt (locationAt (0x0400 + 8 * c.val))).extractLsb' 4 4).toInt =
      levelOf s.params.levelOfBits (quadrature (BitVec.ofNat 6 c.val))) ∧
  ∀ c : Fin 64,
    (s.valueAt (locationAt (0x0400 + 8 * c.val))).extractLsb' 8 56 = 0 ∧
    s.valueAt (locationAt (0x0600 + 8 * c.val)) = (s.rom (BitVec.ofNat 6 c.val)).re ∧
    s.valueAt (locationAt (0x0800 + 8 * c.val)) = (s.rom (BitVec.ofNat 6 c.val)).im ∧
    s.valueAt (locationAt (0x0A00 + 8 * c.val)) = (s.rom (BitVec.ofNat 6 c.val)).mag ∧
    s.valueAt (locationAt (0x0C00 + 8 * c.val)) = (s.rom (BitVec.ofNat 6 c.val)).ph

/-- What a host reads at the buffers, at their literal offsets (20_memory.md R61, R65). -/
def BuffersReadTheirCells (s : State) : Prop :=
  (∀ p : Fin 288, s.valueAt (locationAt (0x1000 + 8 * p.val)) = (s.bitbuf[p]).setWidth 64) ∧
  (∀ g : Fin 48,
    s.valueAt (locationAt (0x2000 + 8 * g.val)) = (s.symCode[g]).setWidth 64 ∧
    s.valueAt (locationAt (0x2200 + 8 * g.val)) = s.symRe[g] ∧
    s.valueAt (locationAt (0x2400 + 8 * g.val)) = s.symIm[g] ∧
    s.valueAt (locationAt (0x2600 + 8 * g.val)) = s.symMag[g] ∧
    s.valueAt (locationAt (0x2800 + 8 * g.val)) = s.symPh[g]) ∧
  (∀ b : Fin 64,
    s.valueAt (locationAt (0x3000 + 8 * b.val)) = s.freqRe[b] ∧
    s.valueAt (locationAt (0x3200 + 8 * b.val)) = s.freqIm[b]) ∧
  ∀ n : Fin 127,
    s.valueAt (locationAt (0x4000 + 8 * n.val)) = s.outRe[n] ∧
    s.valueAt (locationAt (0x4400 + 8 * n.val)) = s.outIm[n]

/-- The step of an IDLE machine whose next input writes `v` at the offset `off`, with nothing known of what follows
but `rest`, answers `t`. -/
def IdleWriteGives (s : State) (off : Nat) (v : Word) (rest : List BusInput) (t : State) : Prop :=
  s.inputs = .write off 8 v :: rest → step s = .next t

/-- What an IDLE machine's step does with a write to each writable register other than STATUS and CMD, at its
literal offset: the writable field takes its bits of `v` and no other field changes (20_memory.md R66). -/
def RegisterWritesTakeEffect (s : State) (v : Word) (rest : List BusInput) : Prop :=
  IdleWriteGives s 0x0008 v rest { s with inputs := rest, ie := v.getLsbD 0 } ∧
  IdleWriteGives s 0x0028 v rest { s with inputs := rest, policy := v.extractLsb' 0 1 } ∧
  IdleWriteGives s 0x0030 v rest { s with inputs := rest, cpfrac := v } ∧
  IdleWriteGives s 0x0038 v rest { s with inputs := rest, pilotRe := v } ∧
  IdleWriteGives s 0x0040 v rest { s with inputs := rest, pilotIm := v } ∧
  IdleWriteGives s 0x0048 v rest { s with inputs := rest, bitlen := v.extractLsb' 0 16 } ∧
  IdleWriteGives s 0x0050 v rest { s with inputs := rest, symcnt := v.extractLsb' 0 16 } ∧
  IdleWriteGives s 0x0058 v rest { s with inputs := rest, freqlen := v.extractLsb' 0 16 }

/-- The same for each writable buffer: one cell takes its bits of `v` (20_memory.md R66). -/
def BufferWritesTakeEffect (s : State) (v : Word) (rest : List BusInput) : Prop :=
  (∀ p : Fin 288, IdleWriteGives s (0x1000 + 8 * p.val) v rest
    { s with inputs := rest, bitbuf := s.bitbuf.set p.val (v.extractLsb' 0 8) }) ∧
  (∀ g : Fin 48,
    IdleWriteGives s (0x2000 + 8 * g.val) v rest
      { s with inputs := rest, symCode := s.symCode.set g.val (v.extractLsb' 0 6) } ∧
    IdleWriteGives s (0x2200 + 8 * g.val) v rest { s with inputs := rest, symRe := s.symRe.set g.val v } ∧
    IdleWriteGives s (0x2400 + 8 * g.val) v rest { s with inputs := rest, symIm := s.symIm.set g.val v } ∧
    IdleWriteGives s (0x2600 + 8 * g.val) v rest { s with inputs := rest, symMag := s.symMag.set g.val v } ∧
    IdleWriteGives s (0x2800 + 8 * g.val) v rest { s with inputs := rest, symPh := s.symPh.set g.val v }) ∧
  ∀ b : Fin 64,
    IdleWriteGives s (0x3000 + 8 * b.val) v rest { s with inputs := rest, freqRe := s.freqRe.set b.val v } ∧
    IdleWriteGives s (0x3200 + 8 * b.val) v rest { s with inputs := rest, freqIm := s.freqIm.set b.val v }

end Sys2Proof.Machine
end

