-- ==== Sys2Proof/Certificates/Slice0/Obligations.lean ====
section
/-! DEFINITION. The statements about OQM-CORE, each a Prop: what a command does, what it leaves alone, what an
error records, how the host, the sequencer and the reset move the machine, and the reference values. -/

open Sys2Proof Sys2Proof.Machine

/-! ### MAP -/

/-- On 288 binary characters MAP completes, writes 48 records that are copies of ROM entries, and writes
nothing else (40_mapper.md R109, R111, R112). -/
def Obligations.MapSucceedsOnBinaryString : Prop :=
  ∀ s : State, BitsLoaded s → ∃ t, exec .map s = .next t ∧
    (∀ g : Fin 48, t.symRe[g] = (s.rom t.symCode[g]).re ∧ t.symIm[g] = (s.rom t.symCode[g]).im ∧
      t.symMag[g] = (s.rom t.symCode[g]).mag ∧ t.symPh[g] = (s.rom t.symCode[g]).ph) ∧
    t = { s with
      symCode := t.symCode, symRe := t.symRe, symIm := t.symIm, symMag := t.symMag, symPh := t.symPh
      symcnt := 48
      errcode := 0, errsub := 0, errinfo := 0, lastop := 0x01, done := true, seq := .idle, wait := 0 }

/-- The code MAP writes for group g is characters 6g..6g+5 with the first character most significant, and its
halves come from the first and the last three characters (40_mapper.md R110). -/
def Obligations.MapCodeFirstCharacterMostSignificant : Prop :=
  ∀ s : State, BitsLoaded s → ∃ t, exec .map s = .next t ∧ ∀ g : Fin 48,
    (∀ j : Fin 6, (t.symCode[g]).getLsbD (5 - j.val) = decide (s.bitbuf[6 * g.val + j.val] = 0x31)) ∧
    (∀ j : Fin 3, (inPhase t.symCode[g]).getLsbD (2 - j.val) =
      decide (s.bitbuf[6 * g.val + j.val] = 0x31)) ∧
    (∀ j : Fin 3, (quadrature t.symCode[g]).getLsbD (2 - j.val) =
      decide (s.bitbuf[6 * g.val + 3 + j.val] = 0x31))

/-- MAP and RUN raise InvalidLength when BITLEN is not 288, whatever the characters are (60_exceptions.md
R202). -/
def Obligations.WrongLengthRaisesInvalidLength : Prop :=
  ∀ s : State, s.bitlen ≠ 288 → ∃ t u, exec .map s = .next t ∧ exec .run s = .next u ∧
    OnlyStatusWritten s t 0x01 1 0 ((288 : BitVec 32) ++ s.bitlen.setWidth 32) ∧
    OnlyStatusWritten s u 0x04 1 0 ((288 : BitVec 32) ++ s.bitlen.setWidth 32)

/-- MAP and RUN raise InvalidSymbol when BITLEN is 288 and some character is not binary; ERRINFO names the
lowest such position and its character (60_exceptions.md R203). -/
def Obligations.BadCharacterRaisesInvalidSymbol : Prop :=
  ∀ s : State, s.bitlen = 288 → (∃ p, BadSymbolAt s p) →
    ∃ p : Fin 288, BadSymbolAt s p ∧ (∀ q : Fin 288, q < p → ¬BadSymbolAt s q) ∧
      ∃ t u, exec .map s = .next t ∧ exec .run s = .next u ∧
        OnlyStatusWritten s t 0x01 2 0 ((s.bitbuf[p]).setWidth 32 ++ BitVec.ofNat 32 p.val) ∧
        OnlyStatusWritten s u 0x04 2 0 ((s.bitbuf[p]).setWidth 32 ++ BitVec.ofNat 32 p.val)

/-! ### ASSEMBLE -/

/-- With 48 symbols ASSEMBLE completes: every data bin is a copy of its symbol, every pilot bin a copy of the
pilot, every null bin +0.0, and nothing else is written (41_assembler.md R134 to R136). The index sets are any
that R133 allows. -/
def Obligations.AssembleSucceedsOnFortyEightSymbols : Prop :=
  ∀ s : State, s.params.binsLegal = true → s.symcnt = 48 → ∃ t, exec .assemble s = .next t ∧
    (∀ d : Fin 48, t.freqRe[s.params.dataIndex[d]] = s.symRe[d] ∧
      t.freqIm[s.params.dataIndex[d]] = s.symIm[d]) ∧
    (∀ p : Fin 4, t.freqRe[s.params.pilotIndex[p]] = s.pilotRe ∧
      t.freqIm[s.params.pilotIndex[p]] = s.pilotIm) ∧
    (∀ b : Fin 64, ¬IsDataBin s.params b → ¬IsPilotBin s.params b → t.freqRe[b] = 0 ∧ t.freqIm[b] = 0) ∧
    t = { s with
      freqRe := t.freqRe, freqIm := t.freqIm, freqlen := 64
      errcode := 0, errsub := 0, errinfo := 0, lastop := 0x02, done := true, seq := .idle, wait := 0 }

/-- The multiplexer, one part of the vector at a time, under any index sets that R133 allows (41_assembler.md R133,
R134). -/
def Obligations.AssembledBinsUnderLegalIndexSets : Prop :=
  ∀ (P : Config.Params) (sym : Vector Word 48) (pilot : Word), P.binsLegal = true →
    (∀ d : Fin 48, (assembledBins P sym pilot)[P.dataIndex[d]] = sym[d]) ∧
    (∀ p : Fin 4, (assembledBins P sym pilot)[P.pilotIndex[p]] = pilot) ∧
    (∀ b : Fin 64, ¬IsDataBin P b → ¬IsPilotBin P b → (assembledBins P sym pilot)[b] = 0) ∧
    (assembledBins P sym pilot)[(0 : Fin 64)] = 0

/-- ASSEMBLE raises Cardinality when SYMCNT is not 48, and RUN never does (60_exceptions.md R204). -/
def Obligations.WrongCountRaisesCardinality : Prop :=
  (∀ s : State, s.symcnt ≠ 48 → ∃ t, exec .assemble s = .next t ∧
    OnlyStatusWritten s t 0x02 3 0 ((48 : BitVec 32) ++ s.symcnt.setWidth 32)) ∧
  (∀ s t : State, exec .run s = .next t → t.errcode ≠ 3)

/-- With symbols from the ROM and a nonzero pilot, exactly the 48 data bins and the 4 pilot bins are nonzero
after ASSEMBLE, 52 in all (41_assembler.md R137; 90_conflicts.md C2). -/
def Obligations.AssembledVectorHasFiftyTwoNonzeroBins : Prop :=
  ∀ s : State, s.params.wellFormed = true → s.symcnt = 48 →
    (∀ d : Fin 48, ∃ c : BitVec 6, s.symRe[d] = (s.rom c).re ∧ s.symIm[d] = (s.rom c).im) →
    (f64Zero s.pilotRe = false ∨ f64Zero s.pilotIm = false) →
    ∃ t, exec .assemble s = .next t ∧
      (∀ b : Fin 64, binNonzero t b = true ↔ IsDataBin s.params b ∨ IsPilotBin s.params b) ∧
      ((List.finRange 64).filter (binNonzero t)).length = 52

/-- The default index sets: the two lists in their order (41_assembler.md R130, R131), so that the vector has symbol 0
in bin 1, symbol 23 in bin 26, symbol 24 in bin 38 and symbol 47 in bin 63 (R138). They are legal, each bin is in
exactly one of the three sets, and the null set is bin 0 and bins 27..37 (R132, R133). The reset state has them
(`ResetRegisterValues`; log 9). -/
def Obligations.DefaultIndexSetsPartitionTheBins : Prop :=
  defaultParams.pilotIndex.toList = [7, 21, 43, 57] ∧
  defaultParams.dataIndex.toList =
    [1, 2, 3, 4, 5, 6, 8, 9, 10, 11, 12, 13, 14, 15, 16, 17, 18, 19, 20, 22, 23, 24, 25, 26] ++
    [38, 39, 40, 41, 42, 44, 45, 46, 47, 48, 49, 50, 51, 52, 53, 54, 55, 56, 58, 59, 60, 61, 62, 63] ∧
  (∀ (sym : Vector Word 48) (pilot : Word),
    (assembledBins defaultParams sym pilot)[1] = sym[0] ∧ (assembledBins defaultParams sym pilot)[26] = sym[23] ∧
    (assembledBins defaultParams sym pilot)[38] = sym[24] ∧ (assembledBins defaultParams sym pilot)[63] = sym[47]) ∧
  defaultParams.wellFormed = true ∧
  (defaultParams.dataIndex.toList ++ defaultParams.pilotIndex.toList ++ nullBins defaultParams).Perm (List.finRange 64) ∧
  nullBins defaultParams = [0, 27, 28, 29, 30, 31, 32, 33, 34, 35, 36, 37]

/-! ### SYNTH -/

/-- With a legal fraction and 64 bins SYNTH completes: the prefix, then the block, then the old entries, and
OUTLEN = 64 + cp_len (42_synthesizer.md R155, R156, R157, R159). -/
def Obligations.SynthSucceedsWithPrefixThenBlock : Prop :=
  ∀ (s : State) (cp : Nat), FractionInside s → s.freqlen = 64 → (cp : Int) = 64 * s.cpfrac.toInt / 65536 →
    ∃ t, exec .synth s = .next t ∧
      (∀ (n : Fin 127) (k : Fin 64), n.val < cp → k.val + cp = 64 + n.val →
        t.outRe[n] = ((synthImpl (subcarrierVector s) s.policy)[k]).1 ∧
        t.outIm[n] = ((synthImpl (subcarrierVector s) s.policy)[k]).2) ∧
      (∀ (n : Fin 127) (k : Fin 64), n.val = cp + k.val →
        t.outRe[n] = ((synthImpl (subcarrierVector s) s.policy)[k]).1 ∧
        t.outIm[n] = ((synthImpl (subcarrierVector s) s.policy)[k]).2) ∧
      (∀ n : Fin 127, 64 + cp ≤ n.val → t.outRe[n] = s.outRe[n] ∧ t.outIm[n] = s.outIm[n]) ∧
      64 ≤ t.outlen.toNat ∧ t.outlen.toNat ≤ 127 ∧
      t = { s with
        outRe := t.outRe, outIm := t.outIm, outlen := BitVec.ofNat 16 (64 + cp)
        errcode := 0, errsub := 0, errinfo := 0, lastop := 0x03, done := true, seq := .idle, wait := 0 }

/-- The prefix is a bit-for-bit copy of the end of the symbol (42_synthesizer.md R158). -/
def Obligations.PrefixEqualsTailOfSymbol : Prop :=
  ∀ (s : State) (cp : Nat), FractionInside s → s.freqlen = 64 → (cp : Int) = 64 * s.cpfrac.toInt / 65536 →
    ∃ t, exec .synth s = .next t ∧ ∀ n m : Fin 127, n.val < cp → m.val = 64 + n.val →
      t.outRe[n] = t.outRe[m] ∧ t.outIm[n] = t.outIm[m] ∧
      ∃ k : Fin 64, k.val + cp = 64 + n.val ∧
        t.outRe[n] = ((synthImpl (subcarrierVector s) s.policy)[k]).1 ∧
        t.outIm[n] = ((synthImpl (subcarrierVector s) s.policy)[k]).2

/-- cp_len is the floor of 64 times the fraction, which is a shift by 10 (42_synthesizer.md R153). -/
def Obligations.PrefixLengthIsFlooredFraction : Prop :=
  ∀ w : Word, 1 ≤ w.toInt → w.toInt ≤ 65535 →
    ((cpLen w).val : Int) = 64 * w.toInt / 65536 ∧ (cpLen w).val = w.toNat >>> 10

/-- SYNTH and RUN raise Configuration sub-code 1 on an illegal fraction: SYNTH before it looks at FREQLEN, RUN
after its bit string has passed (60_exceptions.md R205). -/
def Obligations.IllegalFractionRaisesConfiguration : Prop :=
  ∀ s : State, (s.cpfrac.toInt < 1 ∨ 65535 < s.cpfrac.toInt) →
    (∃ t, exec .synth s = .next t ∧ OnlyStatusWritten s t 0x03 4 1 s.cpfrac) ∧
    (BitsLoaded s → ∃ t, exec .run s = .next t ∧ OnlyStatusWritten s t 0x04 4 1 s.cpfrac)

/-- SYNTH raises Configuration sub-code 2 when CPFRAC is legal and FREQLEN is not 64, and RUN never does
(60_exceptions.md R206). -/
def Obligations.WrongVectorLengthRaisesConfiguration : Prop :=
  (∀ s : State, FractionInside s → s.freqlen ≠ 64 → ∃ t, exec .synth s = .next t ∧
    OnlyStatusWritten s t 0x03 4 2 ((64 : BitVec 32) ++ s.freqlen.setWidth 32)) ∧
  (∀ s t : State, exec .run s = .next t → t.errsub ≠ 2)

/-- The accuracy law (42_synthesizer.md R152). On a vector where the numerics are accurate, every sample of the block
that the writes of SYNTH leave is finite and within SYNTH_EPS * B of the reference transform. With any admissible
SYNTH_IMPL, SYNTH and RUN leave on every moderate vector a block whose parts are all finite, and within the bound
wherever any binary64 is. That the bound is asked there only is the model's reading of R152, which asks it of every
part and so of parts that no binary64 can bring within it (log 7; `NoNumericsAccurateOnSubnormalSpectrum`); that
SYNTH_EPS of the machine is a rational is the model's choice (log 8). The machine's own SYNTH_IMPL and SYNTH_EPS are admissible, and the machine's SYNTH and RUN
are the commands with that SYNTH_IMPL. Holding a function to the law changes no admissible function, so the
machine's SYNTH_IMPL may be any of them (log 7). -/
def Obligations.SynthSamplesWithinAccuracyBound : Prop :=
  (∀ (impl : Config.SynthImpl) (eps : ℝ) (s : State), Moderate (subcarrierVector s) →
    SynthAccurateAt impl eps (subcarrierVector s) s.policy →
    BlockWithinBound eps s (synthWritesWith impl s)) ∧
  (∀ (impl : Config.SynthImpl) (eps : ℝ) (s : State), SynthAdmissible impl eps → FractionInside s →
    (s.freqlen = 64 → Moderate (subcarrierVector s) →
      ∃ t, execSynthWith impl s = .next t ∧ t.errcode = 0 ∧ OutputLawful eps t) ∧
    (BitsLoaded s → Moderate (subcarrierVector (assembleWrites (mapWrites s))) →
      ∃ t, execRunWith impl s = .next t ∧ t.errcode = 0 ∧ OutputLawful eps t)) ∧
  SynthAdmissible synthImpl (synthEps : ℝ) ∧
  (∀ s : State, exec .synth s = execSynthWith synthImpl s ∧ exec .run s = execRunWith synthImpl s) ∧
  ∀ (impl : Config.SynthImpl) (eps : ℚ), SynthAdmissible impl (eps : ℝ) → heldToLaw eps impl = impl

/-- The reference never leaves its bound: |y_ref[n]| ≤ B (42_synthesizer.md R152). -/
def Obligations.ReferenceSampleWithinBound : Prop :=
  ∀ (policy : BitVec 1) (X : Fin 64 → ℂ) (n : Fin 64),
    ‖refSample (refScale policy) X n‖ ≤ refBound (refScale policy) X

/-- RN rounds to the nearest binary64, ties to even. SYNTH_REF is an admissible value of SYNTH_IMPL for every legal
SYNTH_EPS, and it meets R152's bounds in every part on every moderate vector whose B is 0 or at least 2^-1022, so all
of R152's condition binds there: every admissible SYNTH_IMPL meets it (00_scope.md R10; 42_synthesizer.md R152). On
other vectors R152's own remark on SYNTH_REF can fail, log 7. -/
def Obligations.RoundedReferenceIsAdmissible : Prop :=
  (∀ x : ℝ, |x| ≤ 2 ^ 1023 → IsRN (roundToBinary64 x) x) ∧
  (∀ eps : ℝ, SynthEpsLegal eps → SynthAdmissible synthRef eps) ∧
  ∀ (eps : ℝ) (X : Config.Samples) (policy : BitVec 1), SynthEpsLegal eps → Moderate X →
    (refBound (refScale policy) (complexOf X) = 0 ∨
      (1 / 2 ^ 1022 : ℝ) ≤ refBound (refScale policy) (complexOf X)) →
    AccurateBlock (synthRef X policy) eps X policy ∧
    ∀ impl : Config.SynthImpl, SynthAdmissible impl eps → AccurateBlock (impl X policy) eps X policy

/-- R152's accuracy condition, read literally on every input, is met by no numerics: on the spectrum whose only
nonzero part is the smallest subnormal, the reference falls between two binary64 values. The model's finding,
log 7. -/
def Obligations.NoNumericsAccurateOnSubnormalSpectrum : Prop :=
  ∀ (impl : Config.SynthImpl) (eps : ℝ), SynthEpsLegal eps →
    Moderate smallestSpectrum ∧ ¬SynthAccurateAt impl eps smallestSpectrum 0 ∧
      ¬SynthAccurateEverywhere impl eps

/-- The mean sample power of 48 unit-power bins is 1/64 under policy (b) and 3/256 under policy (a), in exact
arithmetic (42_synthesizer.md R161). -/
def Obligations.MeanSamplePowerOfUnitDataBins : Prop :=
  ∀ (X : Fin 64 → ℂ) (D : Finset (Fin 64)) (policy : BitVec 1), D.card = 48 →
    (∀ k ∈ D, ‖X k‖ = 1) → (∀ k ∉ D, X k = 0) →
    (1 / 64 : ℝ) * ∑ n : Fin 64, ‖refSample (refScale policy) X n‖ ^ 2 =
      if policy = 0 then 3 / 256 else 1 / 64

/-! ### RUN -/

/-- On a binary string and a legal fraction RUN completes, writes the three counts and the outputs of the
three units, and nothing else (43_sequencer.md R183). -/
def Obligations.RunSucceedsOnBinaryString : Prop :=
  ∀ (s : State) (cp : Nat), BitsLoaded s → FractionInside s → (cp : Int) = 64 * s.cpfrac.toInt / 65536 →
    ∃ t, exec .run s = .next t ∧
      (∀ n : Fin 127, 64 + cp ≤ n.val → t.outRe[n] = s.outRe[n] ∧ t.outIm[n] = s.outIm[n]) ∧
      t = { s with
        symCode := t.symCode, symRe := t.symRe, symIm := t.symIm, symMag := t.symMag, symPh := t.symPh
        symcnt := 48
        freqRe := t.freqRe, freqIm := t.freqIm, freqlen := 64
        outRe := t.outRe, outIm := t.outIm, outlen := BitVec.ofNat 16 (64 + cp)
        errcode := 0, errsub := 0, errinfo := 0, lastop := 0x04, done := true, seq := .idle, wait := 0 }

/-- RUN leaves the state that MAP, then ASSEMBLE, then SYNTH leave when each succeeds, except LASTOP
(43_sequencer.md R183). -/
def Obligations.RunEqualsMapAssembleSynth : Prop :=
  ∀ s : State, BitsLoaded s → FractionInside s →
    ∃ a b c, exec .map s = .next a ∧ exec .assemble a = .next b ∧ exec .synth b = .next c ∧
      a.errcode = 0 ∧ b.errcode = 0 ∧ c.errcode = 0 ∧ exec .run s = .next { c with lastop := 0x04 }

/-! ### All commands -/

/-- A command that raises an error writes STATUS and ERRINFO and nothing else (60_exceptions.md R212, R210). -/
def Obligations.FailedCommandWritesOnlyStatus : Prop :=
  ∀ (i : Instr) (s t : State), exec i s = .next t → t.errcode ≠ 0 →
    OnlyStatusWritten s t (opcode i) t.errcode t.errsub t.errinfo

/-- The frame of the four commands, byte by byte of the window: a byte outside the command's row of
30_encoding.md R83, STATUS and ERRINFO reads as before. -/
def Obligations.CommandsLeaveOtherWindowBytesAlone : Prop :=
  ∀ (i : Instr) (s t : State) (a : Nat), exec i s = .next t →
    mayWrite i s.cpfrac (locationAt (a - a % 8)) = false → t.windowByte a = s.windowByte a

/-- The frame of the four commands on what the window does not show or shows in STATUS: the interrupt enable,
WRBUSY, the configuration, the bit string and the sequencer's word stay; DONE is set, SEQ is IDLE, LASTOP is
the command's (43_sequencer.md R182). -/
def Obligations.CommandsLeaveConfigurationAlone : Prop :=
  ∀ (i : Instr) (s t : State), exec i s = .next t →
    t.params = s.params ∧ t.ie = s.ie ∧ t.wrbusy = s.wrbusy ∧ t.policy = s.policy ∧ t.cpfrac = s.cpfrac ∧
    t.pilotRe = s.pilotRe ∧ t.pilotIm = s.pilotIm ∧ t.bitlen = s.bitlen ∧ t.bitbuf = s.bitbuf ∧
    t.pend = s.pend ∧ t.inputs = s.inputs ∧ t.replies = s.replies ∧ t.draws = s.draws ∧
    t.done = true ∧ t.seq = .idle ∧ t.lastop = opcode i

/-- Issuing the same command word again, legal or illegal, leaves the same machine (43_sequencer.md R187). The
model's draw counter moves at each acceptance, since it draws a latency: the model's choice, log 3. -/
def Obligations.SameCommandTwiceIsOnce : Prop :=
  ∀ (w : Word) (s t : State), completion { s with pend := w } = .next t →
    completion (t.accept w) = .next { t with draws := t.draws + 1 }

/-- Each command is a pure function of its inputs: two states that agree on them give the same errors, and on
success the same outputs (00_scope.md R4; 41_assembler.md R140; 42_synthesizer.md R162). -/
def Obligations.CommandsArePureFunctionsOfInputs : Prop :=
  (∀ s t u v : State, SameMapInputs s t → exec .map s = .next u → exec .map t = .next v →
    u.errcode = v.errcode ∧ u.errsub = v.errsub ∧ u.errinfo = v.errinfo ∧
    (u.errcode = 0 → u.symCode = v.symCode ∧ u.symRe = v.symRe ∧ u.symIm = v.symIm ∧
      u.symMag = v.symMag ∧ u.symPh = v.symPh ∧ u.symcnt = v.symcnt)) ∧
  (∀ s t u v : State, SameAssembleInputs s t → exec .assemble s = .next u → exec .assemble t = .next v →
    u.errcode = v.errcode ∧ u.errsub = v.errsub ∧ u.errinfo = v.errinfo ∧
    (u.errcode = 0 → u.freqRe = v.freqRe ∧ u.freqIm = v.freqIm ∧ u.freqlen = v.freqlen)) ∧
  (∀ s t u v : State, SameSynthInputs s t → exec .synth s = .next u → exec .synth t = .next v →
    u.errcode = v.errcode ∧ u.errsub = v.errsub ∧ u.errinfo = v.errinfo ∧
    (u.errcode = 0 → u.outlen = v.outlen ∧
      ∀ n : Fin 127, n.val < u.outlen.toNat → u.outRe[n] = v.outRe[n] ∧ u.outIm[n] = v.outIm[n])) ∧
  (∀ s t u v : State, SameRunInputs s t → exec .run s = .next u → exec .run t = .next v →
    u.errcode = v.errcode ∧ u.errsub = v.errsub ∧ u.errinfo = v.errinfo ∧
    (u.errcode = 0 → u.symCode = v.symCode ∧ u.symRe = v.symRe ∧ u.symIm = v.symIm ∧
      u.symMag = v.symMag ∧ u.symPh = v.symPh ∧ u.symcnt = v.symcnt ∧ u.freqRe = v.freqRe ∧
      u.freqIm = v.freqIm ∧ u.freqlen = v.freqlen ∧ u.outlen = v.outlen ∧
      ∀ n : Fin 127, n.val < u.outlen.toNat → u.outRe[n] = v.outRe[n] ∧ u.outIm[n] = v.outIm[n]))

/-! ### The sequencer and one step -/

/-- When the completion step is next and the pending word decodes to a command, the step is that command's
meaning (43_sequencer.md R182). -/
def Obligations.StepRunsDecodedCommand : Prop :=
  ∀ (s : State) (i : Instr), CompletionNext s → decode s.pend = .ok i → step s = exec i s

/-- A word placed where the machine takes its next command runs as the very next step. How a program comes to
run is the model's choice, log 16. -/
def Obligations.PlacedWordRunsNext : Prop :=
  ∀ (s : State) (i : Instr), (s.withFetchWord 64 (encode i).toNat).pend = encode i ∧
    step (s.withFetchWord 64 (encode i).toNat) = exec i (s.withFetchWord 64 (encode i).toNat)

/-- Every word the opcode map does not list completes with IllegalCommand (43_sequencer.md R184;
60_exceptions.md R207). -/
def Obligations.UnlistedWordRaisesIllegalCommand : Prop :=
  ∀ s : State, CompletionNext s → s.pend ≠ 1 → s.pend ≠ 2 → s.pend ≠ 3 → s.pend ≠ 4 →
    ∃ t, step s = .next t ∧ OnlyStatusWritten s t (s.pend.setWidth 8) 5 0 s.pend

/-- A write to CMD while IDLE is accepted, whatever the word; while BUSY it is dropped and sets WRBUSY
(43_sequencer.md R180). The latency taken at acceptance, its countdown `wait` and the draw counter are the
model's choice (log 3). -/
def Obligations.CommandWriteIsAcceptedOnlyWhileIdle : Prop :=
  ∀ (s : State) (v : Word) (rest : List BusInput), s.inputs = .write 0x0018 8 v :: rest →
    (s.seq = .idle → step s = .next { s with
      inputs := rest, pend := v, seq := .busy, done := false, errcode := 0, errsub := 0, errinfo := 0
      wait := Config.latency s.draws, draws := s.draws + 1 }) ∧
    (s.seq = .busy → s.wait ≠ 0 → step s = .next { s with
      inputs := rest, wrbusy := true, wait := s.wait - 1 })

/-- While BUSY every host write is dropped: it sets WRBUSY and changes nothing else of the machine
(60_exceptions.md R208; 20_memory.md R66). -/
def Obligations.WriteWhileBusyOnlySetsWrbusy : Prop :=
  ∀ (s : State) (off : Nat) (v : Word) (rest : List BusInput), s.seq = .busy → s.wait ≠ 0 →
    accessSupported off 8 = true → s.inputs = .write off 8 v :: rest →
    step s = .next { s with inputs := rest, wrbusy := true, wait := s.wait - 1 }

/-- WRBUSY is sticky: only a write of STATUS with bit 3 set, taken while IDLE, or a reset takes it away
(60_exceptions.md R208). -/
def Obligations.WrbusyStaysUntilClearedOrReset : Prop :=
  ∀ s t : State, step s = .next t → s.wrbusy = true → t.wrbusy = false →
    ∃ rest, s.inputs = .reset :: rest ∨
      ∃ v : Word, s.inputs = .write 0x0010 8 v :: rest ∧ v.getLsbD 3 = true ∧ s.seq = .idle

/-- A read while BUSY: at the offsets of VOLATILE it returns a free value, at any other offset the true value, and at
STATUS the status word with BUSY set; no state of the machine changes (20_memory.md R71, R65). What the true values
are, `ReadWhileIdleReturnsTruth` says for every state. The latency countdown is the model's choice (log 3). -/
def Obligations.ReadWhileBusyReturnsDrawOrTruth : Prop :=
  ∀ (s : State) (off : Nat) (rest : List BusInput), s.seq = .busy → s.wait ≠ 0 →
    accessSupported off 8 = true → s.inputs = .read off 8 :: rest →
    (isVolatile (locationAt off) = true ↔ VolatileOffset off) ∧
    (VolatileOffset off → step s = .next { s with
      inputs := rest, replies := Config.draw s.draws :: s.replies, wait := s.wait - 1
      draws := s.draws + 1 }) ∧
    (¬VolatileOffset off → step s = .next { s with
      inputs := rest, replies := s.valueAt (locationAt off) :: s.replies, wait := s.wait - 1 }) ∧
    (off = 0x0010 → step s = .next { s with
      inputs := rest, replies := s.statusWord :: s.replies, wait := s.wait - 1 }) ∧
    s.statusWord.getLsbD 0 = true ∧ (s.valueAt .status).getLsbD 0 = true

/-- A read while IDLE returns the true value of its location and changes no state (20_memory.md R65, R67). The true
values, in any state, at every literal offset of the address map: the registers, the index tables and the ROM (its
level fields by 30_encoding.md R89), the buffers, and the reserved ranges, which read 0 (R61). -/
def Obligations.ReadWhileIdleReturnsTruth : Prop :=
  (∀ s : State, RegistersReadTheirState s ∧ TablesReadTheParameters s ∧ BuffersReadTheirCells s ∧ ReservedReadsZero s) ∧
  ∀ (s : State) (off : Nat) (rest : List BusInput), s.seq = .idle → accessSupported off 8 = true →
    s.inputs = .read off 8 :: rest →
    step s = .next { s with inputs := rest, replies := s.valueAt (locationAt off) :: s.replies }

/-- A register or buffer entry reads back what the host wrote, cut to its writable field (20_memory.md R66;
30_encoding.md R91). -/
def Obligations.WrittenLocationReadsBackTruncated : Prop :=
  ∀ (s : State) (v : Word),
    (s.writeAt v .ctrl).valueAt .ctrl = v &&& 1 ∧
    (s.writeAt v .norm).valueAt .norm = v &&& 1 ∧
    (s.writeAt v .cpfrac).valueAt .cpfrac = v ∧
    (s.writeAt v .pilotRe).valueAt .pilotRe = v ∧
    (s.writeAt v .pilotIm).valueAt .pilotIm = v ∧
    (s.writeAt v .bitlen).valueAt .bitlen = v &&& 0xFFFF ∧
    (s.writeAt v .symcnt).valueAt .symcnt = v &&& 0xFFFF ∧
    (s.writeAt v .freqlen).valueAt .freqlen = v &&& 0xFFFF ∧
    (∀ p, (s.writeAt v (.bitbuf p)).valueAt (.bitbuf p) = v &&& 0xFF) ∧
    (∀ g, (s.writeAt v (.symCode g)).valueAt (.symCode g) = v &&& 0x3F) ∧
    (∀ g, (s.writeAt v (.symRe g)).valueAt (.symRe g) = v ∧
      (s.writeAt v (.symIm g)).valueAt (.symIm g) = v ∧
      (s.writeAt v (.symMag g)).valueAt (.symMag g) = v ∧
      (s.writeAt v (.symPh g)).valueAt (.symPh g) = v) ∧
    (∀ b, (s.writeAt v (.freqRe b)).valueAt (.freqRe b) = v ∧
      (s.writeAt v (.freqIm b)).valueAt (.freqIm b) = v)

/-- A host write while IDLE, other than a command, changes what the host reads at its own location only: no
two registers share storage (20_memory.md R66; 10_state.md R21). The step that takes a write to a writable register
or buffer cell, at its literal offset, stores the writable bits there and changes no other field. -/
def Obligations.IdleWriteTouchesOneLocation : Prop :=
  (∀ (s : State) (v : Word) (rest : List BusInput), s.seq = .idle →
    RegisterWritesTakeEffect s v rest ∧ BufferWritesTakeEffect s v rest) ∧
  ∀ (s : State) (off : Nat) (v : Word) (l : Location), s.seq = .idle → locationAt off ≠ .cmd →
    l ≠ locationAt off → (s.hostWrite off v).valueAt l = s.valueAt l

/-- A write to a read-only or reserved location while IDLE has no effect at all and sets no flag
(20_memory.md R66). -/
def Obligations.ReadOnlyWriteHasNoEffect : Prop :=
  ∀ (s : State) (off : Nat) (v : Word) (rest : List BusInput), s.seq = .idle →
    accessSupported off 8 = true → isReadOnly (locationAt off) = true →
    s.inputs = .write off 8 v :: rest → step s = .next { s with inputs := rest }

/-- A write of STATUS while IDLE clears DONE and WRBUSY where bits 1 and 3 are 1 and changes no other field;
while BUSY it is dropped and sets WRBUSY (10_state.md R26). The latency countdown `wait` is the model's choice
(log 3). -/
def Obligations.StatusWriteClearsDoneAndWrbusy : Prop :=
  ∀ (s : State) (v : Word) (rest : List BusInput), s.inputs = .write 0x0010 8 v :: rest →
    (s.seq = .idle → step s = .next { s with
      inputs := rest
      done := if v.getLsbD 1 then false else s.done
      wrbusy := if v.getLsbD 3 then false else s.wrbusy }) ∧
    (s.seq = .busy → s.wait ≠ 0 → step s = .next { s with
      inputs := rest, wrbusy := true, wait := s.wait - 1 })

/-- The fields of the STATUS register as the host reads it (10_state.md R25, the table of bits). -/
def Obligations.StatusWordHoldsItsFields : Prop :=
  ∀ s : State,
    (s.valueAt .status).getLsbD 0 = decide (s.seq = .busy) ∧
    (s.valueAt .status).getLsbD 1 = s.done ∧
    (s.valueAt .status).getLsbD 2 = decide (s.errcode ≠ 0) ∧
    (s.valueAt .status).getLsbD 3 = s.wrbusy ∧
    (s.valueAt .status).extractLsb' 4 4 = 0 ∧
    (s.valueAt .status).extractLsb' 8 4 = s.errcode ∧
    (s.valueAt .status).extractLsb' 12 4 = s.errsub ∧
    (s.valueAt .status).extractLsb' 16 8 = s.lastop ∧
    (s.valueAt .status).extractLsb' 24 40 = 0

/-- How `irq` rises and falls (60_exceptions.md R215): a completion raises it when CTRL.IE is 1, a write of
CTRL enables it while DONE is 1, acceptance, an acknowledgement of DONE and reset drop it. -/
def Obligations.IrqRisesAndFalls : Prop :=
  (∀ (i : Instr) (s t : State), exec i s = .next t → t.irq = s.ie) ∧
  (∀ (s : State) (v : Word), (s.writeAt v .ctrl).irq = (s.done && v.getLsbD 0)) ∧
  (∀ (s : State) (v : Word), (s.writeAt v .cmd).irq = false) ∧
  (∀ (s : State) (v : Word), v.getLsbD 1 = true → (s.writeAt v .status).irq = false) ∧
  State.reset.irq = false

/-- DONE rises in a completion step only, and a command ends in its completion or in a reset only
(10_state.md R25; 60_exceptions.md R216). -/
def Obligations.OnlyCompletionSetsDoneOrEndsBusy : Prop :=
  ∀ s t : State, step s = .next t →
    (s.done = false → t.done = true → s.seq = .busy ∧ step s = completion s) ∧
    (s.seq = .busy → t.seq = .idle → step s = completion s ∨ ∃ rest, s.inputs = .reset :: rest)

/-- The host cannot write the output buffer: only a completion or a reset changes OUT_RE, OUT_IM or OUTLEN
(10_state.md R46, R42). -/
def Obligations.OnlyCompletionOrResetChangesOutput : Prop :=
  ∀ s t : State, step s = .next t → (∀ rest, s.inputs ≠ .reset :: rest) →
    ¬(s.seq = .busy ∧ step s = completion s) →
    t.outRe = s.outRe ∧ t.outIm = s.outIm ∧ t.outlen = s.outlen

/-- An access that is narrow, wide, misaligned or beyond the window has no step while IDLE (20_memory.md R63;
60_exceptions.md R209). What a BUSY machine does meanwhile is the model's choice, log 6. -/
def Obligations.UnsupportedAccessIsRefused : Prop :=
  ∀ (s : State) (off size : Nat) (v : Word) (rest : List BusInput), s.seq = .idle →
    (size ≠ 8 ∨ off % 8 ≠ 0 ∨ 0x8000 ≤ off) →
    s.inputs = .read off size :: rest ∨ s.inputs = .write off size v :: rest →
    step s = .refused .unsupportedAccess

/-- A machine whose host keeps to the interface never stops: every step answers a next state
(20_memory.md R62; 60_exceptions.md R200). -/
def Obligations.SupportedInputsNeverStop : Prop :=
  ∀ s : State, (∀ a ∈ s.inputs, a.supported = true) →
    ∃ t, step s = .next t ∧ ∀ a ∈ t.inputs, a.supported = true

/-- Every step keeps the invariant: the error record is a row of 60_exceptions.md R201, a BUSY machine shows no
DONE and no error, OUTLEN is 0 or 64..127, and the parameters are a configuration of OQM-CORE (41_assembler.md R133). -/
def Obligations.StepKeepsErrorRecordAndOutlenLegal : Prop :=
  ∀ s t : State, RunInvariant s → step s = .next t → RunInvariant t

/-- The reset state satisfies the invariant. -/
def Obligations.ResetErrorRecordAndOutlenLegal : Prop := RunInvariant State.reset

/-- Every accepted command completes after finitely many steps, at most one more than the latency it has left,
unless a reset intervenes (70_reset_and_hazards.md R243). -/
def Obligations.AcceptedCommandCompletes : Prop :=
  ∀ s : State, s.seq = .busy → NoReset s →
    ∃ k t, 1 ≤ k ∧ k ≤ s.wait + 1 ∧ core.run k s = .next t ∧ t.seq = .idle ∧ t.done = true

/-- The latency does not matter to the result: what the host does while a command is pending changes nothing
of the machine that the completion leaves, but WRBUSY (43_sequencer.md R182; 70_reset_and_hazards.md R244). -/
def Obligations.LatencyDoesNotChangeTheResult : Prop :=
  ∀ s : State, s.seq = .busy → NoReset s →
    ∃ k t u, 1 ≤ k ∧ k ≤ s.wait + 1 ∧ core.run k s = .next t ∧ completion s = .next u ∧ SameMachine u t

/-! ### Reset -/

/-- The registers, the index tables and the ROM at reset (70_reset_and_hazards.md R231). The parameters are the
defaults, so PILOT_IDX and DATA_IDX read the lists of 41_assembler.md R130 and R131 and the ROM is that of
40_mapper.md R106 (log 9). The buffers and PEND are free values (log 1). -/
def Obligations.ResetRegisterValues : Prop :=
  State.reset.valueAt .id = 0x4F514D4300010007 ∧ State.reset.valueAt .ctrl = 0 ∧
  State.reset.valueAt .status = 0 ∧ State.reset.valueAt .errinfo = 0 ∧ State.reset.valueAt .norm = 0 ∧
  State.reset.valueAt .cpfrac = 0x4000 ∧ State.reset.valueAt .pilotRe = 0x3FF0000000000000 ∧
  State.reset.valueAt .pilotIm = 0 ∧ State.reset.valueAt .bitlen = 0 ∧ State.reset.valueAt .symcnt = 0 ∧
  State.reset.valueAt .freqlen = 0 ∧ State.reset.valueAt .outlen = 0 ∧ State.reset.valueAt .nfft = 64 ∧
  State.reset.valueAt .ndata = 48 ∧ State.reset.valueAt .npilot = 4 ∧ State.reset.seq = .idle ∧
  State.reset.irq = false ∧ State.reset.params = defaultParams ∧
  ((List.finRange 4).map fun p => (State.reset.valueAt (.pilotIdx p)).toNat) = [7, 21, 43, 57] ∧
  ((List.finRange 48).map fun d => (State.reset.valueAt (.dataIdx d)).toNat) =
    [1, 2, 3, 4, 5, 6, 8, 9, 10, 11, 12, 13, 14, 15, 16, 17, 18, 19, 20, 22, 23, 24, 25, 26] ++
    [38, 39, 40, 41, 42, 44, 45, 46, 47, 48, 49, 50, 51, 52, 53, 54, 55, 56, 58, 59, 60, 61, 62, 63] ∧
  ∀ c : Fin 64,
    (State.reset.valueAt (.cromLev c)).toNat = (levelFields (rom (BitVec.ofNat 6 c.val))).toNat ∧
    State.reset.valueAt (.cromRe c) = (rom (BitVec.ofNat 6 c.val)).re ∧
    State.reset.valueAt (.cromIm c) = (rom (BitVec.ofNat 6 c.val)).im ∧
    State.reset.valueAt (.cromMag c) = (rom (BitVec.ofNat 6 c.val)).mag ∧
    State.reset.valueAt (.cromPh c) = (rom (BitVec.ofNat 6 c.val)).ph

/-- Issued at once after any reset, MAP fails with InvalidLength, ASSEMBLE with Cardinality, SYNTH with
Configuration sub-code 2, and the fraction is legal (70_reset_and_hazards.md R235). -/
def Obligations.CommandsFailRightAfterReset : Prop :=
  ∀ k : Nat, FractionInside (State.resetAt k) ∧
    (∃ t, exec .map (State.resetAt k) = .next t ∧ OnlyStatusWritten (State.resetAt k) t 0x01 1 0
      0x0000012000000000) ∧
    (∃ t, exec .assemble (State.resetAt k) = .next t ∧ OnlyStatusWritten (State.resetAt k) t 0x02 3 0
      0x0000003000000000) ∧
    (∃ t, exec .synth (State.resetAt k) = .next t ∧ OnlyStatusWritten (State.resetAt k) t 0x03 4 2
      0x0000004000000000)

/-- A reset, also while a command is pending, gives every register its reset value; the pending command never
completes, and the buffers hold anything (70_reset_and_hazards.md R234). -/
def Obligations.PlatformResetDiscardsPendingCommand : Prop :=
  ∀ (s : State) (rest : List BusInput), s.inputs = .reset :: rest → (s.seq = .busy → s.wait ≠ 0) →
    ∃ t, step s = .next t ∧ t.seq = .idle ∧ t.irq = false ∧
      t = { State.reset with
        bitbuf := t.bitbuf, symCode := t.symCode, symRe := t.symRe, symIm := t.symIm, symMag := t.symMag
        symPh := t.symPh, freqRe := t.freqRe, freqIm := t.freqIm, outRe := t.outRe, outIm := t.outIm
        pend := t.pend, inputs := rest, replies := s.replies, draws := t.draws, params := s.params }

/-- While IDLE with no host access and no reset to come the machine does nothing (60_exceptions.md R223). -/
def Obligations.IdleMachineWaits : Prop :=
  ∀ s : State, s.seq = .idle → s.inputs = [] → step s = .next s

/-! ### Encodings and tables -/

/-- A few command words, written out: OP in [7:0], RSVD in [63:8] (30_encoding.md R80 to R82). -/
def Obligations.CommandWordsDecode : Prop :=
  decode 0x0000000000000001 = .ok .map ∧ decode 0x0000000000000002 = .ok .assemble ∧
  decode 0x0000000000000003 = .ok .synth ∧ decode 0x0000000000000004 = .ok .run ∧
  decode 0x0000000000000000 = .error .unknownOperation ∧
  decode 0x0000000000000005 = .error .unknownOperation ∧
  decode 0x0000000000000101 = .error .reservedNotZero ∧
  decode 0x8000000000000004 = .error .reservedNotZero

/-- Decoding and encoding agree on all 2^64 words: a word decodes to a command exactly when it is that
command's word (30_encoding.md R80 to R82). -/
def Obligations.DecodeIsInverseOfEncode : Prop :=
  ∀ (w : Word) (i : Instr), decode w = .ok i ↔ w = encode i

/-- The address map and its inverse agree: every register, table entry and buffer entry sits at its own
supported offset, every other aligned offset is reserved, and the reserved ranges are those of 20_memory.md
R61. -/
def Obligations.AddressMapIsInverseOfOffsets : Prop :=
  (∀ l : Location, l ≠ .reserved → locationAt (offsetOf l) = l ∧ accessSupported (offsetOf l) 8 = true) ∧
  (∀ off : Nat, off % 8 = 0 → off < 0x8000 → locationAt off ≠ .reserved →
    offsetOf (locationAt off) = off) ∧
  (∀ off : Nat, off % 8 = 0 → off < 0x8000 → (locationAt off = .reserved ↔ ReservedOffset off))

/-- The ROM, the index tables and the constants never change (20_memory.md R76): no step changes the parameters they
are made of, and they read the same in any two states of one machine, BUSY or not. -/
def Obligations.ConstantsReadTheSameAlways : Prop :=
  (∀ s t : State, step s = .next t → t.params = s.params) ∧
  ∀ (s t : State) (off : Nat), s.params = t.params → isConstant (locationAt off) = true →
    (s.hostRead off).1 = (t.hostRead off).1 ∧ (s.hostRead off).2 = s

/-- GRAY is x XOR (x >> 1), and the level map is the literal LEVELS[GRAY[x]] (40_mapper.md R101, R102). -/
def Obligations.LevelMapIsLiteralGrayLookup : Prop :=
  (∀ x : Fin 8, (gray[x]).val = x.val ^^^ (x.val >>> 1)) ∧
  defaultParams.levelOfBits = #v[-7, -5, -1, -3, 5, 7, 3, 1]

/-- Labels of adjacent levels differ in one bit at six of the seven steps and in two at the step from -1 to +1
(40_mapper.md R115; 90_conflicts.md C1). -/
def Obligations.AdjacentLevelsAreNotAlwaysGray : Prop :=
  ∀ x y : BitVec 3, levelOf defaultParams.levelOfBits y = levelOf defaultParams.levelOfBits x + 2 →
    ((List.finRange 3).filter fun j => (x ^^^ y).getLsbD j.val).length =
      if levelOf defaultParams.levelOfBits x = -1 then 2 else 1

/-- In exact arithmetic the 64 points have mean power 1 (40_mapper.md R114; 90_conflicts.md C6). -/
def Obligations.ConstellationMeanPowerIsOne : Prop :=
  (1 / 64 : ℝ) * ∑ c : Fin 64, ‖exactPoint (BitVec.ofNat 6 c.val)‖ ^ 2 = 1

/-- The stored parts and magnitudes of the ROM are the correctly rounded exact values, for any level map drawn from
LEVELS (40_mapper.md R105); the stored phases are the PHASE column of 40_mapper.md R106, row by row; and under any
level map an entry is the row of R106 with its two levels. -/
def Obligations.RomHoldsRoundedPartsAndTabledPhases : Prop :=
  (∀ (P : Config.Params) (c : BitVec 6), P.levelsLegal = true →
    IsRN (romWith P.levelOfBits c).re (scaleK * levelOf P.levelOfBits (inPhase c)) ∧
    IsRN (romWith P.levelOfBits c).im (scaleK * levelOf P.levelOfBits (quadrature c)) ∧
    IsRN (romWith P.levelOfBits c).mag
      (scaleK * √(levelOf P.levelOfBits (inPhase c) ^ 2 + levelOf P.levelOfBits (quadrature c) ^ 2 : ℝ))) ∧
  ((List.finRange 64).map fun c => (rom (BitVec.ofNat 6 c.val)).ph) =
    [0xC002D97C7F3321D2, 0xC0042BB5F776EB80, 0xC007FF6067FCC98A, 0xC005E4C36CA0118A,
      0x40042BB5F776EB80, 0x4002D97C7F3321D2, 0x4005E4C36CA0118A, 0x4007FF6067FCC98A] ++
    [0xC001874306EF5824, 0xC002D97C7F3321D2, 0xC0078DB734B4BAB8, 0xC004CF33DEC5E9E0,
      0x4002D97C7F3321D2, 0x4001874306EF5824, 0x4004CF33DEC5E9E0, 0x40078DB734B4BAB8] ++
    [0xBFFB67312CD2F434, 0xBFFC4A83936311DA, 0xC002D97C7F3321D2, 0xBFFE47DF3D0DD4D1,
      0x3FFC4A83936311DA, 0x3FFB67312CD2F434, 0x3FFE47DF3D0DD4D1, 0x4002D97C7F3321D2] ++
    [0xBFFF9C6B238C6434, 0xC000E3C51FA059C4, 0xC0068F095FDF593C, 0xC002D97C7F3321D2,
      0x4000E3C51FA059C4, 0x3FFF9C6B238C6434, 0x4002D97C7F3321D2, 0x40068F095FDF593C] ++
    [0xBFEE6AE1355353D0, 0xBFE921FB54442D18, 0xBFC94441F8F7260B, 0xBFE14B1DD5F90CE1,
      0x3FE921FB54442D18, 0x3FEE6AE1355353D0, 0x3FE14B1DD5F90CE1, 0x3FC94441F8F7260B] ++
    [0xBFE921FB54442D18, 0xBFE3D91573350661, 0xBFC229AEC47638DD, 0xBFD9E9BF3D20DC71,
      0x3FE3D91573350661, 0x3FE921FB54442D18, 0x3FD9E9BF3D20DC71, 0x3FC229AEC47638DD] ++
    [0xBFF2A78B84FBF5FC, 0xBFF07C6C6947A6A8, 0xBFD4978FA3269EE1, 0xBFE921FB54442D18,
      0x3FF07C6C6947A6A8, 0x3FF2A78B84FBF5FC, 0x3FE921FB54442D18, 0x3FD4978FA3269EE1] ++
    [0xBFF6DCC57BB565FD, 0xBFF5F97315254857, 0xBFE921FB54442D18, 0xBFF3FC176B7A8560,
      0x3FF5F97315254857, 0x3FF6DCC57BB565FD, 0x3FF3FC176B7A8560, 0x3FE921FB54442D18] ∧
  ∀ (P : Config.Params) (c : BitVec 6), P.levelsLegal = true → ∃ d : BitVec 6,
    levelOf defaultParams.levelOfBits (inPhase d) = levelOf P.levelOfBits (inPhase c) ∧
    levelOf defaultParams.levelOfBits (quadrature d) = levelOf P.levelOfBits (quadrature c) ∧
    romWith P.levelOfBits c = rom d
end

