-- ==== Sys2Proof/Laws/Surd.lean ====
section
/-! SUPPORT. What real number a `Surd` denotes, one lemma per operation, and that the exact reference of
`Sys2Proof.Machine.Numerics` is the reference transform of 42_synthesizer.md R150. -/

namespace Sys2Proof.Machine

/-- The root that comes after n roots. -/
noncomputable def surdRootValue : Nat → ℝ
  | 0 => √3
  | 1 => √2
  | n + 2 => √(2 + surdRootValue (n + 1))

/-- The number under that root. -/
noncomputable def surdRadicandValue : Nat → ℝ
  | 0 => 3
  | 1 => 2
  | n + 2 => 2 + surdRootValue (n + 1)

/-- The real number a `Surd` denotes. -/
noncomputable def surdValue : {n : Nat} → Surd n → ℝ
  | _, .rat q => q
  | n + 1, .pair a b => surdValue a + surdValue b * surdRootValue n

theorem surdRootValue_nonneg (n : Nat) : 0 ≤ surdRootValue n := by
  match n with
  | 0 => exact Real.sqrt_nonneg _
  | 1 => exact Real.sqrt_nonneg _
  | _ + 2 => exact Real.sqrt_nonneg _

theorem surdRootValue_sq (n : Nat) : surdRootValue n * surdRootValue n = surdRadicandValue n := by
  match n with
  | 0 => exact Real.mul_self_sqrt (by norm_num)
  | 1 => exact Real.mul_self_sqrt (by norm_num)
  | n + 2 => exact Real.mul_self_sqrt (by have := surdRootValue_nonneg (n + 1); positivity)

@[simp] theorem surdValue_const (n : Nat) (q : ℚ) : surdValue (surdConst n q) = q := by
  induction n generalizing q with
  | zero => rfl
  | succ n ih => simp [surdConst, surdValue, ih]

@[simp] theorem surdValue_root (n : Nat) : surdValue (surdRoot n) = surdRootValue n := by
  simp [surdRoot, surdValue]

@[simp] theorem surdValue_add {n : Nat} (x y : Surd n) : surdValue (surdAdd x y) = surdValue x + surdValue y := by
  induction x with
  | rat p => cases y with | rat q => simp [surdAdd, surdValue]
  | pair a b iha ihb => cases y with | pair c d => simp [surdAdd, surdValue, iha, ihb]; ring

@[simp] theorem surdValue_scale (q : ℚ) {n : Nat} (x : Surd n) : surdValue (surdScale q x) = q * surdValue x := by
  induction x with
  | rat p => simp [surdScale, surdValue]
  | pair a b iha ihb => simp [surdScale, surdValue, iha, ihb]; ring

@[simp] theorem surdValue_sub {n : Nat} (x y : Surd n) : surdValue (surdSub x y) = surdValue x - surdValue y := by
  simp [surdSub]; ring

@[simp] theorem surdValue_timesRadicand {n : Nat} (x : Surd n) :
    surdValue (surdTimesRadicand x) = surdRadicandValue n * surdValue x := by
  match n, x with
  | 0, x => simp [surdTimesRadicand, surdRadicandValue]
  | 1, x => simp [surdTimesRadicand, surdRadicandValue]
  | n + 2, .pair a b =>
    rw [show surdRadicandValue (n + 2) = 2 + surdRootValue (n + 1) from rfl]
    simp only [surdTimesRadicand, surdValue_add, surdValue_scale, surdValue, surdValue_timesRadicand b,
      ← surdRootValue_sq (n + 1)]
    push_cast
    ring

@[simp] theorem surdValue_timesRoot {n : Nat} (x : Surd (n + 1)) :
    surdValue (surdTimesRoot x) = surdRootValue n * surdValue x := by
  match x with
  | .pair a b => simp [surdTimesRoot, surdValue, ← surdRootValue_sq n]; ring

@[simp] theorem surdValue_timesSqrtThree {n : Nat} (x : Surd (n + 1)) :
    surdValue (surdTimesSqrtThree x) = √3 * surdValue x := by
  match n, x with
  | 0, .pair a b =>
    have h : √3 * √3 = (3 : ℝ) := Real.mul_self_sqrt (by norm_num)
    simp [surdTimesSqrtThree, surdValue, surdRootValue]; linear_combination -(surdValue b) * h
  | n + 1, .pair a b =>
    simp [surdTimesSqrtThree, surdValue, surdValue_timesSqrtThree a, surdValue_timesSqrtThree b]; ring

@[simp] theorem surdValue_mul {n : Nat} (x y : Surd n) : surdValue (surdMul x y) = surdValue x * surdValue y := by
  induction x with
  | rat p => cases y with | rat q => simp [surdMul, surdValue]
  | pair a b iha ihb =>
    rename_i n
    cases y with
    | pair c d => simp [surdMul, surdValue, iha, ihb, ← surdRootValue_sq n]; ring

/-- The sign of a + b * r from the signs of a and b and of the difference of the squares. -/
theorem sign_by_squares {a b r : ℝ} (hr : 0 ≤ r) :
    (0 ≤ a → (0 ≤ b ∨ 0 ≤ a * a - r * r * (b * b) ↔ 0 ≤ a + b * r)) ∧
      (¬0 ≤ a → (0 ≤ b ∧ 0 ≤ r * r * (b * b) - a * a ↔ 0 ≤ a + b * r)) := by
  have e : r * r * (b * b) = b * r * (b * r) := by ring
  rw [e]
  refine ⟨fun ha => ⟨?_, fun h => ?_⟩, fun ha => ⟨fun h => ?_, fun h => ?_⟩⟩
  · rintro (hb | h)
    · positivity
    · have := abs_le_of_sq_le_sq' (show (b * r) ^ 2 ≤ a ^ 2 by nlinarith) ha
      linarith
  · by_cases hb : 0 ≤ b
    · exact .inl hb
    · have : b * r ≤ 0 := mul_nonpos_of_nonpos_of_nonneg (by linarith) hr
      exact .inr (by nlinarith)
  · have := abs_le_of_sq_le_sq' (show a ^ 2 ≤ (b * r) ^ 2 by nlinarith) (mul_nonneg h.1 hr)
    linarith
  · have hc : 0 < b * r := by linarith
    exact ⟨le_of_not_gt fun hb => absurd hc (mul_nonpos_of_nonpos_of_nonneg hb.le hr).not_gt, by nlinarith⟩

@[simp] theorem surdNonneg_iff {n : Nat} (x : Surd n) : surdNonneg x = true ↔ 0 ≤ surdValue x := by
  induction n with
  | zero => cases x with | rat q => simp [surdNonneg, surdValue]
  | succ n ih =>
    cases x with
    | pair a b =>
      obtain ⟨h1, h2⟩ := sign_by_squares (a := surdValue a) (b := surdValue b) (surdRootValue_nonneg n)
      rw [surdRootValue_sq] at h1 h2
      by_cases ha : 0 ≤ surdValue a
      · simp [surdNonneg, surdValue, ih, ha, ← h1 ha]
      · simp [surdNonneg, surdValue, ih, ha, ← h2 ha]

theorem surdValue_sum {n : Nat} (l : List (Surd n)) : surdValue (surdSum l) = (l.map surdValue).sum := by
  unfold surdSum
  induction l with
  | nil => simp
  | cons x l ih => simp [ih]

/-- The last of the five roots is 2 cos (pi/32). -/
theorem surdRootValue_four : surdRootValue 4 = 2 * Real.cos (Real.pi / 32) := by
  rw [Real.cos_pi_div_thirty_two]; simp [surdRootValue]; ring

theorem doubleCosines_value (j : Nat) :
    surdValue (doubleCosines j).1 = 2 * Real.cos (j * (Real.pi / 32)) ∧
      surdValue (doubleCosines j).2 = 2 * Real.cos ((j + 1) * (Real.pi / 32)) := by
  induction j with
  | zero => simp [doubleCosines, surdRootValue_four]
  | succ j ih =>
    refine ⟨by simpa [doubleCosines] using ih.2, ?_⟩
    have h := Real.cos_add_cos ((j + 2) * (Real.pi / 32)) (j * (Real.pi / 32))
    have e1 : ((j + 2) * (Real.pi / 32) + j * (Real.pi / 32)) / 2 = ((j : ℝ) + 1) * (Real.pi / 32) := by ring
    have e2 : ((j + 2) * (Real.pi / 32) - j * (Real.pi / 32)) / 2 = Real.pi / 32 := by ring
    rw [e1, e2] at h
    simp only [doubleCosines, surdValue_sub, surdValue_timesRoot, ih.1, ih.2, surdRootValue_four]
    push_cast
    rw [show (j : ℝ) + 1 + 1 = j + 2 by ring]
    linarith

theorem doubleCos_value (m : Nat) : surdValue (doubleCos m) = 2 * Real.cos (2 * Real.pi * m / 64) := by
  rw [doubleCos, (doubleCosines_value _).1]
  have h : ((m % 64 : ℕ) : ℝ) = m - 64 * (m / 64 : ℕ) := by
    have : ((m % 64 + 64 * (m / 64) : ℕ) : ℝ) = m := by rw [Nat.mod_add_div]
    push_cast at this ⊢; linarith
  rw [h, show (2 * Real.pi * m / 64 : ℝ) =
    ((m : ℝ) - 64 * (m / 64 : ℕ)) * (Real.pi / 32) + (m / 64 : ℕ) * (2 * Real.pi) by ring, Real.cos_add_nat_mul_two_pi]

theorem doubleSin_value (m : Nat) : surdValue (doubleSin m) = 2 * Real.sin (2 * Real.pi * m / 64) := by
  rw [doubleSin, doubleCos_value, ← Real.cos_sub_pi_div_two, ← Real.cos_add_two_pi (_ - _)]
  congr 2; push_cast; ring

/-- The scale of NORM.POLICY is the same number in both forms. -/
theorem surdPolicyScale_value (policy : BitVec 1) (x : Surd 5) :
    surdValue (surdPolicyScale policy x) = refScale policy * surdValue x := by
  unfold surdPolicyScale refScale
  split_ifs with h
  · simp
  · have h3 : (0 : ℝ) < √3 := by positivity
    have e : √(64 / 48 : ℝ) = 2 / 3 * √3 := by
      rw [show (64 / 48 : ℝ) = (2 / 3 * √3) ^ 2 by rw [mul_pow, Real.sq_sqrt (by norm_num)]; norm_num]
      exact Real.sqrt_sq (by positivity)
    simp [e]; ring

theorem surdSample_value (policy : BitVec 1) (term : Fin 64 → Surd 5) :
    surdValue (surdSample policy term) = refScale policy * (1 / 128) * ∑ k, surdValue (term k) := by
  rw [surdSample, surdPolicyScale_value, surdValue_scale, surdValue_sum, List.map_map, ← List.sum_ofFn,
    List.ofFn_eq_map]
  push_cast
  simp only [Function.comp_def]
  ring

theorem reference_term (z : ℂ) (t : ℝ) :
    (z * Complex.exp (Complex.I * t)).re = z.re * Real.cos t - z.im * Real.sin t ∧
      (z * Complex.exp (Complex.I * t)).im = z.re * Real.sin t + z.im * Real.cos t := by
  rw [mul_comm Complex.I, Complex.exp_mul_I, ← Complex.ofReal_cos, ← Complex.ofReal_sin]
  constructor <;> simp [-Complex.ofReal_cos, -Complex.ofReal_sin]

theorem refSample_parts (s : ℝ) (X : Fin 64 → ℂ) (n : Fin 64) :
    (refSample s X n).re =
        s * (1 / 64) * ∑ k : Fin 64, (X k * Complex.exp (Complex.I * (2 * Real.pi * k.val * n.val / 64 : ℝ))).re ∧
      (refSample s X n).im =
        s * (1 / 64) * ∑ k : Fin 64, (X k * Complex.exp (Complex.I * (2 * Real.pi * k.val * n.val / 64 : ℝ))).im := by
  unfold refSample
  rw [show (s : ℂ) * (1 / 64) = ((s * (1 / 64) : ℝ) : ℂ) by push_cast; rfl, Complex.re_ofReal_mul,
    Complex.im_ofReal_mul, Complex.re_sum, Complex.im_sum]
  exact ⟨rfl, rfl⟩

theorem halved_sum (s : ℝ) {f g : Fin 64 → ℝ} (h : ∀ k, f k = 2 * g k) :
    s * (1 / 128) * ∑ k, f k = s * (1 / 64) * ∑ k, g k := by
  rw [Finset.sum_congr rfl fun k _ => h k, ← Finset.mul_sum]; ring

/-- The exact real part is the reference transform's. -/
theorem referenceRe_value (X : Config.Samples) (policy : BitVec 1) (n : Fin 64) :
    surdValue (referenceRe X policy n) = (refSample (refScale policy) (complexOf X) n).re := by
  rw [(refSample_parts _ _ _).1, referenceRe, surdSample_value]
  refine halved_sum _ fun k => ?_
  simp only [reference_term, surdValue_sub, surdValue_scale, doubleCos_value, doubleSin_value, complexOf]
  rw [Nat.cast_mul, ← mul_assoc (2 * Real.pi)]
  ring

/-- The exact imaginary part is the reference transform's. -/
theorem referenceIm_value (X : Config.Samples) (policy : BitVec 1) (n : Fin 64) :
    surdValue (referenceIm X policy n) = (refSample (refScale policy) (complexOf X) n).im := by
  rw [(refSample_parts _ _ _).2, referenceIm, surdSample_value]
  refine halved_sum _ fun k => ?_
  simp only [reference_term, surdValue_add, surdValue_scale, doubleCos_value, doubleSin_value, complexOf]
  rw [Nat.cast_mul, ← mul_assoc (2 * Real.pi)]
  ring

/-- The exact bound is the bound B. -/
theorem referenceBound_value (X : Config.Samples) (policy : BitVec 1) :
    surdValue (referenceBound X policy) = refBound (refScale policy) (complexOf X) := by
  rw [referenceBound, surdPolicyScale_value, surdValue_const, refBound, ← List.ofFn_eq_map, List.sum_ofFn]
  push_cast
  simp [complexOf, mul_assoc]

end Sys2Proof.Machine
end

