-- ==== Sys2Proof/Laws/Numerics.lean ====
section
/-! SUPPORT. What the numerics of `Sys2Proof.Machine.Numerics` do: the rounding gives a nearest binary64, and a part
held to the law of 42_synthesizer.md R152 obeys it. -/

namespace Sys2Proof.Machine

@[simp] theorem partAccurate_iff {eps : ℚ} {y B : Surd 5} {v : Word} :
    partAccurate eps y B v = true ↔ |(f64Value v : ℝ) - surdValue y| ≤ eps * surdValue B := by
  simp only [partAccurate, Bool.and_eq_true, surdNonneg_iff, surdValue_sub, surdValue_add, surdValue_scale,
    surdValue_const, abs_le]
  constructor <;> rintro ⟨h1, h2⟩ <;> constructor <;> linarith

@[simp] theorem moderate_iff {X : Config.Samples} : moderate X = true ↔ Moderate X := by
  simp [moderate, Moderate, and_assoc]

theorem surdValue_abs (y : Surd 5) : surdValue (surdAbs y) = |surdValue y| := by
  unfold surdAbs
  split_ifs with h
  · rw [abs_of_nonneg ((surdNonneg_iff y).1 h)]
  · rw [surdNonneg_iff, not_le] at h
    rw [abs_of_neg h, surdValue_scale]; push_cast; ring

/-- The fields of a binary64 by its pattern without the sign. -/
theorem f64_fields (v : Word) :
    f64Exponent v = v.toNat % 2 ^ 63 / 2 ^ 52 ∧ f64Fraction v = v.toNat % 2 ^ 63 % 2 ^ 52 := by
  constructor
  · simp [f64Exponent, BitVec.extractLsb'_toNat, Nat.shiftRight_eq_div_pow]; omega
  · simp [f64Fraction, BitVec.extractLsb'_toNat]

/-- Putting a sign in front of a magnitude. -/
theorem withSign_fields {p : Nat} (sg : Bool) (hp : p < 2 ^ 63) :
    (withSign sg (BitVec.ofNat 64 p)).toNat % 2 ^ 63 = p ∧ (withSign sg (BitVec.ofNat 64 p)).getLsbD 63 = sg := by
  unfold withSign
  cases sg
  · refine ⟨by simp; omega, ?_⟩
    rw [if_neg (by simp), BitVec.getLsbD_ofNat, Nat.testBit_lt_two_pow hp]; rfl
  · refine ⟨?_, ?_⟩
    · rw [if_pos rfl, BitVec.toNat_or, Nat.or_mod_two_pow]
      simp; omega
    · rw [if_pos rfl, BitVec.getLsbD_or, show BitVec.getLsbD (0x8000000000000000 : Word) 63 = true from rfl, Bool.or_true]

/-- The value of a magnitude from its exponent and fraction. -/
theorem magnitudeValue_eq {p : Nat} (hp : p < 2 ^ 63) :
    magnitudeValue p =
      ((if p / 2 ^ 52 = 0 then p % 2 ^ 52 else 2 ^ 52 + p % 2 ^ 52 : ℕ) : ℚ) *
        2 ^ (((max (p / 2 ^ 52) 1 : ℕ) : ℤ) - 1075) := by
  obtain ⟨h1, h2⟩ := f64_fields (BitVec.ofNat 64 p)
  obtain ⟨h3, h4⟩ := withSign_fields false hp
  rw [show withSign false (BitVec.ofNat 64 p) = BitVec.ofNat 64 p from rfl] at h3 h4
  rw [h3] at h1 h2
  rw [magnitudeValue, f64Value, f64Significand, f64LastPlace, h1, h2, h4]
  simp only [Bool.false_eq_true, if_false, one_mul]

/-- A binary64 is finite when its pattern without the sign is below that of the infinities. -/
theorem f64Finite_iff (v : Word) : f64Finite v = true ↔ v.toNat % 2 ^ 63 < 0x7FF0000000000000 := by
  rw [f64Finite, decide_eq_true_iff, (f64_fields v).1]; omega

/-- The value of a binary64 is a magnitude with a sign. -/
theorem f64Value_eq (v : Word) :
    f64Value v = (if v.getLsbD 63 = true then -1 else 1) * magnitudeValue (v.toNat % 2 ^ 63) := by
  rw [magnitudeValue_eq (Nat.mod_lt _ (by norm_num)), f64Value, f64Significand, f64LastPlace, (f64_fields v).1,
    (f64_fields v).2, mul_assoc]

/-- The next magnitude is one last place above. -/
theorem magnitudeValue_succ {p : Nat} (hp : p + 1 < 2 ^ 63) :
    magnitudeValue (p + 1) = magnitudeValue p + 2 ^ (((max (p / 2 ^ 52) 1 : ℕ) : ℤ) - 1075) := by
  rw [magnitudeValue_eq hp, magnitudeValue_eq (Nat.lt_of_succ_lt hp)]
  rcases Nat.lt_or_ge (p % 2 ^ 52 + 1) (2 ^ 52) with h | h
  · rw [show (p + 1) / 2 ^ 52 = p / 2 ^ 52 by omega, show (p + 1) % 2 ^ 52 = p % 2 ^ 52 + 1 by omega]
    split_ifs <;> push_cast <;> ring
  · rw [show (p + 1) / 2 ^ 52 = p / 2 ^ 52 + 1 by omega, show (p + 1) % 2 ^ 52 = 0 by omega,
      show p % 2 ^ 52 = 2 ^ 52 - 1 by omega, if_neg (by omega)]
    split_ifs with h0
    · rw [h0, show max 0 1 = 1 from rfl, show max (0 + 1) 1 = 1 from rfl]
      norm_num only [Nat.cast_add, Nat.cast_sub, Nat.cast_ofNat, Nat.cast_one]; ring
    · rw [max_eq_left (by omega), max_eq_left (by omega : 1 ≤ p / 2 ^ 52),
        show ((p / 2 ^ 52 + 1 : ℕ) : ℤ) - 1075 = ((p / 2 ^ 52 : ℕ) : ℤ) - 1075 + 1 by push_cast; ring,
        zpow_add₀ (by norm_num)]
      push_cast; ring

theorem magnitudeValue_zero : magnitudeValue 0 = 0 := by rw [magnitudeValue_eq (by norm_num)]; norm_num

/-- The magnitudes rise with the pattern. -/
theorem magnitudeValue_mono {p q : Nat} (hq : q < 2 ^ 63) (h : p ≤ q) : magnitudeValue p ≤ magnitudeValue q := by
  induction q, h using Nat.le_induction with
  | base => rfl
  | succ q _ ih =>
    rw [magnitudeValue_succ hq]
    have := ih (by omega)
    have : (0 : ℚ) < 2 ^ (((max (q / 2 ^ 52) 1 : ℕ) : ℤ) - 1075) := by positivity
    linarith

theorem magnitudeValue_nonneg {p : Nat} (hp : p < 2 ^ 63) : 0 ≤ magnitudeValue p := by
  rw [← magnitudeValue_zero]; exact magnitudeValue_mono hp (Nat.zero_le p)

/-- The search keeps a finite magnitude at most a, and ends where the next one would not do. -/
theorem floorSearch_spec (a : Surd 5) : ∀ (i p : Nat), p < 0x7FF0000000000000 → (magnitudeValue p : ℝ) ≤ surdValue a →
    (p + 2 ^ i < 0x7FF0000000000000 → surdValue a < magnitudeValue (p + 2 ^ i)) →
    floorSearch a i p < 0x7FF0000000000000 ∧ (magnitudeValue (floorSearch a i p) : ℝ) ≤ surdValue a ∧
      (floorSearch a i p + 1 < 0x7FF0000000000000 → surdValue a < magnitudeValue (floorSearch a i p + 1))
  | 0, p, hp, hle, hlt => ⟨hp, hle, hlt⟩
  | i + 1, p, hp, hle, hlt => by
    unfold floorSearch
    simp only [surdNonneg_iff, surdValue_sub, surdValue_const, sub_nonneg]
    split_ifs with h
    · refine floorSearch_spec a i _ h.1 h.2 fun h' => ?_
      rw [show p + 2 ^ i + 2 ^ i = p + 2 ^ (i + 1) by rw [pow_succ]; ring] at h' ⊢
      exact hlt h'
    · refine floorSearch_spec a i _ hp hle fun h' => ?_
      rw [not_and, not_le] at h
      exact h h'

/-- `floorPattern a` is the largest finite magnitude that is at most a. -/
theorem floorPattern_spec {a : Surd 5} (ha : 0 ≤ surdValue a) :
    floorPattern a < 0x7FF0000000000000 ∧ (magnitudeValue (floorPattern a) : ℝ) ≤ surdValue a ∧
      (floorPattern a + 1 < 0x7FF0000000000000 → surdValue a < magnitudeValue (floorPattern a + 1)) :=
  floorSearch_spec a 63 0 (by norm_num) (by simpa [magnitudeValue_zero] using ha) (by norm_num)

/-- No finite magnitude is nearer to a than `nearerPattern` of its floor. -/
theorem nearerPattern_spec {a : Surd 5} (ha : 0 ≤ surdValue a) :
    nearerPattern a (floorPattern a) < 0x7FF0000000000000 ∧
      ∀ q < 0x7FF0000000000000, |(magnitudeValue (nearerPattern a (floorPattern a)) : ℝ) - surdValue a| ≤
        |(magnitudeValue q : ℝ) - surdValue a| := by
  obtain ⟨hp, hle, hlt⟩ := floorPattern_spec ha
  generalize floorPattern a = p at *
  have far : ∀ q < 0x7FF0000000000000, (magnitudeValue q : ℝ) ≤ magnitudeValue p ∨
      (p + 1 < 0x7FF0000000000000 ∧ (magnitudeValue (p + 1) : ℝ) ≤ magnitudeValue q) := fun q hq => by
    rcases Nat.lt_or_ge p q with h | h
    · exact .inr ⟨by omega, by exact_mod_cast magnitudeValue_mono (by omega) h⟩
    · exact .inl (by exact_mod_cast magnitudeValue_mono (by omega) h)
  unfold nearerPattern
  simp only [surdNonneg_iff, ← Bool.not_eq_true, surdValue_sub, surdValue_scale, surdValue_const, sub_nonneg]
  push_cast
  split_ifs with h
  · refine ⟨h.1, fun q hq => ?_⟩
    have h1 := hlt h.1
    rw [abs_of_pos (by linarith)]
    rcases far q hq with h' | ⟨_, h'⟩
    · rw [abs_sub_comm, abs_of_nonneg (by linarith)]; linarith [h.2.1]
    · rw [abs_of_nonneg (by linarith)]; linarith
  · refine ⟨hp, fun q hq => ?_⟩
    rw [abs_sub_comm, abs_of_nonneg (by linarith)]
    rcases far q hq with h' | ⟨h1, h'⟩
    · rw [abs_sub_comm, abs_of_nonneg (by linarith)]; linarith
    · have h2 := hlt h1
      rw [abs_of_nonneg (by linarith)]
      have : 2 * surdValue a ≤ magnitudeValue p + magnitudeValue (p + 1) := by
        by_contra hc
        exact h ⟨h1, by linarith, .inl (by linarith)⟩
      linarith

/-- `roundSurd y` is finite, and no finite binary64 is nearer to y. -/
theorem roundSurd_spec (y : Surd 5) :
    f64Finite (roundSurd y) = true ∧ ∀ v, f64Finite v = true →
      |(f64Value (roundSurd y) : ℝ) - surdValue y| ≤ |(f64Value v : ℝ) - surdValue y| := by
  obtain ⟨hp, hnear⟩ := nearerPattern_spec (a := surdAbs y) (by rw [surdValue_abs]; exact abs_nonneg _)
  rw [surdValue_abs] at hnear
  obtain ⟨hmag, hsign⟩ := withSign_fields (!surdNonneg y) (hp.trans (by norm_num))
  rw [← roundSurd] at hmag hsign
  refine ⟨by rw [f64Finite_iff, hmag]; exact hp, fun v hv => ?_⟩
  have hm : |(f64Value v : ℝ)| = magnitudeValue (v.toNat % 2 ^ 63) := by
    have h0 : (0 : ℝ) ≤ magnitudeValue (v.toNat % 2 ^ 63) := by
      exact_mod_cast magnitudeValue_nonneg (Nat.mod_lt v.toNat (show 2 ^ 63 > 0 by norm_num))
    rw [f64Value_eq, Rat.cast_mul, abs_mul, abs_of_nonneg h0]
    split_ifs <;> simp
  refine le_trans (le_of_eq ?_) ((hnear _ ((f64Finite_iff v).1 hv)).trans (hm ▸ abs_abs_sub_abs_le _ _))
  rw [f64Value_eq, hmag, hsign]
  by_cases h : 0 ≤ surdValue y
  · rw [(surdNonneg_iff y).2 h, abs_of_nonneg h]; simp
  · rw [Bool.eq_false_iff.2 (mt (surdNonneg_iff y).1 h), abs_of_neg (not_le.1 h), abs_sub_comm]
    push_cast; simp; congr 1; ring

/-- A part held to the law obeys it. -/
theorem lawfulPart_lawful (eps : ℚ) (y B : Surd 5) (v : Word) :
    PartLawful (lawfulPart eps y B v) eps (surdValue y) (surdValue B) := by
  obtain ⟨hfin, hnear⟩ := roundSurd_spec y
  unfold lawfulPart
  simp only [Bool.and_eq_true, partAccurate_iff]
  split_ifs with h1 h2 h3
  · exact ⟨h1.1, fun _ => h1.2⟩
  · exact ⟨hfin, fun _ => h2⟩
  · exact ⟨h3, fun ⟨w, hw, hb⟩ => absurd ((hnear w hw).trans hb) h2⟩
  · exact ⟨hfin, fun ⟨w, hw, hb⟩ => (hnear w hw).trans hb⟩

/-- A part that obeys the law is not changed. -/
theorem lawfulPart_of_lawful {eps : ℚ} {y B : Surd 5} {v : Word}
    (h : PartLawful v eps (surdValue y) (surdValue B)) : lawfulPart eps y B v = v := by
  obtain ⟨hfin, _⟩ := roundSurd_spec y
  unfold lawfulPart
  simp only [Bool.and_eq_true, partAccurate_iff]
  split_ifs with h1 h2
  · rfl
  · exact absurd ⟨h.1, h.2 ⟨_, hfin, h2⟩⟩ h1
  · rfl
  · exact absurd h.1 ‹_›

end Sys2Proof.Machine
end

