-- ==== Sys2Proof/Laws/State.lean ====
section
/-! SUPPORT. One lemma per field of State per record update of the model, each true by rfl: later proofs
rewrite with these and unfold no update. -/

namespace Sys2Proof.Machine

variable (s : State)

@[simp] theorem succeed_eq_finish (op : Byte) : s.succeed op = s.finish op 0 0 0 := rfl
@[simp] theorem fail_eq_finish (op : Byte) (e : CommandError) :
    s.fail op e = s.finish op e.code e.sub e.info := rfl
@[simp] theorem assembleWrites_eq : assembleWrites s = assembleWritesWith s.params s := rfl
@[simp] theorem synthWrites_eq : synthWrites s = synthWritesWith synthImpl s := rfl
@[simp] theorem runWrites_eq : runWrites s = synthWrites (assembleWrites (mapWrites s)) := rfl
@[simp] theorem execSynth_eq : execSynth s = execSynthWith synthImpl s := rfl
@[simp] theorem execRun_eq : execRun s = execRunWith synthImpl s := rfl

section
variable (op : Byte) (code sub : BitVec 4) (info : Word)
@[simp] theorem finish_ie : (s.finish op code sub info).ie = s.ie := rfl
@[simp] theorem finish_done : (s.finish op code sub info).done = true := rfl
@[simp] theorem finish_wrbusy : (s.finish op code sub info).wrbusy = s.wrbusy := rfl
@[simp] theorem finish_errcode : (s.finish op code sub info).errcode = code := rfl
@[simp] theorem finish_errsub : (s.finish op code sub info).errsub = sub := rfl
@[simp] theorem finish_lastop : (s.finish op code sub info).lastop = op := rfl
@[simp] theorem finish_errinfo : (s.finish op code sub info).errinfo = info := rfl
@[simp] theorem finish_policy : (s.finish op code sub info).policy = s.policy := rfl
@[simp] theorem finish_cpfrac : (s.finish op code sub info).cpfrac = s.cpfrac := rfl
@[simp] theorem finish_pilotRe : (s.finish op code sub info).pilotRe = s.pilotRe := rfl
@[simp] theorem finish_pilotIm : (s.finish op code sub info).pilotIm = s.pilotIm := rfl
@[simp] theorem finish_bitlen : (s.finish op code sub info).bitlen = s.bitlen := rfl
@[simp] theorem finish_symcnt : (s.finish op code sub info).symcnt = s.symcnt := rfl
@[simp] theorem finish_freqlen : (s.finish op code sub info).freqlen = s.freqlen := rfl
@[simp] theorem finish_outlen : (s.finish op code sub info).outlen = s.outlen := rfl
@[simp] theorem finish_bitbuf : (s.finish op code sub info).bitbuf = s.bitbuf := rfl
@[simp] theorem finish_symCode : (s.finish op code sub info).symCode = s.symCode := rfl
@[simp] theorem finish_symRe : (s.finish op code sub info).symRe = s.symRe := rfl
@[simp] theorem finish_symIm : (s.finish op code sub info).symIm = s.symIm := rfl
@[simp] theorem finish_symMag : (s.finish op code sub info).symMag = s.symMag := rfl
@[simp] theorem finish_symPh : (s.finish op code sub info).symPh = s.symPh := rfl
@[simp] theorem finish_freqRe : (s.finish op code sub info).freqRe = s.freqRe := rfl
@[simp] theorem finish_freqIm : (s.finish op code sub info).freqIm = s.freqIm := rfl
@[simp] theorem finish_outRe : (s.finish op code sub info).outRe = s.outRe := rfl
@[simp] theorem finish_outIm : (s.finish op code sub info).outIm = s.outIm := rfl
@[simp] theorem finish_seq : (s.finish op code sub info).seq = .idle := rfl
@[simp] theorem finish_pend : (s.finish op code sub info).pend = s.pend := rfl
@[simp] theorem finish_inputs : (s.finish op code sub info).inputs = s.inputs := rfl
@[simp] theorem finish_replies : (s.finish op code sub info).replies = s.replies := rfl
@[simp] theorem finish_wait : (s.finish op code sub info).wait = 0 := rfl
@[simp] theorem finish_draws : (s.finish op code sub info).draws = s.draws := rfl
@[simp] theorem finish_params : (s.finish op code sub info).params = s.params := rfl
end

section
variable (v : Word)
@[simp] theorem accept_ie : (s.accept v).ie = s.ie := rfl
@[simp] theorem accept_done : (s.accept v).done = false := rfl
@[simp] theorem accept_wrbusy : (s.accept v).wrbusy = s.wrbusy := rfl
@[simp] theorem accept_errcode : (s.accept v).errcode = 0 := rfl
@[simp] theorem accept_errsub : (s.accept v).errsub = 0 := rfl
@[simp] theorem accept_lastop : (s.accept v).lastop = s.lastop := rfl
@[simp] theorem accept_errinfo : (s.accept v).errinfo = 0 := rfl
@[simp] theorem accept_policy : (s.accept v).policy = s.policy := rfl
@[simp] theorem accept_cpfrac : (s.accept v).cpfrac = s.cpfrac := rfl
@[simp] theorem accept_pilotRe : (s.accept v).pilotRe = s.pilotRe := rfl
@[simp] theorem accept_pilotIm : (s.accept v).pilotIm = s.pilotIm := rfl
@[simp] theorem accept_bitlen : (s.accept v).bitlen = s.bitlen := rfl
@[simp] theorem accept_symcnt : (s.accept v).symcnt = s.symcnt := rfl
@[simp] theorem accept_freqlen : (s.accept v).freqlen = s.freqlen := rfl
@[simp] theorem accept_outlen : (s.accept v).outlen = s.outlen := rfl
@[simp] theorem accept_bitbuf : (s.accept v).bitbuf = s.bitbuf := rfl
@[simp] theorem accept_symCode : (s.accept v).symCode = s.symCode := rfl
@[simp] theorem accept_symRe : (s.accept v).symRe = s.symRe := rfl
@[simp] theorem accept_symIm : (s.accept v).symIm = s.symIm := rfl
@[simp] theorem accept_symMag : (s.accept v).symMag = s.symMag := rfl
@[simp] theorem accept_symPh : (s.accept v).symPh = s.symPh := rfl
@[simp] theorem accept_freqRe : (s.accept v).freqRe = s.freqRe := rfl
@[simp] theorem accept_freqIm : (s.accept v).freqIm = s.freqIm := rfl
@[simp] theorem accept_outRe : (s.accept v).outRe = s.outRe := rfl
@[simp] theorem accept_outIm : (s.accept v).outIm = s.outIm := rfl
@[simp] theorem accept_seq : (s.accept v).seq = .busy := rfl
@[simp] theorem accept_pend : (s.accept v).pend = v := rfl
@[simp] theorem accept_inputs : (s.accept v).inputs = s.inputs := rfl
@[simp] theorem accept_replies : (s.accept v).replies = s.replies := rfl
@[simp] theorem accept_wait : (s.accept v).wait = Config.latency s.draws := rfl
@[simp] theorem accept_draws : (s.accept v).draws = s.draws + 1 := rfl
@[simp] theorem accept_params : (s.accept v).params = s.params := rfl
end

section
variable (v : Word)
@[simp] theorem acknowledge_ie : (s.acknowledge v).ie = s.ie := rfl
@[simp] theorem acknowledge_done : (s.acknowledge v).done = (s.done && !(v.getLsbD 1)) := rfl
@[simp] theorem acknowledge_wrbusy : (s.acknowledge v).wrbusy = (s.wrbusy && !(v.getLsbD 3)) := rfl
@[simp] theorem acknowledge_errcode : (s.acknowledge v).errcode = s.errcode := rfl
@[simp] theorem acknowledge_errsub : (s.acknowledge v).errsub = s.errsub := rfl
@[simp] theorem acknowledge_lastop : (s.acknowledge v).lastop = s.lastop := rfl
@[simp] theorem acknowledge_errinfo : (s.acknowledge v).errinfo = s.errinfo := rfl
@[simp] theorem acknowledge_policy : (s.acknowledge v).policy = s.policy := rfl
@[simp] theorem acknowledge_cpfrac : (s.acknowledge v).cpfrac = s.cpfrac := rfl
@[simp] theorem acknowledge_pilotRe : (s.acknowledge v).pilotRe = s.pilotRe := rfl
@[simp] theorem acknowledge_pilotIm : (s.acknowledge v).pilotIm = s.pilotIm := rfl
@[simp] theorem acknowledge_bitlen : (s.acknowledge v).bitlen = s.bitlen := rfl
@[simp] theorem acknowledge_symcnt : (s.acknowledge v).symcnt = s.symcnt := rfl
@[simp] theorem acknowledge_freqlen : (s.acknowledge v).freqlen = s.freqlen := rfl
@[simp] theorem acknowledge_outlen : (s.acknowledge v).outlen = s.outlen := rfl
@[simp] theorem acknowledge_bitbuf : (s.acknowledge v).bitbuf = s.bitbuf := rfl
@[simp] theorem acknowledge_symCode : (s.acknowledge v).symCode = s.symCode := rfl
@[simp] theorem acknowledge_symRe : (s.acknowledge v).symRe = s.symRe := rfl
@[simp] theorem acknowledge_symIm : (s.acknowledge v).symIm = s.symIm := rfl
@[simp] theorem acknowledge_symMag : (s.acknowledge v).symMag = s.symMag := rfl
@[simp] theorem acknowledge_symPh : (s.acknowledge v).symPh = s.symPh := rfl
@[simp] theorem acknowledge_freqRe : (s.acknowledge v).freqRe = s.freqRe := rfl
@[simp] theorem acknowledge_freqIm : (s.acknowledge v).freqIm = s.freqIm := rfl
@[simp] theorem acknowledge_outRe : (s.acknowledge v).outRe = s.outRe := rfl
@[simp] theorem acknowledge_outIm : (s.acknowledge v).outIm = s.outIm := rfl
@[simp] theorem acknowledge_seq : (s.acknowledge v).seq = s.seq := rfl
@[simp] theorem acknowledge_pend : (s.acknowledge v).pend = s.pend := rfl
@[simp] theorem acknowledge_inputs : (s.acknowledge v).inputs = s.inputs := rfl
@[simp] theorem acknowledge_replies : (s.acknowledge v).replies = s.replies := rfl
@[simp] theorem acknowledge_wait : (s.acknowledge v).wait = s.wait := rfl
@[simp] theorem acknowledge_draws : (s.acknowledge v).draws = s.draws := rfl
@[simp] theorem acknowledge_params : (s.acknowledge v).params = s.params := rfl
end

section
@[simp] theorem mapWrites_ie : (mapWrites s).ie = s.ie := rfl
@[simp] theorem mapWrites_done : (mapWrites s).done = s.done := rfl
@[simp] theorem mapWrites_wrbusy : (mapWrites s).wrbusy = s.wrbusy := rfl
@[simp] theorem mapWrites_errcode : (mapWrites s).errcode = s.errcode := rfl
@[simp] theorem mapWrites_errsub : (mapWrites s).errsub = s.errsub := rfl
@[simp] theorem mapWrites_lastop : (mapWrites s).lastop = s.lastop := rfl
@[simp] theorem mapWrites_errinfo : (mapWrites s).errinfo = s.errinfo := rfl
@[simp] theorem mapWrites_policy : (mapWrites s).policy = s.policy := rfl
@[simp] theorem mapWrites_cpfrac : (mapWrites s).cpfrac = s.cpfrac := rfl
@[simp] theorem mapWrites_pilotRe : (mapWrites s).pilotRe = s.pilotRe := rfl
@[simp] theorem mapWrites_pilotIm : (mapWrites s).pilotIm = s.pilotIm := rfl
@[simp] theorem mapWrites_bitlen : (mapWrites s).bitlen = s.bitlen := rfl
@[simp] theorem mapWrites_symcnt : (mapWrites s).symcnt = 48 := rfl
@[simp] theorem mapWrites_freqlen : (mapWrites s).freqlen = s.freqlen := rfl
@[simp] theorem mapWrites_outlen : (mapWrites s).outlen = s.outlen := rfl
@[simp] theorem mapWrites_bitbuf : (mapWrites s).bitbuf = s.bitbuf := rfl
@[simp] theorem mapWrites_symCode : (mapWrites s).symCode = Vector.ofFn fun g => groupCode s.bitbuf g := rfl
@[simp] theorem mapWrites_symRe : (mapWrites s).symRe = Vector.ofFn fun g => (s.rom (groupCode s.bitbuf g)).re := rfl
@[simp] theorem mapWrites_symIm : (mapWrites s).symIm = Vector.ofFn fun g => (s.rom (groupCode s.bitbuf g)).im := rfl
@[simp] theorem mapWrites_symMag : (mapWrites s).symMag = Vector.ofFn fun g => (s.rom (groupCode s.bitbuf g)).mag := rfl
@[simp] theorem mapWrites_symPh : (mapWrites s).symPh = Vector.ofFn fun g => (s.rom (groupCode s.bitbuf g)).ph := rfl
@[simp] theorem mapWrites_freqRe : (mapWrites s).freqRe = s.freqRe := rfl
@[simp] theorem mapWrites_freqIm : (mapWrites s).freqIm = s.freqIm := rfl
@[simp] theorem mapWrites_outRe : (mapWrites s).outRe = s.outRe := rfl
@[simp] theorem mapWrites_outIm : (mapWrites s).outIm = s.outIm := rfl
@[simp] theorem mapWrites_seq : (mapWrites s).seq = s.seq := rfl
@[simp] theorem mapWrites_pend : (mapWrites s).pend = s.pend := rfl
@[simp] theorem mapWrites_inputs : (mapWrites s).inputs = s.inputs := rfl
@[simp] theorem mapWrites_replies : (mapWrites s).replies = s.replies := rfl
@[simp] theorem mapWrites_wait : (mapWrites s).wait = s.wait := rfl
@[simp] theorem mapWrites_draws : (mapWrites s).draws = s.draws := rfl
@[simp] theorem mapWrites_params : (mapWrites s).params = s.params := rfl
end

section
variable (P : Config.Params)
@[simp] theorem assembleWritesWith_ie : (assembleWritesWith P s).ie = s.ie := rfl
@[simp] theorem assembleWritesWith_done : (assembleWritesWith P s).done = s.done := rfl
@[simp] theorem assembleWritesWith_wrbusy : (assembleWritesWith P s).wrbusy = s.wrbusy := rfl
@[simp] theorem assembleWritesWith_errcode : (assembleWritesWith P s).errcode = s.errcode := rfl
@[simp] theorem assembleWritesWith_errsub : (assembleWritesWith P s).errsub = s.errsub := rfl
@[simp] theorem assembleWritesWith_lastop : (assembleWritesWith P s).lastop = s.lastop := rfl
@[simp] theorem assembleWritesWith_errinfo : (assembleWritesWith P s).errinfo = s.errinfo := rfl
@[simp] theorem assembleWritesWith_policy : (assembleWritesWith P s).policy = s.policy := rfl
@[simp] theorem assembleWritesWith_cpfrac : (assembleWritesWith P s).cpfrac = s.cpfrac := rfl
@[simp] theorem assembleWritesWith_pilotRe : (assembleWritesWith P s).pilotRe = s.pilotRe := rfl
@[simp] theorem assembleWritesWith_pilotIm : (assembleWritesWith P s).pilotIm = s.pilotIm := rfl
@[simp] theorem assembleWritesWith_bitlen : (assembleWritesWith P s).bitlen = s.bitlen := rfl
@[simp] theorem assembleWritesWith_symcnt : (assembleWritesWith P s).symcnt = s.symcnt := rfl
@[simp] theorem assembleWritesWith_freqlen : (assembleWritesWith P s).freqlen = 64 := rfl
@[simp] theorem assembleWritesWith_outlen : (assembleWritesWith P s).outlen = s.outlen := rfl
@[simp] theorem assembleWritesWith_bitbuf : (assembleWritesWith P s).bitbuf = s.bitbuf := rfl
@[simp] theorem assembleWritesWith_symCode : (assembleWritesWith P s).symCode = s.symCode := rfl
@[simp] theorem assembleWritesWith_symRe : (assembleWritesWith P s).symRe = s.symRe := rfl
@[simp] theorem assembleWritesWith_symIm : (assembleWritesWith P s).symIm = s.symIm := rfl
@[simp] theorem assembleWritesWith_symMag : (assembleWritesWith P s).symMag = s.symMag := rfl
@[simp] theorem assembleWritesWith_symPh : (assembleWritesWith P s).symPh = s.symPh := rfl
@[simp] theorem assembleWritesWith_freqRe : (assembleWritesWith P s).freqRe = assembledBins P s.symRe s.pilotRe := rfl
@[simp] theorem assembleWritesWith_freqIm : (assembleWritesWith P s).freqIm = assembledBins P s.symIm s.pilotIm := rfl
@[simp] theorem assembleWritesWith_outRe : (assembleWritesWith P s).outRe = s.outRe := rfl
@[simp] theorem assembleWritesWith_outIm : (assembleWritesWith P s).outIm = s.outIm := rfl
@[simp] theorem assembleWritesWith_seq : (assembleWritesWith P s).seq = s.seq := rfl
@[simp] theorem assembleWritesWith_pend : (assembleWritesWith P s).pend = s.pend := rfl
@[simp] theorem assembleWritesWith_inputs : (assembleWritesWith P s).inputs = s.inputs := rfl
@[simp] theorem assembleWritesWith_replies : (assembleWritesWith P s).replies = s.replies := rfl
@[simp] theorem assembleWritesWith_wait : (assembleWritesWith P s).wait = s.wait := rfl
@[simp] theorem assembleWritesWith_draws : (assembleWritesWith P s).draws = s.draws := rfl
@[simp] theorem assembleWritesWith_params : (assembleWritesWith P s).params = s.params := rfl
end

section
variable (impl : Config.SynthImpl)
@[simp] theorem synthWritesWith_ie : (synthWritesWith impl s).ie = s.ie := rfl
@[simp] theorem synthWritesWith_done : (synthWritesWith impl s).done = s.done := rfl
@[simp] theorem synthWritesWith_wrbusy : (synthWritesWith impl s).wrbusy = s.wrbusy := rfl
@[simp] theorem synthWritesWith_errcode : (synthWritesWith impl s).errcode = s.errcode := rfl
@[simp] theorem synthWritesWith_errsub : (synthWritesWith impl s).errsub = s.errsub := rfl
@[simp] theorem synthWritesWith_lastop : (synthWritesWith impl s).lastop = s.lastop := rfl
@[simp] theorem synthWritesWith_errinfo : (synthWritesWith impl s).errinfo = s.errinfo := rfl
@[simp] theorem synthWritesWith_policy : (synthWritesWith impl s).policy = s.policy := rfl
@[simp] theorem synthWritesWith_cpfrac : (synthWritesWith impl s).cpfrac = s.cpfrac := rfl
@[simp] theorem synthWritesWith_pilotRe : (synthWritesWith impl s).pilotRe = s.pilotRe := rfl
@[simp] theorem synthWritesWith_pilotIm : (synthWritesWith impl s).pilotIm = s.pilotIm := rfl
@[simp] theorem synthWritesWith_bitlen : (synthWritesWith impl s).bitlen = s.bitlen := rfl
@[simp] theorem synthWritesWith_symcnt : (synthWritesWith impl s).symcnt = s.symcnt := rfl
@[simp] theorem synthWritesWith_freqlen : (synthWritesWith impl s).freqlen = s.freqlen := rfl
@[simp] theorem synthWritesWith_outlen : (synthWritesWith impl s).outlen = BitVec.ofNat 16 (64 + (cpLen s.cpfrac).val) := rfl
@[simp] theorem synthWritesWith_bitbuf : (synthWritesWith impl s).bitbuf = s.bitbuf := rfl
@[simp] theorem synthWritesWith_symCode : (synthWritesWith impl s).symCode = s.symCode := rfl
@[simp] theorem synthWritesWith_symRe : (synthWritesWith impl s).symRe = s.symRe := rfl
@[simp] theorem synthWritesWith_symIm : (synthWritesWith impl s).symIm = s.symIm := rfl
@[simp] theorem synthWritesWith_symMag : (synthWritesWith impl s).symMag = s.symMag := rfl
@[simp] theorem synthWritesWith_symPh : (synthWritesWith impl s).symPh = s.symPh := rfl
@[simp] theorem synthWritesWith_freqRe : (synthWritesWith impl s).freqRe = s.freqRe := rfl
@[simp] theorem synthWritesWith_freqIm : (synthWritesWith impl s).freqIm = s.freqIm := rfl
@[simp] theorem synthWritesWith_outRe : (synthWritesWith impl s).outRe = outputArray (cpLen s.cpfrac) ((impl (subcarrierVector s) s.policy).map Prod.fst) s.outRe := rfl
@[simp] theorem synthWritesWith_outIm : (synthWritesWith impl s).outIm = outputArray (cpLen s.cpfrac) ((impl (subcarrierVector s) s.policy).map Prod.snd) s.outIm := rfl
@[simp] theorem synthWritesWith_seq : (synthWritesWith impl s).seq = s.seq := rfl
@[simp] theorem synthWritesWith_pend : (synthWritesWith impl s).pend = s.pend := rfl
@[simp] theorem synthWritesWith_inputs : (synthWritesWith impl s).inputs = s.inputs := rfl
@[simp] theorem synthWritesWith_replies : (synthWritesWith impl s).replies = s.replies := rfl
@[simp] theorem synthWritesWith_wait : (synthWritesWith impl s).wait = s.wait := rfl
@[simp] theorem synthWritesWith_draws : (synthWritesWith impl s).draws = s.draws := rfl
@[simp] theorem synthWritesWith_params : (synthWritesWith impl s).params = s.params := rfl
end

section
variable (v : Word)
@[simp] theorem withPending_ie : (s.withPending v).ie = s.ie := rfl
@[simp] theorem withPending_done : (s.withPending v).done = s.done := rfl
@[simp] theorem withPending_wrbusy : (s.withPending v).wrbusy = s.wrbusy := rfl
@[simp] theorem withPending_errcode : (s.withPending v).errcode = s.errcode := rfl
@[simp] theorem withPending_errsub : (s.withPending v).errsub = s.errsub := rfl
@[simp] theorem withPending_lastop : (s.withPending v).lastop = s.lastop := rfl
@[simp] theorem withPending_errinfo : (s.withPending v).errinfo = s.errinfo := rfl
@[simp] theorem withPending_policy : (s.withPending v).policy = s.policy := rfl
@[simp] theorem withPending_cpfrac : (s.withPending v).cpfrac = s.cpfrac := rfl
@[simp] theorem withPending_pilotRe : (s.withPending v).pilotRe = s.pilotRe := rfl
@[simp] theorem withPending_pilotIm : (s.withPending v).pilotIm = s.pilotIm := rfl
@[simp] theorem withPending_bitlen : (s.withPending v).bitlen = s.bitlen := rfl
@[simp] theorem withPending_symcnt : (s.withPending v).symcnt = s.symcnt := rfl
@[simp] theorem withPending_freqlen : (s.withPending v).freqlen = s.freqlen := rfl
@[simp] theorem withPending_outlen : (s.withPending v).outlen = s.outlen := rfl
@[simp] theorem withPending_bitbuf : (s.withPending v).bitbuf = s.bitbuf := rfl
@[simp] theorem withPending_symCode : (s.withPending v).symCode = s.symCode := rfl
@[simp] theorem withPending_symRe : (s.withPending v).symRe = s.symRe := rfl
@[simp] theorem withPending_symIm : (s.withPending v).symIm = s.symIm := rfl
@[simp] theorem withPending_symMag : (s.withPending v).symMag = s.symMag := rfl
@[simp] theorem withPending_symPh : (s.withPending v).symPh = s.symPh := rfl
@[simp] theorem withPending_freqRe : (s.withPending v).freqRe = s.freqRe := rfl
@[simp] theorem withPending_freqIm : (s.withPending v).freqIm = s.freqIm := rfl
@[simp] theorem withPending_outRe : (s.withPending v).outRe = s.outRe := rfl
@[simp] theorem withPending_outIm : (s.withPending v).outIm = s.outIm := rfl
@[simp] theorem withPending_seq : (s.withPending v).seq = .busy := rfl
@[simp] theorem withPending_pend : (s.withPending v).pend = v := rfl
@[simp] theorem withPending_inputs : (s.withPending v).inputs = s.inputs := rfl
@[simp] theorem withPending_replies : (s.withPending v).replies = s.replies := rfl
@[simp] theorem withPending_wait : (s.withPending v).wait = 0 := rfl
@[simp] theorem withPending_draws : (s.withPending v).draws = s.draws := rfl
@[simp] theorem withPending_params : (s.withPending v).params = s.params := rfl
end

section
variable (v : Word)
@[simp] theorem resetAt_params (k : Nat) : (State.resetAt k).params = defaultParams := rfl
@[simp] theorem platformReset_params : s.platformReset.params = s.params := rfl
@[simp] theorem countAccess_params : s.countAccess.params = s.params := by unfold State.countAccess; split <;> rfl
@[simp] theorem writeAt_params (l : Location) : (s.writeAt v l).params = s.params := by cases l <;> rfl
@[simp] theorem hostWrite_params (off : Nat) : (s.hostWrite off v).params = s.params := by
  unfold State.hostWrite; split
  · rfl
  · exact writeAt_params s v _
@[simp] theorem hostRead_params (off : Nat) : (s.hostRead off).2.params = s.params := by
  unfold State.hostRead; split <;> rfl
end

end Sys2Proof.Machine
end

