-- ==== Sys2Proof/Laws/Ops.lean ====
section
/-! SUPPORT. One lemma per shared operation that says once everything it can do; later proofs cite it and do
not unfold the operation. -/

namespace Sys2Proof.Machine

/-! ### Characters -/

theorem isBinary_iff (ch : Byte) : isBinary ch = true ↔ ch = 0x30 ∨ ch = 0x31 := by
  simp [isBinary]

theorem firstNonBinary_none_iff (p : Nat) (l : List Byte) :
    firstNonBinary p l = none ↔ ∀ ch ∈ l, isBinary ch = true := by
  induction l generalizing p with
  | nil => simp [firstNonBinary]
  | cons x xs ih =>
    by_cases hx : isBinary x = true <;> simp [firstNonBinary, hx, ih]

theorem firstNonBinary_append (p : Nat) (l : List Byte) (ch : Byte) (rest : List Byte)
    (hl : ∀ x ∈ l, isBinary x = true) (hch : isBinary ch = false) :
    firstNonBinary p (l ++ ch :: rest) = some (ch, p + l.length) := by
  induction l generalizing p with
  | nil => simp [firstNonBinary, hch]
  | cons x xs ih =>
    have hx : isBinary x = true := hl x (by simp)
    simp only [List.cons_append, firstNonBinary, hx, if_true]
    rw [ih (p + 1) (fun y hy => hl y (by simp [hy]))]
    simp only [List.length_cons, Option.some.injEq, Prod.mk.injEq, true_and]
    omega

/-- What a reported position means: everything before it is binary, the character there is not. -/
theorem firstNonBinary_some (p : Nat) (l : List Byte) (ch : Byte) (q : Nat)
    (h : firstNonBinary p l = some (ch, q)) :
    ∃ pre rest, l = pre ++ ch :: rest ∧ (∀ x ∈ pre, isBinary x = true) ∧ isBinary ch = false ∧
      q = p + pre.length := by
  induction l generalizing p with
  | nil => simp [firstNonBinary] at h
  | cons x xs ih =>
    by_cases hx : isBinary x = true
    · simp only [firstNonBinary, hx, if_true] at h
      obtain ⟨pre, rest, rfl, hpre, hch, rfl⟩ := ih (p + 1) h
      refine ⟨x :: pre, rest, rfl, ?_, hch, by simp; omega⟩
      intro y hy
      rcases List.mem_cons.1 hy with rfl | hy
      · exact hx
      · exact hpre y hy
    · simp only [firstNonBinary, hx] at h
      obtain ⟨rfl, rfl⟩ : x = ch ∧ p = q := by simpa using h
      exact ⟨[], xs, rfl, by simp, by simpa using hx, by simp⟩

theorem symbolError_none_iff (s : State) :
    symbolError s = none ↔ ∀ p : Fin 288, s.bitbuf[p] = 0x30 ∨ s.bitbuf[p] = 0x31 := by
  have h : symbolError s = none ↔ firstNonBinary 0 s.bitbuf.toList = none := by
    unfold symbolError
    cases firstNonBinary 0 s.bitbuf.toList <;> simp
  rw [h, firstNonBinary_none_iff]
  constructor
  · intro hall p
    exact (isBinary_iff _).1 (hall _ (by simp))
  · intro hall ch hch
    obtain ⟨i, hi, rfl⟩ := List.mem_iff_getElem.1 hch
    have hi' : i < 288 := by simpa using hi
    simpa using (isBinary_iff _).2 (hall ⟨i, hi'⟩)

/-! ### Completion -/

/-- A completion step succeeds with the writes or records the error and writes nothing else. -/
theorem completeWith_cases (op : Byte) (error : Option CommandError) (written s : State) :
    (error = none ∧ completeWith op error written s = written.finish op 0 0 0) ∨
    (∃ e, error = some e ∧ completeWith op error written s = s.finish op e.code e.sub e.info) := by
  cases error with
  | none => exact .inl ⟨rfl, rfl⟩
  | some e => exact .inr ⟨e, rfl, rfl⟩

theorem firstError_none_iff (a b : Option CommandError) :
    firstError a b = none ↔ a = none ∧ b = none := by
  cases a <;> simp [firstError]

theorem lengthError_none_iff (s : State) : lengthError s = none ↔ s.bitlen = 288 := by
  unfold lengthError; split <;> simp_all

theorem cardinalityError_none_iff (s : State) : cardinalityError s = none ↔ s.symcnt = 48 := by
  unfold cardinalityError; split <;> simp_all

theorem fractionError_none_iff (s : State) :
    fractionError s = none ↔ 1 ≤ s.cpfrac.toInt ∧ s.cpfrac.toInt ≤ 65535 := by
  unfold fractionError fractionLegal; split <;> simp_all

theorem vectorError_none_iff (s : State) : vectorError s = none ↔ s.freqlen = 64 := by
  unfold vectorError; split <;> simp_all

/-! ### The buffers -/

/-- What an output array holds at each entry. -/
theorem outputArray_getElem (cp : Fin 64) (block : Vector Word 64) (old : Vector Word 127) (n : Nat)
    (hn : n < 127) : (outputArray cp block old)[n] = outputCell cp block old ⟨n, hn⟩ := by
  simp [outputArray]

/-- Setting entries along a list of positions with no repeats leaves at each position its own value. -/
theorem foldl_set_mem {α ι : Type} {n : Nat} (pos : ι → Fin n) (val : ι → α) (ds : List ι)
    (v : Vector α n) (hnd : (ds.map pos).Nodup) (d : ι) (hd : d ∈ ds) :
    (ds.foldl (fun v d => v.set (pos d).val (val d)) v)[(pos d).val] = val d := by
  induction ds generalizing v with
  | nil => simp at hd
  | cons x xs ih =>
    rw [List.map_cons, List.nodup_cons] at hnd
    rw [List.foldl_cons]
    rcases List.mem_cons.1 hd with rfl | hd
    · have : ∀ (ys : List ι) (w : Vector α n), (∀ y ∈ ys, pos y ≠ pos d) →
          (ys.foldl (fun v d => v.set (pos d).val (val d)) w)[(pos d).val] = w[(pos d).val] := by
        intro ys
        induction ys with
        | nil => intro w _; rfl
        | cons y ys ihy =>
          intro w hy
          rw [List.foldl_cons, ihy _ (fun z hz => hy z (by simp [hz]))]
          rw [Vector.getElem_set_ne]
          exact fun h => hy y (by simp) (Fin.ext h)
      rw [this xs _ (fun y hy h => hnd.1 (h ▸ List.mem_map.2 ⟨y, hy, rfl⟩))]
      simp
    · exact ih _ hnd.2 hd

/-- Setting entries along a list of positions leaves every other position alone. -/
theorem foldl_set_not_mem {α ι : Type} {n : Nat} (pos : ι → Fin n) (val : ι → α) (ds : List ι)
    (v : Vector α n) (b : Fin n) (hb : ∀ d ∈ ds, pos d ≠ b) :
    (ds.foldl (fun v d => v.set (pos d).val (val d)) v)[b.val] = v[b.val] := by
  induction ds generalizing v with
  | nil => rfl
  | cons x xs ih =>
    rw [List.foldl_cons, ih _ (fun d hd => hb d (by simp [hd]))]
    rw [Vector.getElem_set_ne]
    exact fun h => hb x (by simp) (Fin.ext h)

/-- Each data symbol stands in its own bin, where the bins have no repeats. -/
theorem placeData_mem (di : Vector (Fin 64) 48) (sym : Vector Word 48) (ds : List (Fin 48))
    (v : Vector Word 64) (hnd : (ds.map fun d => di[d]).Nodup) (d : Fin 48) (hd : d ∈ ds) :
    (placeData di sym ds v)[di[d]] = sym[d] :=
  foldl_set_mem (fun d => di[d]) (fun d => sym[d]) ds v hnd d hd

/-- A bin of no listed symbol keeps its value. -/
theorem placeData_not_mem (di : Vector (Fin 64) 48) (sym : Vector Word 48) (ds : List (Fin 48))
    (v : Vector Word 64) (b : Fin 64) (hb : ∀ d ∈ ds, di[d] ≠ b) : (placeData di sym ds v)[b] = v[b] :=
  foldl_set_not_mem (fun d => di[d]) (fun d => sym[d]) ds v b hb

/-- Each pilot bin holds the pilot, where the bins have no repeats. -/
theorem placePilots_mem (pi : Vector (Fin 64) 4) (pilot : Word) (ps : List (Fin 4)) (v : Vector Word 64)
    (hnd : (ps.map fun p => pi[p]).Nodup) (p : Fin 4) (hp : p ∈ ps) :
    (placePilots pi pilot ps v)[pi[p]] = pilot :=
  foldl_set_mem (fun p => pi[p]) (fun _ => pilot) ps v hnd p hp

/-- A bin of no listed pilot keeps its value. -/
theorem placePilots_not_mem (pi : Vector (Fin 64) 4) (pilot : Word) (ps : List (Fin 4))
    (v : Vector Word 64) (b : Fin 64) (hb : ∀ p ∈ ps, pi[p] ≠ b) :
    (placePilots pi pilot ps v)[b] = v[b] :=
  foldl_set_not_mem (fun p => pi[p]) (fun _ => pilot) ps v b hb

/-! ### The window -/

theorem accessSupported_iff (off size : Nat) :
    accessSupported off size = true ↔ size = 8 ∧ off % 8 = 0 ∧ off < 0x8000 := by
  simp [accessSupported]

/-- What a supported host read does: a free value of the draw counter, or the true value and no change. -/
theorem hostRead_cases (s : State) (off : Nat) :
    (s.seq = .busy ∧ isVolatile (locationAt off) = true ∧
      s.hostRead off = (Config.draw s.draws, { s with draws := s.draws + 1 })) ∨
    ((s.seq = .idle ∨ isVolatile (locationAt off) = false) ∧
      s.hostRead off = (s.valueAt (locationAt off), s)) := by
  unfold State.hostRead
  cases hs : s.seq <;> cases hv : isVolatile (locationAt off) <;> simp

/-- What a supported host write does: dropped with WRBUSY set while BUSY, else the location's write. -/
theorem hostWrite_cases (s : State) (off : Nat) (v : Word) :
    (s.seq = .busy ∧ s.hostWrite off v = { s with wrbusy := true }) ∨
    (s.seq = .idle ∧ s.hostWrite off v = s.writeAt v (locationAt off)) := by
  unfold State.hostWrite
  cases hs : s.seq <;> simp

theorem entryAt_some_iff (base n off : Nat) (i : Fin n) :
    entryAt base n off = some i ↔ base ≤ off ∧ off < base + 8 * n ∧ (off - base) / 8 = i.val := by
  unfold entryAt
  split
  · rename_i h
    simp [Fin.ext_iff, h.1, h.2]
  · rename_i h
    simp only [reduceCtorEq, false_iff]
    exact fun hh => h ⟨hh.1, hh.2.1⟩

/-! ### One step -/

theorem completion_legal (s : State) (i : Instr) (h : decode s.pend = .ok i) : completion s = exec i s := by
  simp [completion, h]

theorem completion_illegal (s : State) (e : DecodeError) (h : decode s.pend = .error e) :
    completion s = .next (completeIllegal s.pend s) := by
  simp [completion, h]

/-- Every meaning answers a next state: the completion step of its command. -/
theorem exec_next (i : Instr) (s : State) : ∃ t, exec i s = .next t := by
  cases i <;> exact ⟨_, rfl⟩

/-- A completion step always has a next state. -/
theorem completion_next (s : State) : ∃ t, completion s = .next t := by
  unfold completion
  split
  · exact exec_next _ _
  · exact ⟨_, rfl⟩

/-- Everything one step can do: a completion, standing still while IDLE with nothing to come, taking the oldest
input, or refusing an unsupported access while IDLE. -/
theorem step_cases (s : State) :
    (s.seq = .busy ∧ step s = completion s) ∨
    (s.seq = .idle ∧ s.inputs = [] ∧ step s = .next s) ∨
    (∃ a rest, s.inputs = a :: rest ∧ a.supported = true ∧ (s.seq = .busy → s.wait ≠ 0) ∧
      step s = .next (({ s with inputs := rest } : State).takeInput a)) ∨
    (∃ a rest, s.inputs = a :: rest ∧ a.supported = false ∧ s.seq = .idle ∧
      step s = .refused .unsupportedAccess) := by
  unfold step agentStep
  cases hi : s.inputs with
  | nil =>
    unfold quietStep
    cases hs : s.seq with
    | busy => exact .inl ⟨rfl, by simp⟩
    | idle => exact .inr (.inl ⟨rfl, rfl, by simp⟩)
  | cons a rest =>
    unfold contendedStep
    by_cases hc : s.seq = .busy ∧ (s.wait = 0 ∨ a.supported = false)
    · exact .inl ⟨hc.1, by simp [hc]⟩
    · cases ha : a.supported with
      | true =>
        refine .inr (.inr (.inl ⟨a, rest, rfl, ha, fun hb hw => hc ⟨hb, .inl hw⟩, ?_⟩))
        rw [ha] at hc
        simp only [inputStep, ha, if_true]
        exact if_neg hc
      | false =>
        have hs : s.seq = .idle := by
          cases hs : s.seq with
          | idle => rfl
          | busy => exact absurd ⟨hs, .inr ha⟩ hc
        exact .inr (.inr (.inr ⟨a, rest, rfl, ha, hs, by simp [hs, inputStep, ha]⟩))

end Sys2Proof.Machine
end

