-- ==== Sys2Proof/Laws/PerInstr.lean ====
section
/-! SUPPORT. Families of lemmas with one lemma per command. -/

/-- The command word of every command has RSVD zero and OP in 0x01..0x04, and the command is well formed
(30_encoding.md R80, R81). -/
def Sys2Proof.Laws.WordShape.Statement (i : Sys2Proof.Instr) : Prop :=
  Sys2Proof.rsvdField (Sys2Proof.encode i) = 0 ∧
    Sys2Proof.opField (Sys2Proof.encode i) = Sys2Proof.opcode i ∧
    1 ≤ (Sys2Proof.opcode i).toNat ∧ (Sys2Proof.opcode i).toNat ≤ 4 ∧ i.wellFormed = true

namespace Sys2Proof.Laws.WordShape

theorem map : Statement .map := by unfold Statement; decide
theorem assemble : Statement .assemble := by unfold Statement; decide
theorem synth : Statement .synth := by unfold Statement; decide
theorem run : Statement .run := by unfold Statement; decide

end Sys2Proof.Laws.WordShape
end

