-- ==== Sys2Proof/Laws/Window.lean ====
section
/-! SUPPORT. What a host read returns and a host write does at each location, one lemma per location, true by
rfl; and what an output array holds in each of its three ranges. -/

namespace Sys2Proof.Machine

variable (s : State) (v : Word)

@[simp] theorem valueAt_id : s.valueAt .id = Config.idWord := rfl
@[simp] theorem valueAt_ctrl : s.valueAt .ctrl = flagWord s.ie := rfl
@[simp] theorem valueAt_status : s.valueAt .status = s.statusWord := rfl
@[simp] theorem valueAt_cmd : s.valueAt .cmd = 0 := rfl
@[simp] theorem valueAt_errinfo : s.valueAt .errinfo = s.errinfo := rfl
@[simp] theorem valueAt_norm : s.valueAt .norm = s.policy.setWidth 64 := rfl
@[simp] theorem valueAt_cpfrac : s.valueAt .cpfrac = s.cpfrac := rfl
@[simp] theorem valueAt_pilotRe : s.valueAt .pilotRe = s.pilotRe := rfl
@[simp] theorem valueAt_pilotIm : s.valueAt .pilotIm = s.pilotIm := rfl
@[simp] theorem valueAt_bitlen : s.valueAt .bitlen = s.bitlen.setWidth 64 := rfl
@[simp] theorem valueAt_symcnt : s.valueAt .symcnt = s.symcnt.setWidth 64 := rfl
@[simp] theorem valueAt_freqlen : s.valueAt .freqlen = s.freqlen.setWidth 64 := rfl
@[simp] theorem valueAt_outlen : s.valueAt .outlen = s.outlen.setWidth 64 := rfl
@[simp] theorem valueAt_reserved : s.valueAt .reserved = 0 := rfl
@[simp] theorem valueAt_bitbuf (i : Fin 288) : s.valueAt (.bitbuf i) = (s.bitbuf[i]).setWidth 64 := rfl
@[simp] theorem valueAt_symCode (i : Fin 48) : s.valueAt (.symCode i) = (s.symCode[i]).setWidth 64 := rfl
@[simp] theorem valueAt_symRe (i : Fin 48) : s.valueAt (.symRe i) = s.symRe[i] := rfl
@[simp] theorem valueAt_symIm (i : Fin 48) : s.valueAt (.symIm i) = s.symIm[i] := rfl
@[simp] theorem valueAt_symMag (i : Fin 48) : s.valueAt (.symMag i) = s.symMag[i] := rfl
@[simp] theorem valueAt_symPh (i : Fin 48) : s.valueAt (.symPh i) = s.symPh[i] := rfl
@[simp] theorem valueAt_freqRe (i : Fin 64) : s.valueAt (.freqRe i) = s.freqRe[i] := rfl
@[simp] theorem valueAt_freqIm (i : Fin 64) : s.valueAt (.freqIm i) = s.freqIm[i] := rfl
@[simp] theorem valueAt_outRe (i : Fin 127) : s.valueAt (.outRe i) = s.outRe[i] := rfl
@[simp] theorem valueAt_outIm (i : Fin 127) : s.valueAt (.outIm i) = s.outIm[i] := rfl

/-- A constant location reads the same in any two states of machines with the same parameters. -/
theorem valueAt_constant (t : State) (hp : s.params = t.params) (l : Location)
    (h : l = .nfft ∨ l = .ndata ∨ l = .npilot ∨ (∃ p, l = .pilotIdx p) ∨
    (∃ d, l = .dataIdx d) ∨ (∃ c, l = .cromLev c ∨ l = .cromRe c ∨ l = .cromIm c ∨ l = .cromMag c ∨ l = .cromPh c)) :
    s.valueAt l = t.valueAt l := by
  rcases h with rfl | rfl | rfl | ⟨_, rfl⟩ | ⟨_, rfl⟩ | ⟨_, rfl | rfl | rfl | rfl | rfl⟩ <;>
    simp only [State.valueAt, State.romAt, State.rom, hp]

@[simp] theorem writeAt_ctrl : s.writeAt v .ctrl = { s with ie := v.getLsbD 0 } := rfl
@[simp] theorem writeAt_status : s.writeAt v .status = s.acknowledge v := rfl
@[simp] theorem writeAt_cmd : s.writeAt v .cmd = s.accept v := rfl
@[simp] theorem writeAt_norm : s.writeAt v .norm = { s with policy := v.setWidth 1 } := rfl
@[simp] theorem writeAt_cpfrac : s.writeAt v .cpfrac = { s with cpfrac := v } := rfl
@[simp] theorem writeAt_pilotRe : s.writeAt v .pilotRe = { s with pilotRe := v } := rfl
@[simp] theorem writeAt_pilotIm : s.writeAt v .pilotIm = { s with pilotIm := v } := rfl
@[simp] theorem writeAt_bitlen : s.writeAt v .bitlen = { s with bitlen := v.setWidth 16 } := rfl
@[simp] theorem writeAt_symcnt : s.writeAt v .symcnt = { s with symcnt := v.setWidth 16 } := rfl
@[simp] theorem writeAt_freqlen : s.writeAt v .freqlen = { s with freqlen := v.setWidth 16 } := rfl
@[simp] theorem writeAt_bitbuf (i : Fin 288) :
    s.writeAt v (.bitbuf i) = { s with bitbuf := s.bitbuf.set i.val (v.setWidth 8) } := rfl
@[simp] theorem writeAt_symCode (i : Fin 48) :
    s.writeAt v (.symCode i) = { s with symCode := s.symCode.set i.val (v.setWidth 6) } := rfl
@[simp] theorem writeAt_symRe (i : Fin 48) :
    s.writeAt v (.symRe i) = { s with symRe := s.symRe.set i.val v } := rfl
@[simp] theorem writeAt_symIm (i : Fin 48) :
    s.writeAt v (.symIm i) = { s with symIm := s.symIm.set i.val v } := rfl
@[simp] theorem writeAt_symMag (i : Fin 48) :
    s.writeAt v (.symMag i) = { s with symMag := s.symMag.set i.val v } := rfl
@[simp] theorem writeAt_symPh (i : Fin 48) :
    s.writeAt v (.symPh i) = { s with symPh := s.symPh.set i.val v } := rfl
@[simp] theorem writeAt_freqRe (i : Fin 64) :
    s.writeAt v (.freqRe i) = { s with freqRe := s.freqRe.set i.val v } := rfl
@[simp] theorem writeAt_freqIm (i : Fin 64) :
    s.writeAt v (.freqIm i) = { s with freqIm := s.freqIm.set i.val v } := rfl

/-- The prefix range of an output array. -/
theorem outputCell_prefix (cp : Fin 64) (block : Vector Word 64) (old : Vector Word 127) (n : Fin 127)
    (k : Fin 64) (h : n.val < cp.val) (hk : k.val + cp.val = 64 + n.val) :
    outputCell cp block old n = block[k] := by
  have e : 64 - cp.val + n.val = k.val := by omega
  simp [outputCell, h, e]

/-- The block range of an output array. -/
theorem outputCell_block (cp : Fin 64) (block : Vector Word 64) (old : Vector Word 127) (n : Fin 127)
    (k : Fin 64) (h : n.val = cp.val + k.val) : outputCell cp block old n = block[k] := by
  have h1 : ¬ n.val < cp.val := by omega
  have h2 : n.val < cp.val + 64 := by omega
  have e : n.val - cp.val = k.val := by omega
  simp [outputCell, h1, h2, e]

/-- The range of an output array that SYNTH does not write. -/
theorem outputCell_tail (cp : Fin 64) (block : Vector Word 64) (old : Vector Word 127) (n : Fin 127)
    (h : cp.val + 64 ≤ n.val) : outputCell cp block old n = old[n] := by
  have h1 : ¬ n.val < cp.val := by omega
  have h2 : ¬ n.val < cp.val + 64 := by omega
  simp [outputCell, h1, h2]

end Sys2Proof.Machine
end

