-- ==== Sys2Proof/Tests/Slice0.lean ====
section
/-! SUPPORT. Tests: the checks of WellFormed refuse ill-formed terms, every command word decodes, the ROM is the
table of the spec, the vectors of 95_test_vectors.md on one step each, and for every statement with hypotheses
a concrete state that meets them. Expected values are the spec's. -/

namespace Sys2Proof.Tests

-- One test at a time: elaborated in parallel, the waiting threads' stacks alone exceed the memory limit.
set_option Elab.async false

open Sys2Proof Sys2Proof.Machine

/-! ### WellFormed refuses -/

theorem test_narrow_access_refused : (BusInput.read 0 4).supported = false := by decide
theorem test_wide_access_refused : (BusInput.write 0 16 0).supported = false := by decide
theorem test_misaligned_access_refused : (BusInput.read 0x0004 8).supported = false := by decide
theorem test_access_beyond_window_refused : (BusInput.write 0x8000 8 0).supported = false := by decide
theorem test_last_offset_supported : (BusInput.read 0x7FF8 8).supported = true := by decide
/-- 41_assembler.md R133: two equal data bins, a pilot on a data bin, a pilot on bin 0. -/
theorem test_repeated_data_bin_refused :
    ({ defaultParams with dataIndex := defaultParams.dataIndex.set 0 2 } : Config.Params).wellFormed = false := by
  decide +kernel
theorem test_pilot_on_data_bin_refused :
    ({ defaultParams with pilotIndex := defaultParams.pilotIndex.set 0 1 } : Config.Params).wellFormed = false := by
  decide +kernel
theorem test_pilot_on_dc_refused :
    ({ defaultParams with pilotIndex := defaultParams.pilotIndex.set 3 0 } : Config.Params).wellFormed = false := by
  decide +kernel
theorem test_foreign_level_refused :
    ({ defaultParams with levelOfBits := defaultParams.levelOfBits.set 0 2 } : Config.Params).wellFormed = false := by
  decide +kernel
theorem test_default_params_accepted : defaultParams.wellFormed = true := by decide +kernel

/-! ### Command words, written out from R80 and R81: [63:8] zero, [7:0] the OP -/

theorem test_decode_map : decodeTableWord 64 0x0000000000000001 = some .map := by decide
theorem test_decode_assemble : decodeTableWord 64 0x0000000000000002 = some .assemble := by decide
theorem test_decode_synth : decodeTableWord 64 0x0000000000000003 = some .synth := by decide
theorem test_decode_run : decodeTableWord 64 0x0000000000000004 = some .run := by decide
theorem test_decode_reserved_bit_rejected : decodeTableWord 64 0x0000000000000101 = none := by decide
theorem test_decode_unknown_rejected : decodeTableWord 64 0x00000000000000FF = none := by decide

/-! ### The ROM against the table of R106 -/

/-- Rows 0 to 15 of the ROM table of 40_mapper.md R106, copied out: ILEV, QLEV, RE, IM, MAG, PHASE. -/
def romRows0 : List (Int × Int × Word × Word × Word × Word) :=
  [(-7, -7, 0xBFF1482F86C40C43, 0xBFF1482F86C40C43, 0x3FF870BE4C1C28B2, 0xC002D97C7F3321D2),
   (-7, -5, 0xBFF1482F86C40C43, 0xBFE8B043E5181184, 0x3FF53CE5D0A43282, 0xC0042BB5F776EB80),
   (-7, -1, 0xBFF1482F86C40C43, 0xBFC3C03650E00E03, 0x3FF1751A365D41A3, 0xC007FF6067FCC98A),
   (-7, -3, 0xBFF1482F86C40C43, 0xBFDDA05179501504, 0x3FF2CD5EDE9B5CBA, 0xC005E4C36CA0118A),
   (-7, 5, 0xBFF1482F86C40C43, 0x3FE8B043E5181184, 0x3FF53CE5D0A43282, 0x40042BB5F776EB80),
   (-7, 7, 0xBFF1482F86C40C43, 0x3FF1482F86C40C43, 0x3FF870BE4C1C28B2, 0x4002D97C7F3321D2),
   (-7, 3, 0xBFF1482F86C40C43, 0x3FDDA05179501504, 0x3FF2CD5EDE9B5CBA, 0x4005E4C36CA0118A),
   (-7, 1, 0xBFF1482F86C40C43, 0x3FC3C03650E00E03, 0x3FF1751A365D41A3, 0x4007FF6067FCC98A),
   (-5, -7, 0xBFE8B043E5181184, 0xBFF1482F86C40C43, 0x3FF53CE5D0A43282, 0xC001874306EF5824),
   (-5, -5, 0xBFE8B043E5181184, 0xBFE8B043E5181184, 0x3FF1751A365D41A3, 0xC002D97C7F3321D2),
   (-5, -1, 0xBFE8B043E5181184, 0xBFC3C03650E00E03, 0x3FE92D6E5EA92C55, 0xC0078DB734B4BAB8),
   (-5, -3, 0xBFE8B043E5181184, 0xBFDDA05179501504, 0x3FECCAA1EA93E272, 0xC004CF33DEC5E9E0),
   (-5, 5, 0xBFE8B043E5181184, 0x3FE8B043E5181184, 0x3FF1751A365D41A3, 0x4002D97C7F3321D2),
   (-5, 7, 0xBFE8B043E5181184, 0x3FF1482F86C40C43, 0x3FF53CE5D0A43282, 0x4001874306EF5824),
   (-5, 3, 0xBFE8B043E5181184, 0x3FDDA05179501504, 0x3FECCAA1EA93E272, 0x4004CF33DEC5E9E0),
   (-5, 1, 0xBFE8B043E5181184, 0x3FC3C03650E00E03, 0x3FE92D6E5EA92C55, 0x40078DB734B4BAB8)]

/-- Rows 16 to 31 of the ROM table of 40_mapper.md R106, copied out: ILEV, QLEV, RE, IM, MAG, PHASE. -/
def romRows1 : List (Int × Int × Word × Word × Word × Word) :=
  [(-1, -7, 0xBFC3C03650E00E03, 0xBFF1482F86C40C43, 0x3FF1751A365D41A3, 0xBFFB67312CD2F434),
   (-1, -5, 0xBFC3C03650E00E03, 0xBFE8B043E5181184, 0x3FE92D6E5EA92C55, 0xBFFC4A83936311DA),
   (-1, -1, 0xBFC3C03650E00E03, 0xBFC3C03650E00E03, 0x3FCBEE9056FB9C39, 0xC002D97C7F3321D2),
   (-1, -3, 0xBFC3C03650E00E03, 0xBFDDA05179501504, 0x3FDF3A92CA2F4B7C, 0xBFFE47DF3D0DD4D1),
   (-1, 5, 0xBFC3C03650E00E03, 0x3FE8B043E5181184, 0x3FE92D6E5EA92C55, 0x3FFC4A83936311DA),
   (-1, 7, 0xBFC3C03650E00E03, 0x3FF1482F86C40C43, 0x3FF1751A365D41A3, 0x3FFB67312CD2F434),
   (-1, 3, 0xBFC3C03650E00E03, 0x3FDDA05179501504, 0x3FDF3A92CA2F4B7C, 0x3FFE47DF3D0DD4D1),
   (-1, 1, 0xBFC3C03650E00E03, 0x3FC3C03650E00E03, 0x3FCBEE9056FB9C39, 0x4002D97C7F3321D2),
   (-3, -7, 0xBFDDA05179501504, 0xBFF1482F86C40C43, 0x3FF2CD5EDE9B5CBA, 0xBFFF9C6B238C6434),
   (-3, -5, 0xBFDDA05179501504, 0xBFE8B043E5181184, 0x3FECCAA1EA93E272, 0xC000E3C51FA059C4),
   (-3, -1, 0xBFDDA05179501504, 0xBFC3C03650E00E03, 0x3FDF3A92CA2F4B7C, 0xC0068F095FDF593C),
   (-3, -3, 0xBFDDA05179501504, 0xBFDDA05179501504, 0x3FE4F2EC413CB52B, 0xC002D97C7F3321D2),
   (-3, 5, 0xBFDDA05179501504, 0x3FE8B043E5181184, 0x3FECCAA1EA93E272, 0x4000E3C51FA059C4),
   (-3, 7, 0xBFDDA05179501504, 0x3FF1482F86C40C43, 0x3FF2CD5EDE9B5CBA, 0x3FFF9C6B238C6434),
   (-3, 3, 0xBFDDA05179501504, 0x3FDDA05179501504, 0x3FE4F2EC413CB52B, 0x4002D97C7F3321D2),
   (-3, 1, 0xBFDDA05179501504, 0x3FC3C03650E00E03, 0x3FDF3A92CA2F4B7C, 0x40068F095FDF593C)]

/-- Rows 32 to 47 of the ROM table of 40_mapper.md R106, copied out: ILEV, QLEV, RE, IM, MAG, PHASE. -/
def romRows2 : List (Int × Int × Word × Word × Word × Word) :=
  [(5, -7, 0x3FE8B043E5181184, 0xBFF1482F86C40C43, 0x3FF53CE5D0A43282, 0xBFEE6AE1355353D0),
   (5, -5, 0x3FE8B043E5181184, 0xBFE8B043E5181184, 0x3FF1751A365D41A3, 0xBFE921FB54442D18),
   (5, -1, 0x3FE8B043E5181184, 0xBFC3C03650E00E03, 0x3FE92D6E5EA92C55, 0xBFC94441F8F7260B),
   (5, -3, 0x3FE8B043E5181184, 0xBFDDA05179501504, 0x3FECCAA1EA93E272, 0xBFE14B1DD5F90CE1),
   (5, 5, 0x3FE8B043E5181184, 0x3FE8B043E5181184, 0x3FF1751A365D41A3, 0x3FE921FB54442D18),
   (5, 7, 0x3FE8B043E5181184, 0x3FF1482F86C40C43, 0x3FF53CE5D0A43282, 0x3FEE6AE1355353D0),
   (5, 3, 0x3FE8B043E5181184, 0x3FDDA05179501504, 0x3FECCAA1EA93E272, 0x3FE14B1DD5F90CE1),
   (5, 1, 0x3FE8B043E5181184, 0x3FC3C03650E00E03, 0x3FE92D6E5EA92C55, 0x3FC94441F8F7260B),
   (7, -7, 0x3FF1482F86C40C43, 0xBFF1482F86C40C43, 0x3FF870BE4C1C28B2, 0xBFE921FB54442D18),
   (7, -5, 0x3FF1482F86C40C43, 0xBFE8B043E5181184, 0x3FF53CE5D0A43282, 0xBFE3D91573350661),
   (7, -1, 0x3FF1482F86C40C43, 0xBFC3C03650E00E03, 0x3FF1751A365D41A3, 0xBFC229AEC47638DD),
   (7, -3, 0x3FF1482F86C40C43, 0xBFDDA05179501504, 0x3FF2CD5EDE9B5CBA, 0xBFD9E9BF3D20DC71),
   (7, 5, 0x3FF1482F86C40C43, 0x3FE8B043E5181184, 0x3FF53CE5D0A43282, 0x3FE3D91573350661),
   (7, 7, 0x3FF1482F86C40C43, 0x3FF1482F86C40C43, 0x3FF870BE4C1C28B2, 0x3FE921FB54442D18),
   (7, 3, 0x3FF1482F86C40C43, 0x3FDDA05179501504, 0x3FF2CD5EDE9B5CBA, 0x3FD9E9BF3D20DC71),
   (7, 1, 0x3FF1482F86C40C43, 0x3FC3C03650E00E03, 0x3FF1751A365D41A3, 0x3FC229AEC47638DD)]

/-- Rows 48 to 63 of the ROM table of 40_mapper.md R106, copied out: ILEV, QLEV, RE, IM, MAG, PHASE. -/
def romRows3 : List (Int × Int × Word × Word × Word × Word) :=
  [(3, -7, 0x3FDDA05179501504, 0xBFF1482F86C40C43, 0x3FF2CD5EDE9B5CBA, 0xBFF2A78B84FBF5FC),
   (3, -5, 0x3FDDA05179501504, 0xBFE8B043E5181184, 0x3FECCAA1EA93E272, 0xBFF07C6C6947A6A8),
   (3, -1, 0x3FDDA05179501504, 0xBFC3C03650E00E03, 0x3FDF3A92CA2F4B7C, 0xBFD4978FA3269EE1),
   (3, -3, 0x3FDDA05179501504, 0xBFDDA05179501504, 0x3FE4F2EC413CB52B, 0xBFE921FB54442D18),
   (3, 5, 0x3FDDA05179501504, 0x3FE8B043E5181184, 0x3FECCAA1EA93E272, 0x3FF07C6C6947A6A8),
   (3, 7, 0x3FDDA05179501504, 0x3FF1482F86C40C43, 0x3FF2CD5EDE9B5CBA, 0x3FF2A78B84FBF5FC),
   (3, 3, 0x3FDDA05179501504, 0x3FDDA05179501504, 0x3FE4F2EC413CB52B, 0x3FE921FB54442D18),
   (3, 1, 0x3FDDA05179501504, 0x3FC3C03650E00E03, 0x3FDF3A92CA2F4B7C, 0x3FD4978FA3269EE1),
   (1, -7, 0x3FC3C03650E00E03, 0xBFF1482F86C40C43, 0x3FF1751A365D41A3, 0xBFF6DCC57BB565FD),
   (1, -5, 0x3FC3C03650E00E03, 0xBFE8B043E5181184, 0x3FE92D6E5EA92C55, 0xBFF5F97315254857),
   (1, -1, 0x3FC3C03650E00E03, 0xBFC3C03650E00E03, 0x3FCBEE9056FB9C39, 0xBFE921FB54442D18),
   (1, -3, 0x3FC3C03650E00E03, 0xBFDDA05179501504, 0x3FDF3A92CA2F4B7C, 0xBFF3FC176B7A8560),
   (1, 5, 0x3FC3C03650E00E03, 0x3FE8B043E5181184, 0x3FE92D6E5EA92C55, 0x3FF5F97315254857),
   (1, 7, 0x3FC3C03650E00E03, 0x3FF1482F86C40C43, 0x3FF1751A365D41A3, 0x3FF6DCC57BB565FD),
   (1, 3, 0x3FC3C03650E00E03, 0x3FDDA05179501504, 0x3FDF3A92CA2F4B7C, 0x3FF3FC176B7A8560),
   (1, 1, 0x3FC3C03650E00E03, 0x3FC3C03650E00E03, 0x3FCBEE9056FB9C39, 0x3FE921FB54442D18)]

/-- The entry of code c as a row of R106. -/
def romRow (c : Nat) : Int × Int × Word × Word × Word × Word :=
  let e := rom (BitVec.ofNat 6 c)
  (e.ilev, e.qlev, e.re, e.im, e.mag, e.ph)

theorem test_rom_rows_0_to_15 : (List.range 16).map (fun i => romRow (0 + i)) = romRows0 := by
  decide +kernel
theorem test_rom_rows_16_to_31 : (List.range 16).map (fun i => romRow (16 + i)) = romRows1 := by
  decide +kernel
theorem test_rom_rows_32_to_47 : (List.range 16).map (fun i => romRow (32 + i)) = romRows2 := by
  decide +kernel
theorem test_rom_rows_48_to_63 : (List.range 16).map (fun i => romRow (48 + i)) = romRows3 := by
  decide +kernel

/-! ### One step of each command (95_test_vectors.md) -/

/-- The reset state with BITLEN = 288 and every character `ch`. -/
def loaded (ch : Byte) : State := { State.reset with bitlen := 288, bitbuf := Vector.replicate 288 ch }

/-- The state a step answers, or the given one where it stops. -/
def after (s : State) : Host.Outcome State Fault Refusal → State
  | .next t => t
  | .fault _ => s
  | .refused _ => s

/-- The pending word `w` is next to complete. -/
def pending (w : Nat) (s : State) : State := s.withFetchWord 64 w

/-- V4 of T8: the string "01" repeated gives code 21 in every group. -/
theorem test_map_alternating :
    (after State.reset (step (pending 1 { loaded 0x30 with
      bitbuf := Vector.ofFn fun p => if p.val % 2 = 0 then 0x30 else 0x31 }))).symCode[7] = 21 := by
  decide +kernel
/-- V12 of T10: the lowest bad position, 3, with its character 0x41. -/
theorem test_map_reports_lowest_bad_character :
    (after State.reset (step (pending 1 { loaded 0x30 with
      bitbuf := ((Vector.replicate 288 0x30).set 3 0x41).set 200 0x20 }))).errinfo = 0x0000004100000003 := by
  decide +kernel
/-- V15 of T11: symbol 24 (d + 1 = 25.0) is in bin 38. -/
theorem test_assemble_places_symbol_24 :
    (after State.reset (step (pending 2 { State.reset with
      symcnt := 48, symRe := (Vector.replicate 48 0).set 24 0x4039000000000000 }))).freqRe[38] =
      0x4039000000000000 := by
  decide +kernel
/-- D6's other order of DATA_INDEX, signed frequency: symbol 0 is in bin 38. -/
theorem test_assemble_with_signed_order :
    (after State.reset (step (pending 2 { State.reset with
      params := { defaultParams with
        dataIndex := Vector.ofFn fun d => defaultParams.dataIndex[(d.val + 24) % 48]'(by omega) }
      symcnt := 48, symRe := (Vector.replicate 48 0).set 0 0x3FF0000000000000 }))).freqRe[38] =
      0x3FF0000000000000 := by
  decide +kernel
/-- V16 of T12: STATUS after a Cardinality error. -/
theorem test_assemble_cardinality_status :
    (after State.reset (step (pending 2 { State.reset with symcnt := 47 }))).statusWord = 0x20306 := by
  decide +kernel
/-- V14f of T14: CPFRAC = 0xFFFF gives OUTLEN 127. -/
theorem test_synth_longest_prefix :
    (after State.reset (step (pending 3 { State.reset with
      cpfrac := 0xFFFF, freqlen := 64 }))).outlen = 127 := by
  decide +kernel
/-- V14m of T14: both illegal, CPFRAC is reported. -/
theorem test_synth_checks_fraction_first :
    (after State.reset (step (pending 3 { State.reset with
      cpfrac := 0, freqlen := 63 }))).statusWord = 0x31406 := by
  decide +kernel
/-- V36 of T19: STATUS after a successful RUN. -/
theorem test_run_status : (after State.reset (step (pending 4 (loaded 0x30)))).statusWord = 0x40002 := by
  decide +kernel
/-- V38 of T19: a bad character at 7 and CPFRAC = 0 report the character. -/
theorem test_run_checks_characters_first :
    (after State.reset (step (pending 4 { loaded 0x30 with
      bitbuf := (Vector.replicate 288 0x30).set 7 0x32, cpfrac := 0 }))).errinfo = 0x0000003200000007 := by
  decide +kernel
/-- V33 of T18: an illegal word with OP 0x01. -/
theorem test_illegal_word_status :
    (after State.reset (step (pending 0x101 State.reset))).statusWord = 0x0000000000010506 := by
  decide +kernel

/-! ### The window (T20) -/

theorem test_read_id : State.reset.valueAt (locationAt 0x0000) = 0x4F514D4300010007 := by decide
theorem test_read_data_idx_24 : State.reset.valueAt (locationAt 0x02C0) = 38 := by decide +kernel
theorem test_read_crom_lev_42 : State.reset.valueAt (locationAt 0x0550) = 0xF7 := by decide +kernel
theorem test_ctrl_keeps_one_bit :
    (State.reset.hostWrite 0x0008 0xFFFFFFFFFFFFFFFF).valueAt .ctrl = 1 := by decide
theorem test_bitbuf_keeps_a_byte :
    (State.reset.hostWrite 0x1000 0x1234).valueAt (locationAt 0x1000) = 0x34 := by decide +kernel
theorem test_sym_code_keeps_six_bits :
    (State.reset.hostWrite 0x2000 0xFF).valueAt (locationAt 0x2000) = 0x3F := by decide +kernel
/-- V56: a dropped write shows STATUS = 0x9. -/
theorem test_dropped_write_status :
    ((State.reset.accept 1).hostWrite 0x0030 0x2000).statusWord = 0x9 := by decide +kernel
theorem test_loadbits_first_lines :
    loadbits [true, false] = [.write 0x48 8 2, .write 0x1000 8 0x31, .write 0x1008 8 0x30] := by decide

/-! ### The hypotheses of the statements can be met -/

/-- IDLE, one input to come. -/
def idleWith (a : BusInput) : State := { State.reset with inputs := [a] }
/-- A pending MAP with latency left, one input to come. -/
def busyWith (a : BusInput) : State :=
  { State.reset with seq := .busy, pend := 1, wait := 2, inputs := [a] }

theorem loaded_bits : BitsLoaded (loaded 0x30) := ⟨rfl, by decide +kernel⟩

theorem witness_MapSucceedsOnBinaryString : BitsLoaded (loaded 0x30) ∧ BitsLoaded (loaded 0x31) :=
  ⟨loaded_bits, rfl, by decide +kernel⟩
theorem witness_MapCodeFirstCharacterMostSignificant : BitsLoaded (loaded 0x31) :=
  ⟨rfl, by decide +kernel⟩
theorem witness_WrongLengthRaisesInvalidLength :
    ({ State.reset with bitlen := 287 } : State).bitlen ≠ 288 ∧
    ({ State.reset with bitlen := 289 } : State).bitlen ≠ 288 := by decide
theorem witness_BadCharacterRaisesInvalidSymbol :
    (∃ p, BadSymbolAt { loaded 0x30 with bitbuf := (Vector.replicate 288 0x30).set 0 0x2F } p) ∧
    (∃ p, BadSymbolAt { loaded 0x30 with bitbuf := (Vector.replicate 288 0x31).set 287 0x32 } p) :=
  ⟨⟨0, by unfold BadSymbolAt; decide +kernel⟩, ⟨287, by unfold BadSymbolAt; decide +kernel⟩⟩
theorem witness_AssembleSucceedsOnFortyEightSymbols :
    State.reset.params.binsLegal = true ∧ ({ State.reset with symcnt := 48 } : State).symcnt = 48 ∧
    ¬IsDataBin State.reset.params 0 ∧ ¬IsPilotBin State.reset.params 0 := by
  unfold IsDataBin IsPilotBin; decide +kernel
/-- The signed-frequency order of 91_not_in_source.md is a second legal value of DATA_INDEX. -/
theorem witness_AssembledBinsUnderLegalIndexSets :
    defaultParams.binsLegal = true ∧
    ({ defaultParams with dataIndex := Vector.ofFn fun d => defaultParams.dataIndex[(d.val + 24) % 48]'(by omega) } :
      Config.Params).binsLegal = true := by decide +kernel
theorem witness_WrongCountRaisesCardinality :
    ({ State.reset with symcnt := 47 } : State).symcnt ≠ 48 ∧
    ({ State.reset with symcnt := 49 } : State).symcnt ≠ 48 ∧ ∃ t, exec .run State.reset = .next t :=
  ⟨by decide, by decide, _, rfl⟩
theorem witness_AssembledVectorHasFiftyTwoNonzeroBins :
    let s : State := { State.reset with
      symcnt := 48, symRe := Vector.replicate 48 (rom 0).re, symIm := Vector.replicate 48 (rom 0).im }
    s.params.wellFormed = true ∧ s.symcnt = 48 ∧
      (∀ d : Fin 48, ∃ c : BitVec 6, s.symRe[d] = (s.rom c).re ∧ s.symIm[d] = (s.rom c).im) ∧
      (f64Zero s.pilotRe = false ∨ f64Zero s.pilotIm = false) :=
  ⟨test_default_params_accepted, rfl, fun d => ⟨0, by simp; rfl, by simp; rfl⟩, .inl (by decide)⟩
theorem witness_SynthSucceedsWithPrefixThenBlock :
    (FractionInside { State.reset with freqlen := 64 } ∧ (16 : Int) = 64 * (0x4000 : Word).toInt / 65536) ∧
    (FractionInside { State.reset with cpfrac := 1 } ∧ (0 : Int) = 64 * (1 : Word).toInt / 65536) ∧
    (FractionInside { State.reset with cpfrac := 0xFFFF } ∧
      (63 : Int) = 64 * (0xFFFF : Word).toInt / 65536) ∧
    ((0 : Fin 127).val < 16 ∧ (48 : Fin 64).val + 16 = 64 + (0 : Fin 127).val) ∧
    ((79 : Fin 127).val = 16 + (63 : Fin 64).val) ∧ 64 + 16 ≤ (80 : Fin 127).val := by
  unfold FractionInside; decide
theorem witness_PrefixEqualsTailOfSymbol :
    FractionInside { State.reset with freqlen := 64 } ∧ (16 : Int) = 64 * (0x4000 : Word).toInt / 65536 ∧
    (15 : Fin 127).val < 16 ∧ (79 : Fin 127).val = 64 + (15 : Fin 127).val := by
  unfold FractionInside; decide
theorem witness_PrefixLengthIsFlooredFraction :
    (1 ≤ (1 : Word).toInt ∧ (1 : Word).toInt ≤ 65535) ∧
    (1 ≤ (0xFFFF : Word).toInt ∧ (0xFFFF : Word).toInt ≤ 65535) := by decide
theorem witness_IllegalFractionRaisesConfiguration :
    (({ loaded 0x30 with cpfrac := 0 } : State).cpfrac.toInt < 1 ∧
      BitsLoaded { loaded 0x30 with cpfrac := 0 }) ∧
    65535 < ({ loaded 0x30 with cpfrac := 0x10000 } : State).cpfrac.toInt ∧
    ({ loaded 0x30 with cpfrac := 0xFFFFFFFFFFFFFFFF } : State).cpfrac.toInt < 1 :=
  ⟨⟨by decide, loaded_bits⟩, by decide, by decide⟩
theorem witness_WrongVectorLengthRaisesConfiguration :
    FractionInside State.reset ∧ State.reset.freqlen ≠ 64 ∧
    ({ State.reset with freqlen := 63 } : State).freqlen ≠ 64 ∧ ∃ t, exec .run State.reset = .next t :=
  ⟨by unfold FractionInside; decide, by decide, by decide, _, rfl⟩

/-- The state whose subcarrier vector is all +0.0. -/
def silent : State :=
  { State.reset with freqlen := 64, freqRe := Vector.replicate 64 0, freqIm := Vector.replicate 64 0 }

theorem silent_spectrum (k : Fin 64) : (subcarrierVector silent)[k] = (0, 0) := by
  simp [subcarrierVector, silent]
theorem f64Value_zero : f64Value 0#64 = 0 := by simp [f64Value, f64Significand, f64Fraction, f64Exponent]
theorem silent_complex : complexOf (subcarrierVector silent) = fun _ => 0 := by
  funext k
  unfold complexOf
  rw [silent_spectrum]
  apply Complex.ext <;> simp [f64Value_zero]
theorem silent_moderate : Moderate (subcarrierVector silent) := fun k => by
  rw [silent_spectrum]
  have h : f64Finite 0#64 = true := by decide
  simp [f64Value_zero, h]
theorem silent_reachable (eps : ℝ) : AccurateBlock (Vector.replicate 64 (0, 0)) eps (subcarrierVector silent) silent.policy :=
  fun n => by
    have h : f64Finite 0#64 = true := by decide
    simp [silent_complex, refSample, refBound, f64Value_zero, h]
/-- 42_synthesizer.md R151: RN(2/sqrt 3) is the nearer of the two magnitudes around 2/sqrt 3. -/
theorem test_scale_rounds_as_tabled :
    nearerPattern (surdPolicyScale 1 (surdConst 5 1)) 0x3FF279A74590331C = 0x3FF279A74590331C := by decide +kernel
/-- 42_synthesizer.md R150: the exponent is positive, so bin 1 is +j at a quarter turn. -/
theorem test_quarter_turn : doubleSin 16 = surdConst 5 2 := by decide +kernel
/-- 42_synthesizer.md R152 and R155: for the reference 1/64 with B = 1/64 and SYNTH_EPS = 1e-9, the patterns that
obey the bound. -/
theorem test_accuracy_bound :
    partAccurate (1 / 10 ^ 9) (surdConst 5 (1 / 64)) (surdConst 5 (1 / 64)) 0x3F90000000000001 = true ∧
      partAccurate (1 / 10 ^ 9) (surdConst 5 (1 / 64)) (surdConst 5 (1 / 64)) 0x3F90000001000000 = false := by
  decide +kernel
/-- A part that obeys the law exists: one that meets the bound where some binary64 does, and +0.0 elsewhere. -/
theorem lawful_part_exists (eps y B : ℝ) : ∃ v, PartLawful v eps y B := by
  by_cases h : PartReachable eps y B
  · obtain ⟨v, hv, hb⟩ := h
    exact ⟨v, hv, fun _ => hb⟩
  · exact ⟨0, by decide, fun h' => absurd h' h⟩
/-- A value of SYNTH_IMPL that obeys the law part by part. -/
noncomputable def someImpl (eps : ℝ) : Config.SynthImpl := fun X policy => Vector.ofFn fun n =>
  ((lawful_part_exists eps (refSample (refScale policy) (complexOf X) n).re
      (refBound (refScale policy) (complexOf X))).choose,
    (lawful_part_exists eps (refSample (refScale policy) (complexOf X) n).im
      (refBound (refScale policy) (complexOf X))).choose)
theorem someImpl_admissible : SynthAdmissible (someImpl ((1 / 10 ^ 9 : ℚ) : ℝ)) ((1 / 10 ^ 9 : ℚ) : ℝ) :=
  ⟨⟨by norm_num, by norm_num⟩, fun X policy _ n => by
    simp only [someImpl, Fin.getElem_fin, Vector.getElem_ofFn, Fin.eta]
    exact ⟨(lawful_part_exists _ _ _).choose_spec, (lawful_part_exists _ _ _).choose_spec⟩⟩
theorem small_of_exponent {v : Word} (h : f64Exponent v ≤ 1023) :
    f64Finite v = true ∧ |f64Value v| ≤ 2 ^ 1000 := by
  refine ⟨by simp [f64Finite]; omega, ?_⟩
  have hs : f64Significand v ≤ 2 ^ 53 := by
    have := (v.extractLsb' 0 52).isLt
    unfold f64Significand f64Fraction; split <;> omega
  have hl : f64LastPlace v ≤ 947 := by unfold f64LastPlace; omega
  have h1 : |(if v.getLsbD 63 then -1 else 1 : ℚ)| = 1 := by split <;> simp
  rw [f64Value, abs_mul, abs_mul, h1, one_mul, abs_of_nonneg (Nat.cast_nonneg _), abs_of_pos (by positivity)]
  calc (f64Significand v : ℚ) * 2 ^ f64LastPlace v ≤ 2 ^ 53 * (2 : ℚ) ^ (947 : ℤ) :=
        mul_le_mul (by exact_mod_cast hs) (zpow_le_zpow_right₀ (by norm_num) hl) (by positivity) (by positivity)
    _ = 2 ^ 1000 := by rw [show (2 : ℚ) ^ (947 : ℤ) = 2 ^ 947 from rfl, ← pow_add]
theorem loaded_exponents :
    (subcarrierVector (assembleWrites (mapWrites (loaded 0x30)))).toList.all
      (fun x => decide (f64Exponent x.1 ≤ 1023 ∧ f64Exponent x.2 ≤ 1023)) = true := by decide +kernel
theorem loaded_moderate : Moderate (subcarrierVector (assembleWrites (mapWrites (loaded 0x30)))) := fun k => by
  have h := List.all_eq_true.1 loaded_exponents _ (Vector.mem_toList_iff.2 (Vector.getElem_mem k.isLt))
  rw [decide_eq_true_iff] at h
  exact ⟨(small_of_exponent h.1).1, (small_of_exponent h.1).2, small_of_exponent h.2⟩
theorem witness_SynthSamplesWithinAccuracyBound :
    (Moderate (subcarrierVector silent) ∧
      SynthAccurateAt (fun _ _ => Vector.replicate 64 (0, 0)) 0 (subcarrierVector silent) silent.policy) ∧
    SynthAdmissible (someImpl ((1 / 10 ^ 9 : ℚ) : ℝ)) ((1 / 10 ^ 9 : ℚ) : ℝ) ∧
    (FractionInside silent ∧ silent.freqlen = 64) ∧
    ∃ s, FractionInside s ∧ BitsLoaded s ∧ Moderate (subcarrierVector (assembleWrites (mapWrites s))) :=
  ⟨⟨silent_moderate, fun _ => silent_reachable _⟩, someImpl_admissible, ⟨by unfold FractionInside; decide, rfl⟩,
    loaded 0x30, by unfold FractionInside; decide, loaded_bits, loaded_moderate⟩
/-- The impulse of 42_synthesizer.md R155's example: X[0] = 1. -/
def impulse : Config.Samples := Vector.ofFn fun k => (if k.val = 0 then 0x3FF0000000000000 else 0, 0)
theorem f64Value_one : f64Value 0x3FF0000000000000#64 = 1 := by
  simp [f64Value, f64Significand, f64Fraction, f64Exponent, f64LastPlace]; norm_num
theorem impulse_moderate : Moderate impulse := fun k => by
  have h : f64Finite 0#64 = true := by decide
  have h' : f64Finite 0x3FF0000000000000#64 = true := by decide
  have h1 : (1 : ℚ) ≤ 2 ^ 1000 := one_le_pow₀ (by norm_num)
  by_cases hk : k = 0 <;> simp [impulse, hk, f64Value_zero, f64Value_one, h, h', h1]
theorem impulse_bound : refBound (refScale 0) (complexOf impulse) = 1 / 64 := by
  have e : ∀ k : Fin 64, |(complexOf impulse k).re| + |(complexOf impulse k).im| = if k = 0 then 1 else 0 := by
    intro k
    by_cases hk : k = 0 <;> simp [complexOf, impulse, hk, f64Value_zero, f64Value_one]
  simp only [refBound, e, Finset.sum_ite_eq', Finset.mem_univ, if_true, refScale]
  norm_num
theorem witness_RoundedReferenceIsAdmissible :
    |(1 : ℝ)| ≤ 2 ^ 1023 ∧ SynthEpsLegal (1 / 2 ^ 53) ∧ SynthEpsLegal (1 / 10 ^ 9) ∧
    (Moderate (subcarrierVector silent) ∧
      refBound (refScale silent.policy) (complexOf (subcarrierVector silent)) = 0) ∧
    (Moderate impulse ∧ (1 / 2 ^ 1022 : ℝ) ≤ refBound (refScale 0) (complexOf impulse)) ∧
    SynthEpsLegal ((1 / 10 ^ 9 : ℚ) : ℝ) ∧
    SynthAdmissible (someImpl ((1 / 10 ^ 9 : ℚ) : ℝ)) ((1 / 10 ^ 9 : ℚ) : ℝ) :=
  ⟨by rw [abs_one]; exact one_le_pow₀ (by norm_num), ⟨le_refl _, by norm_num⟩, ⟨by norm_num, le_refl _⟩,
    ⟨silent_moderate, by simp [silent_complex, refBound]⟩, ⟨impulse_moderate, by
      rw [impulse_bound, show (64 : ℝ) = 2 ^ 6 by norm_num]
      exact one_div_le_one_div_of_le (by positivity) (pow_le_pow_right₀ (by norm_num) (by norm_num))⟩,
    someImpl_admissible.1, someImpl_admissible⟩
theorem witness_NoNumericsAccurateOnSubnormalSpectrum : SynthEpsLegal (1 / 10 ^ 9) := by
  unfold SynthEpsLegal; norm_num
theorem witness_RomHoldsRoundedPartsAndTabledPhases : defaultParams.levelsLegal = true := by decide +kernel
theorem witness_MeanSamplePowerOfUnitDataBins :
    ∃ (X : Fin 64 → ℂ) (D : Finset (Fin 64)), D.card = 48 ∧ (∀ k ∈ D, ‖X k‖ = 1) ∧ ∀ k ∉ D, X k = 0 :=
  ⟨fun k => if k.val < 48 then 1 else 0, Finset.univ.filter fun k => k.val < 48, by decide +kernel,
    fun k hk => by simp at hk; simp [hk], fun k hk => by simp at hk; simp [hk]⟩
theorem witness_RunSucceedsOnBinaryString :
    BitsLoaded (loaded 0x30) ∧ FractionInside (loaded 0x30) ∧
    (16 : Int) = 64 * (loaded 0x30).cpfrac.toInt / 65536 ∧ 64 + 16 ≤ (126 : Fin 127).val :=
  ⟨loaded_bits, by unfold FractionInside; decide, by decide, by decide⟩
theorem witness_RunEqualsMapAssembleSynth : BitsLoaded (loaded 0x30) ∧ FractionInside (loaded 0x30) :=
  ⟨loaded_bits, by unfold FractionInside; decide⟩
theorem witness_FailedCommandWritesOnlyStatus :
    ∃ t, exec .map State.reset = .next t ∧ t.errcode ≠ 0 := ⟨_, rfl, by decide +kernel⟩
theorem witness_CommandsLeaveOtherWindowBytesAlone :
    (∃ t, exec .run (loaded 0x30) = .next t) ∧
    mayWrite .run (loaded 0x30).cpfrac (locationAt (0x1007 - 0x1007 % 8)) = false ∧
    mayWrite .run (loaded 0x30).cpfrac (locationAt (0x4280 - 0x4280 % 8)) = false :=
  ⟨⟨_, rfl⟩, by decide +kernel, by decide +kernel⟩
theorem witness_CommandsLeaveConfigurationAlone (i : Instr) : ∃ t, exec i (loaded 0x30) = .next t :=
  exec_next i _
theorem witness_SameCommandTwiceIsOnce :
    (∃ t, completion { loaded 0x30 with pend := 4 } = .next t) ∧
    ∃ t, completion { loaded 0x30 with pend := 0x101 } = .next t ∧ t.errcode = 5 :=
  ⟨completion_next _, _, rfl, by decide +kernel⟩
theorem witness_CommandsArePureFunctionsOfInputs :
    SameMapInputs (loaded 0x30) { loaded 0x30 with symcnt := 5 } ∧
    SameAssembleInputs (loaded 0x30) { loaded 0x30 with freqlen := 5 } ∧
    SameSynthInputs silent { silent with symcnt := 5 } ∧
    SameRunInputs (loaded 0x30) { loaded 0x30 with symcnt := 5 } ∧
    ∀ i s, ∃ t, exec i s = .next t :=
  ⟨⟨rfl, rfl, rfl⟩, ⟨rfl, rfl, rfl, rfl, rfl, rfl, rfl⟩, ⟨rfl, rfl, rfl, rfl, rfl⟩,
    ⟨⟨rfl, rfl, rfl⟩, rfl, rfl, rfl, rfl, rfl, rfl⟩, exec_next⟩
theorem witness_StepRunsDecodedCommand :
    CompletionNext (pending 1 State.reset) ∧ decode (pending 1 State.reset).pend = .ok .map ∧
    CompletionNext { pending 1 State.reset with inputs := [.reset] } ∧
    CompletionNext { busyWith .reset with inputs := [] } ∧ CompletionNext (busyWith (.read 4 8)) :=
  ⟨⟨rfl, .inl rfl⟩, by decide, ⟨rfl, .inl rfl⟩, ⟨rfl, .inr (.inl rfl)⟩,
    ⟨rfl, .inr (.inr ⟨_, _, rfl, by decide⟩)⟩⟩
theorem witness_UnlistedWordRaisesIllegalCommand :
    CompletionNext (pending 5 State.reset) ∧ (pending 5 State.reset).pend ≠ 1 ∧
    (pending 5 State.reset).pend ≠ 2 ∧ (pending 5 State.reset).pend ≠ 3 ∧
    (pending 5 State.reset).pend ≠ 4 := ⟨⟨rfl, .inl rfl⟩, by decide, by decide, by decide, by decide⟩
theorem witness_CommandWriteIsAcceptedOnlyWhileIdle :
    ((idleWith (.write 0x18 8 4)).inputs = [.write 0x0018 8 4] ∧ (idleWith (.write 0x18 8 4)).seq = .idle) ∧
    (busyWith (.write 0x18 8 4)).seq = .busy ∧ (busyWith (.write 0x18 8 4)).wait ≠ 0 := by decide
theorem witness_WriteWhileBusyOnlySetsWrbusy :
    (busyWith (.write 0x30 8 7)).seq = .busy ∧ (busyWith (.write 0x30 8 7)).wait ≠ 0 ∧
    accessSupported 0x30 8 = true ∧ (busyWith (.write 0x30 8 7)).inputs = [.write 0x30 8 7] := by decide
theorem witness_WrbusyStaysUntilClearedOrReset :
    (∃ t, step { idleWith (.write 0x10 8 8) with wrbusy := true } = .next t ∧ t.wrbusy = false) ∧
    (∃ t, step { busyWith .reset with wrbusy := true } = .next t ∧ t.wrbusy = false) :=
  ⟨⟨_, rfl, rfl⟩, ⟨_, rfl, rfl⟩⟩
theorem witness_ReadWhileBusyReturnsDrawOrTruth :
    (busyWith (.read 0x20 8)).seq = .busy ∧ (busyWith (.read 0x20 8)).wait ≠ 0 ∧
    (busyWith (.read 0x20 8)).inputs = [.read 0x20 8] ∧
    ([0x0020, 0x0048, 0x0060, 0x1000, 0x18F8, 0x2000, 0x2178, 0x2200, 0x2378, 0x2400, 0x2578, 0x2600, 0x2778,
      0x2800, 0x2978, 0x3000, 0x31F8, 0x3200, 0x33F8, 0x4000, 0x43F0, 0x4400, 0x47F0].all fun off =>
        accessSupported off 8 && isVolatile (locationAt off) && decide (VolatileOffset off)) = true ∧
    ([0x0010, 0x0018, 0x0028, 0x0040, 0x0068, 0x0DF8, 0x0FF8, 0x1900, 0x1FF8, 0x2180, 0x21F8, 0x2380, 0x23F8, 0x2580,
      0x25F8, 0x2780, 0x27F8, 0x2980, 0x2FF8, 0x3400, 0x3FF8, 0x43F8, 0x47F8].all fun off =>
        accessSupported off 8 && !isVolatile (locationAt off) && decide (¬VolatileOffset off)) = true := by
  decide +kernel
theorem witness_ReadWhileIdleReturnsTruth :
    (idleWith (.read 0x20 8)).seq = .idle ∧ accessSupported 0x20 8 = true ∧
    (idleWith (.read 0x20 8)).inputs = [.read 0x20 8] ∧ ReservedOffset 0x0080 ∧ ReservedOffset 0x7FFF := by
  decide
theorem witness_IdleWriteTouchesOneLocation :
    (idleWith (.write 0x0008 8 1)).inputs = [.write 0x0008 8 1] ∧
    (idleWith (.write 0x18F8 8 0x31)).inputs = [.write (0x1000 + 8 * (287 : Fin 288).val) 8 0x31] ∧
    State.reset.seq = .idle ∧ locationAt 0x10 ≠ .cmd ∧ Location.ctrl ≠ locationAt 0x10 := by decide
theorem witness_ReadOnlyWriteHasNoEffect :
    (idleWith (.write 0x80 8 1)).seq = .idle ∧ accessSupported 0x80 8 = true ∧
    isReadOnly (locationAt 0x80) = true ∧ isReadOnly (locationAt 0x47F0) = true := by decide +kernel
theorem witness_StatusWriteClearsDoneAndWrbusy :
    (idleWith (.write 0x10 8 0xA)).inputs = [.write 0x0010 8 0xA] ∧
    (idleWith (.write 0x10 8 0xA)).seq = .idle ∧ (busyWith (.write 0x10 8 0xA)).seq = .busy ∧
    (busyWith (.write 0x10 8 0xA)).wait ≠ 0 := by decide
theorem witness_IrqRisesAndFalls :
    (∃ t, exec .map { State.reset with ie := true } = .next t) ∧ (0x2 : Word).getLsbD 1 = true :=
  ⟨⟨_, rfl⟩, by decide⟩
theorem witness_OnlyCompletionSetsDoneOrEndsBusy :
    ∃ t, step (pending 1 State.reset) = .next t ∧ (pending 1 State.reset).done = false ∧ t.done = true ∧
      (pending 1 State.reset).seq = .busy ∧ t.seq = .idle := ⟨_, rfl, rfl, by decide +kernel, rfl, by decide +kernel⟩
theorem witness_OnlyCompletionOrResetChangesOutput :
    (∃ t, step (idleWith (.write 0x4000 8 1)) = .next t) ∧
    (∀ rest, (idleWith (.write 0x4000 8 1)).inputs ≠ .reset :: rest) ∧
    ¬((idleWith (.write 0x4000 8 1)).seq = .busy ∧
      step (idleWith (.write 0x4000 8 1)) = completion (idleWith (.write 0x4000 8 1))) :=
  ⟨⟨_, rfl⟩, fun _ h => by simp [idleWith] at h, fun h => by cases h.1⟩
theorem witness_UnsupportedAccessIsRefused :
    step (idleWith (.read 0 4)) = .refused .unsupportedAccess ∧
    step (idleWith (.write 0x0004 8 0)) = .refused .unsupportedAccess ∧
    step (idleWith (.read 0x8000 8)) = .refused .unsupportedAccess := ⟨rfl, rfl, rfl⟩
theorem witness_SupportedInputsNeverStop :
    ∀ a ∈ ({ State.reset with inputs := [.read 0x7FF8 8, .reset] } : State).inputs, a.supported = true := by
  decide
theorem reset_invariant : RunInvariant State.reset :=
  ⟨.inl ⟨rfl, rfl, rfl⟩, (fun h => by cases h), test_default_params_accepted, .inl rfl⟩
theorem witness_StepKeepsErrorRecordAndOutlenLegal :
    ∃ s t, RunInvariant s ∧ step s = .next t ∧ t.errcode = 1 :=
  ⟨pending 1 State.reset, _, ⟨.inl ⟨rfl, rfl, rfl⟩, fun _ => ⟨rfl, rfl⟩, test_default_params_accepted, .inl rfl⟩, rfl,
    by decide +kernel⟩
theorem witness_AcceptedCommandCompletes :
    (busyWith (.read 0x10 8)).seq = .busy ∧ NoReset (busyWith (.read 0x10 8)) :=
  ⟨rfl, by unfold NoReset; decide⟩
theorem witness_LatencyDoesNotChangeTheResult :
    (busyWith (.write 0x30 8 0)).seq = .busy ∧ NoReset (busyWith (.write 0x30 8 0)) :=
  ⟨rfl, by unfold NoReset; decide⟩
theorem witness_PlatformResetDiscardsPendingCommand :
    (busyWith .reset).inputs = [.reset] ∧ ((busyWith .reset).seq = .busy → (busyWith .reset).wait ≠ 0) := by
  decide
theorem witness_IdleMachineWaits : State.reset.seq = .idle ∧ State.reset.inputs = [] := by decide
theorem witness_DecodeIsInverseOfEncode : decode (4 : Word) = .ok .run ∧ (4 : Word) = encode .run := by
  decide
/-- The ends of the listed ranges and of their neighbours (20_memory.md R61). -/
theorem witness_AddressMapIsInverseOfOffsets :
    [0x0080, 0x00F8, 0x0120, 0x01F8, 0x0380, 0x03F8, 0x0E00, 0x0FF8, 0x1900, 0x1FF8, 0x2180, 0x21F8, 0x2380,
      0x23F8, 0x2580, 0x25F8, 0x2780, 0x27F8, 0x2980, 0x2FF8, 0x3400, 0x3FF8, 0x43F8, 0x47F8, 0x7FF8].all
        (fun off => locationAt off == .reserved) = true ∧
    [0x0078, 0x0100, 0x0118, 0x0200, 0x0378, 0x0400, 0x0DF8, 0x1000, 0x18F8, 0x2000, 0x2178, 0x2200, 0x2378,
      0x2400, 0x2578, 0x2600, 0x2778, 0x2800, 0x2978, 0x3000, 0x33F8, 0x4000, 0x43F0, 0x4400, 0x47F0].all
        (fun off => offsetOf (locationAt off) == off && locationAt off != .reserved) = true := by
  decide +kernel
theorem witness_ConstantsReadTheSameAlways :
    (∃ t, step (pending 1 State.reset) = .next t) ∧ (loaded 0x30).params = State.reset.params ∧
    isConstant (locationAt 0x0C00) = true ∧ isConstant (locationAt 0x0200) = true :=
  ⟨⟨_, rfl⟩, rfl, by decide +kernel, by decide +kernel⟩
theorem witness_AdjacentLevelsAreNotAlwaysGray :
    levelOf defaultParams.levelOfBits 0b001 = levelOf defaultParams.levelOfBits 0b000 + 2 ∧
    levelOf defaultParams.levelOfBits 0b010 = -1 ∧
    levelOf defaultParams.levelOfBits 0b111 = levelOf defaultParams.levelOfBits 0b010 + 2 := by decide +kernel

end Sys2Proof.Tests
end

section
/-! SUPPORT. O26: each command is a pure function of the registers and buffers it reads (00_scope.md R4). The
argument is one for all four commands (`pureFunction_of_completeWith`): equal inputs give equal checks and agreeing
writes. RUN goes through its three units: what MAP writes is what ASSEMBLE reads, and what ASSEMBLE writes is what
SYNTH reads. -/

namespace Sys2Proof.Machine

variable {s t u v : State}

/-! ### What agreement on outputs means -/

/-- The states agree on the outputs of MAP (30_encoding.md R83). -/
def MapOutputsAgree (u v : State) : Prop :=
  u.symCode = v.symCode ∧ u.symRe = v.symRe ∧ u.symIm = v.symIm ∧ u.symMag = v.symMag ∧ u.symPh = v.symPh ∧
    u.symcnt = v.symcnt

/-- The states agree on the outputs of ASSEMBLE (30_encoding.md R83). -/
def AssembleOutputsAgree (u v : State) : Prop :=
  u.freqRe = v.freqRe ∧ u.freqIm = v.freqIm ∧ u.freqlen = v.freqlen

/-- The states agree on the outputs of SYNTH (30_encoding.md R83); the entries from OUTLEN on are no output
(42_synthesizer.md R159). -/
def SynthOutputsAgree (u v : State) : Prop :=
  u.outlen = v.outlen ∧
    ∀ n : Fin 127, n.val < u.outlen.toNat → u.outRe[n] = v.outRe[n] ∧ u.outIm[n] = v.outIm[n]

/-- The states agree on the outputs of RUN, those of the three units (43_sequencer.md R183). -/
def RunOutputsAgree (u v : State) : Prop :=
  MapOutputsAgree u v ∧ AssembleOutputsAgree u v ∧ SynthOutputsAgree u v

/-- Two completions record the same error, and where it is none their outputs agree by `Out`. -/
def CompletionsAgree (Out : State → State → Prop) (u v : State) : Prop :=
  u.errcode = v.errcode ∧ u.errsub = v.errsub ∧ u.errinfo = v.errinfo ∧ (u.errcode = 0 → Out u v)

/-- Completions of `i` agree by `Out` wherever the states before agree by `Same`. -/
def PureFunction (i : Instr) (Same Out : State → State → Prop) : Prop :=
  ∀ s t u v : State, Same s t → exec i s = .next u → exec i t = .next v → CompletionsAgree Out u v

/-- `Out` does not look at what every completion writes (43_sequencer.md R182). -/
def KeptByFinish (Out : State → State → Prop) : Prop :=
  ∀ (u v : State) (op : Byte), Out u v → Out (u.finish op 0 0 0) (v.finish op 0 0 0)

theorem mapOutputsAgree_finish : KeptByFinish MapOutputsAgree := fun _ _ _ h => h
theorem assembleOutputsAgree_finish : KeptByFinish AssembleOutputsAgree := fun _ _ _ h => h
theorem synthOutputsAgree_finish : KeptByFinish SynthOutputsAgree := fun _ _ _ h => h
theorem runOutputsAgree_finish : KeptByFinish RunOutputsAgree := fun _ _ _ h => h

/-! ### The argument common to the commands -/

/-- Code 0 is no error's (60_exceptions.md R201). -/
theorem CommandError.code_ne_zero (e : CommandError) : e.code ≠ 0 := by
  cases e <;> simp [CommandError.code]

/-- Two completions with the same check result record the same error, and agree on success if their writes do. -/
theorem completeWith_agree {Out : State → State → Prop} (hfin : KeptByFinish Out) (op : Byte)
    (error : Option CommandError) (hout : Out u v) :
    CompletionsAgree Out (completeWith op error u s) (completeWith op error v t) := by
  cases error with
  | none => exact ⟨rfl, rfl, rfl, fun _ => hfin u v op hout⟩
  | some e => exact ⟨rfl, rfl, rfl, fun h => absurd h e.code_ne_zero⟩

/-- A command is a pure function of its inputs if its checks and its writes are. -/
theorem pureFunction_of_completeWith {i : Instr} {Same Out : State → State → Prop}
    {error : State → Option CommandError} {written : State → State}
    (hexec : ∀ s, exec i s = .next (completeWith (opcode i) (error s) (written s) s))
    (hfin : KeptByFinish Out) (herr : ∀ {s t}, Same s t → error s = error t)
    (hout : ∀ {s t}, Same s t → Out (written s) (written t)) : PureFunction i Same Out := by
  intro s t u v h hu hv
  obtain rfl : completeWith (opcode i) (error s) (written s) s = u := by simpa [hexec] using hu
  obtain rfl : completeWith (opcode i) (error t) (written t) t = v := by simpa [hexec] using hv
  rw [herr h]
  exact completeWith_agree hfin _ _ (hout h)

/-! ### The checks read only inputs -/

theorem lengthError_congr (h : s.bitlen = t.bitlen) : lengthError s = lengthError t := by
  unfold lengthError; rw [h]

theorem symbolError_congr (h : s.bitbuf = t.bitbuf) : symbolError s = symbolError t := by
  unfold symbolError; rw [h]

theorem cardinalityError_congr (h : s.symcnt = t.symcnt) : cardinalityError s = cardinalityError t := by
  unfold cardinalityError; rw [h]

theorem fractionError_congr (h : s.cpfrac = t.cpfrac) : fractionError s = fractionError t := by
  unfold fractionError; rw [h]

theorem vectorError_congr (h : s.freqlen = t.freqlen) : vectorError s = vectorError t := by
  unfold vectorError; rw [h]

theorem mapError_congr (h : SameMapInputs s t) : mapError s = mapError t := by
  obtain ⟨hlen, hbits, -⟩ := h
  rw [mapError, mapError, lengthError_congr hlen, symbolError_congr hbits]

theorem synthError_congr (h : SameSynthInputs s t) : synthError s = synthError t := by
  obtain ⟨hcp, hlen, -⟩ := h
  rw [synthError, synthError, fractionError_congr hcp, vectorError_congr hlen]

theorem runError_congr (h : SameRunInputs s t) : runError s = runError t := by
  obtain ⟨⟨hlen, hbits, -⟩, -, -, hcp, -⟩ := h
  rw [runError, runError, lengthError_congr hlen, symbolError_congr hbits, fractionError_congr hcp]

/-! ### The writes read only inputs -/

theorem rom_congr (h : s.params.levelOfBits = t.params.levelOfBits) : s.rom = t.rom := by
  funext c; rw [State.rom, State.rom, h]

theorem mapWrites_agree (h : SameMapInputs s t) : MapOutputsAgree (mapWrites s) (mapWrites t) := by
  obtain ⟨-, hbits, hlevels⟩ := h
  simp [MapOutputsAgree, hbits, rom_congr hlevels]

theorem assembledBins_congr {P Q : Config.Params} (hd : P.dataIndex = Q.dataIndex)
    (hp : P.pilotIndex = Q.pilotIndex) : assembledBins P = assembledBins Q := by
  funext sym pilot; rw [assembledBins, assembledBins, hd, hp]

theorem assembleWrites_agree (h : SameAssembleInputs s t) :
    AssembleOutputsAgree (assembleWrites s) (assembleWrites t) := by
  obtain ⟨-, hre, him, hpre, hpim, hd, hp⟩ := h
  simp [AssembleOutputsAgree, hre, him, hpre, hpim, assembledBins_congr hd hp]

theorem subcarrierVector_congr (hre : s.freqRe = t.freqRe) (him : s.freqIm = t.freqIm) :
    subcarrierVector s = subcarrierVector t := by
  rw [subcarrierVector, subcarrierVector, hre, him]

/-- Below 64 + cp an output entry comes from the block, whatever the array held before. -/
theorem outputCell_old_irrelevant (cp : Fin 64) (block : Vector Word 64) (old old' : Vector Word 127) (n : Fin 127)
    (h : n.val < 64 + cp.val) : outputCell cp block old n = outputCell cp block old' n := by
  by_cases hn : n.val < cp.val
  · obtain ⟨k, hk⟩ : ∃ k : Fin 64, k.val + cp.val = 64 + n.val :=
      ⟨⟨64 - cp.val + n.val, by omega⟩, by simp only; omega⟩
    rw [outputCell_prefix cp block old n k hn hk, outputCell_prefix cp block old' n k hn hk]
  · obtain ⟨k, hk⟩ : ∃ k : Fin 64, n.val = cp.val + k.val :=
      ⟨⟨n.val - cp.val, by omega⟩, by simp only; omega⟩
    rw [outputCell_block cp block old n k hk, outputCell_block cp block old' n k hk]

/-- OUTLEN of SYNTH read as a number: 64 + cp fits its 16 bits. -/
theorem synthWritesWith_outlen_toNat (impl : Config.SynthImpl) (s : State) :
    (synthWritesWith impl s).outlen.toNat = 64 + (cpLen s.cpfrac).val := by
  have := (cpLen s.cpfrac).isLt
  rw [synthWritesWith_outlen, BitVec.toNat_ofNat]
  omega

/-- For every numerics, since SYNTH_IMPL is a function of X and the policy (42_synthesizer.md R152, R162). -/
theorem synthWritesWith_agree (impl : Config.SynthImpl) (h : SameSynthInputs s t) :
    SynthOutputsAgree (synthWritesWith impl s) (synthWritesWith impl t) := by
  obtain ⟨hcp, -, hre, him, hpolicy⟩ := h
  refine ⟨by simp [hcp], fun n hn => ?_⟩
  rw [synthWritesWith_outlen_toNat, hcp] at hn
  simp only [synthWritesWith_outRe, synthWritesWith_outIm, hcp, hpolicy, subcarrierVector_congr hre him,
    Fin.getElem_fin, outputArray_getElem]
  exact ⟨outputCell_old_irrelevant _ _ _ _ n hn, outputCell_old_irrelevant _ _ _ _ n hn⟩

/-! ### The chain of RUN -/

/-- What ASSEMBLE reads after MAP agrees where RUN's inputs agree. -/
theorem sameAssembleInputs_mapWrites (h : SameRunInputs s t) :
    SameAssembleInputs (mapWrites s) (mapWrites t) := by
  obtain ⟨hmap, hpre, hpim, -, -, hd, hp⟩ := h
  obtain ⟨-, hre, him, -, -, hcnt⟩ := mapWrites_agree hmap
  exact ⟨hcnt, hre, him, hpre, hpim, hd, hp⟩

/-- What SYNTH reads after MAP and ASSEMBLE agrees where RUN's inputs agree. -/
theorem sameSynthInputs_assembleWrites_mapWrites (h : SameRunInputs s t) :
    SameSynthInputs (assembleWrites (mapWrites s)) (assembleWrites (mapWrites t)) := by
  obtain ⟨hre, him, hlen⟩ := assembleWrites_agree (sameAssembleInputs_mapWrites h)
  obtain ⟨-, -, -, hcp, hpolicy, -⟩ := h
  exact ⟨hcp, hlen, hre, him, hpolicy⟩

/-- No unit of the chain overwrites an output of an earlier one. -/
theorem runOutputsAgree_runWrites_iff :
    RunOutputsAgree (runWrites s) (runWrites t) ↔
      MapOutputsAgree (mapWrites s) (mapWrites t) ∧
      AssembleOutputsAgree (assembleWrites (mapWrites s)) (assembleWrites (mapWrites t)) ∧
      SynthOutputsAgree (synthWrites (assembleWrites (mapWrites s)))
        (synthWrites (assembleWrites (mapWrites t))) := Iff.rfl

theorem runWrites_agree (h : SameRunInputs s t) : RunOutputsAgree (runWrites s) (runWrites t) := by
  have ⟨hmap, _⟩ := h
  exact runOutputsAgree_runWrites_iff.2
    ⟨mapWrites_agree hmap, assembleWrites_agree (sameAssembleInputs_mapWrites h),
      synthWritesWith_agree synthImpl (sameSynthInputs_assembleWrites_mapWrites h)⟩

/-! ### The four commands -/

theorem pureFunction_map : PureFunction .map SameMapInputs MapOutputsAgree :=
  pureFunction_of_completeWith (fun _ => rfl) mapOutputsAgree_finish mapError_congr mapWrites_agree

theorem pureFunction_assemble : PureFunction .assemble SameAssembleInputs AssembleOutputsAgree :=
  pureFunction_of_completeWith (fun _ => rfl) assembleOutputsAgree_finish
    (fun ⟨hcnt, _⟩ => cardinalityError_congr hcnt) assembleWrites_agree

theorem pureFunction_synth : PureFunction .synth SameSynthInputs SynthOutputsAgree :=
  pureFunction_of_completeWith (fun _ => rfl) synthOutputsAgree_finish synthError_congr
    (synthWritesWith_agree synthImpl)

theorem pureFunction_run : PureFunction .run SameRunInputs RunOutputsAgree :=
  pureFunction_of_completeWith (fun _ => rfl) runOutputsAgree_finish runError_congr runWrites_agree

/-- Settles O26: each command's checks and writes read only its inputs; RUN by its three units in turn. -/
theorem commandsArePureFunctionsOfInputs : Obligations.CommandsArePureFunctionsOfInputs := by
  refine ⟨pureFunction_map, pureFunction_assemble, pureFunction_synth, fun s t u v h hu hv => ?_⟩
  obtain ⟨hcode, hsub, hinfo, hout⟩ := pureFunction_run s t u v h hu hv
  refine ⟨hcode, hsub, hinfo, fun h0 => ?_⟩
  simpa only [RunOutputsAgree, MapOutputsAgree, AssembleOutputsAgree, SynthOutputsAgree, and_assoc] using hout h0

end Sys2Proof.Machine
end

section
/-! SUPPORT. Which action the next step is and what it does, under names that later proofs cite: O28 and O38. -/

namespace Sys2Proof.Machine

variable {s : State} {a : BusInput} {rest : List BusInput}

/-! ### Which action comes next -/

/-- Where the completion is the next action it is the step (43_sequencer.md R181, R182). -/
theorem step_eq_completion (h : CompletionNext s) : step s = completion s := by
  obtain ⟨hbusy, hnext⟩ := h
  unfold step agentStep
  cases hi : s.inputs with
  | nil => simp [quietStep, hbusy]
  | cons a rest =>
    have hfirst : s.wait = 0 ∨ a.supported = false := by simpa [hi] using hnext
    exact if_pos ⟨hbusy, hfirst⟩

/-- A supported input is taken unless a command is pending whose latency has run out. -/
theorem step_eq_takeInput (hi : s.inputs = a :: rest) (ha : a.supported = true)
    (hwait : s.seq = .busy → s.wait ≠ 0) :
    step s = .next (({ s with inputs := rest } : State).takeInput a) := by
  have hno : ¬(s.seq = .busy ∧ (s.wait = 0 ∨ a.supported = false)) := by
    rintro ⟨hbusy, hw | hs⟩
    · exact hwait hbusy hw
    · simp [ha] at hs
  simp only [step, agentStep, hi, contendedStep, if_neg hno]
  exact if_pos ha

/-! ### What an input's step does -/

theorem countAccess_of_idle (h : s.seq = .idle) : s.countAccess = s := by
  simp [State.countAccess, h]

theorem countAccess_of_busy (h : s.seq = .busy) : s.countAccess = { s with wait := s.wait - 1 } := by
  simp [State.countAccess, h]

theorem takeInput_write_of_idle (h : s.seq = .idle) (off size : Nat) (v : Word) :
    s.takeInput (.write off size v) = s.writeAt v (locationAt off) := by
  simp [State.takeInput, countAccess_of_idle h, State.hostWrite, h]

theorem takeInput_write_of_busy (h : s.seq = .busy) (off size : Nat) (v : Word) :
    s.takeInput (.write off size v) = { s with wrbusy := true, wait := s.wait - 1 } := by
  simp [State.takeInput, countAccess_of_busy h, State.hostWrite, h]

/-! ### A word placed as the pending command -/

@[simp] theorem decode_encode (i : Instr) : decode (encode i) = .ok i := by
  cases i <;> rfl

/-- A table word of full width is the word itself. -/
theorem tableWord_toNat (w : Word) : tableWord 64 w.toNat = w := by
  simp [tableWord]

theorem withFetchWord_toNat (s : State) (w : Word) : s.withFetchWord 64 w.toNat = s.withPending w := by
  rw [State.withFetchWord, tableWord_toNat]

theorem withPending_completionNext (s : State) (w : Word) : CompletionNext (s.withPending w) :=
  ⟨rfl, .inl rfl⟩

/-- Settles O28: the placed word's completion is the next action, and the word decodes to its command. -/
theorem placedWordRunsNext : Obligations.PlacedWordRunsNext := by
  intro s i
  rw [withFetchWord_toNat]
  refine ⟨rfl, ?_⟩
  rw [step_eq_completion (withPending_completionNext s _)]
  exact completion_legal _ i (decode_encode i)

/-! ### A write of STATUS -/

theorem acknowledge_eq (s : State) (v : Word) :
    s.acknowledge v = { s with
      done := if v.getLsbD 1 then false else s.done
      wrbusy := if v.getLsbD 3 then false else s.wrbusy } := by
  simp [State.acknowledge, Bool.and_comm]

/-- Settles O38: the write is taken; while IDLE it is an acknowledgement, while BUSY it is dropped. -/
theorem statusWriteClearsDoneAndWrbusy : Obligations.StatusWriteClearsDoneAndWrbusy := by
  intro s v rest hi
  have hsup : (BusInput.write 0x0010 8 v).supported = true := by simp [BusInput.supported, accessSupported]
  have hloc : locationAt 0x0010 = .status := rfl
  constructor
  · intro hidle
    have htaken : ({ s with inputs := rest } : State).seq = .idle := hidle
    rw [step_eq_takeInput hi hsup (by simp [hidle]), takeInput_write_of_idle htaken, hloc, writeAt_status,
      acknowledge_eq]
  · intro hbusy hwait
    have htaken : ({ s with inputs := rest } : State).seq = .busy := hbusy
    rw [step_eq_takeInput hi hsup (fun _ => hwait), takeInput_write_of_busy htaken]

end Sys2Proof.Machine
end

section
/-! SUPPORT. O39: the STATUS word is an OR of fields at distinct places (10_state.md R25), so each place reads its
own field. -/

namespace Sys2Proof.Machine

/-- The word with the field `x` at the bits from `k` on and zeros elsewhere. -/
def fieldAt {n : Nat} (k : Nat) (x : BitVec n) : Word := x.setWidth 64 <<< k

theorem getElem_fieldAt {n : Nat} (k : Nat) (x : BitVec n) (i : Nat) (hi : i < 64) :
    (fieldAt k x)[i] = (decide (k ≤ i) && x.getLsbD (i - k)) := by
  simp [fieldAt, ← decide_not]

/-- A field that fits the word reads back at its place. -/
theorem extractLsb'_fieldAt_same {n k : Nat} (x : BitVec n) (h : k + n ≤ 64) :
    (fieldAt k x).extractLsb' k n = x := by
  ext i hi
  have hlt : k + i < 64 := by omega
  simp [getElem_fieldAt, hlt, BitVec.getLsbD_eq_getElem hi]

/-- Bits below or above a field are zero. -/
theorem extractLsb'_fieldAt_disjoint {n k j m : Nat} (x : BitVec n) (hfit : j + m ≤ 64)
    (h : j + m ≤ k ∨ k + n ≤ j) : (fieldAt k x).extractLsb' j m = 0#m := by
  ext i hi
  have hlt : j + i < 64 := by omega
  rcases h with hbelow | habove
  · have hnot : ¬ k ≤ j + i := by omega
    simp [getElem_fieldAt, hlt, hnot]
  · have hge : n ≤ j + i - k := by omega
    simp [getElem_fieldAt, hlt, BitVec.getLsbD_of_ge x _ hge]

/-- The places of the fields (10_state.md R25, the table of bits). -/
theorem statusWord_eq_fields (s : State) :
    s.statusWord = fieldAt 16 s.lastop ||| fieldAt 12 s.errsub ||| fieldAt 8 s.errcode
      ||| fieldAt 3 (BitVec.ofBool s.wrbusy) ||| fieldAt 2 (BitVec.ofBool s.err)
      ||| fieldAt 1 (BitVec.ofBool s.done) ||| fieldAt 0 (BitVec.ofBool s.isBusy) := by
  simp [State.statusWord, fieldAt, flagWord]

/-- Settles O39: at each place of R25 every field but the one that stands there is zero. -/
theorem statusWordHoldsItsFields : Obligations.StatusWordHoldsItsFields := by
  intro s
  rw [valueAt_status]
  refine ⟨?busy, ?done, ?err, ?wrbusy, ?low, ?errcode, ?errsub, ?lastop, ?high⟩
  case busy | done | err | wrbusy => simp [statusWord_eq_fields, getElem_fieldAt, State.isBusy, State.err]
  case low | errcode | errsub | lastop | high =>
    simp (disch := omega) [statusWord_eq_fields, BitVec.extractLsb'_or, extractLsb'_fieldAt_same,
      extractLsb'_fieldAt_disjoint]

end Sys2Proof.Machine
end

section
/-! SUPPORT. O41, O42: what no access of the host can do. Every step that is neither a completion nor a reset keeps
`HostFrame` (`step_completion_or_reset_or_hostFrame`). -/

namespace Sys2Proof.Machine

variable {s t u : State}

/-- What no host access does on the way from `s` to `t`: raise DONE (10_state.md R25), end BUSY (60_exceptions.md
R216), or write the output buffer or OUTLEN (10_state.md R42, R46). -/
structure HostFrame (s t : State) : Prop where
  done : t.done = true → s.done = true
  busy : s.seq = .busy → t.seq = .busy
  outRe : t.outRe = s.outRe
  outIm : t.outIm = s.outIm
  outlen : t.outlen = s.outlen

theorem HostFrame.refl (s : State) : HostFrame s s := ⟨id, id, rfl, rfl, rfl⟩

theorem HostFrame.trans (h : HostFrame s t) (k : HostFrame t u) : HostFrame s u :=
  ⟨h.done ∘ k.done, k.busy ∘ h.busy, k.outRe.trans h.outRe, k.outIm.trans h.outIm, k.outlen.trans h.outlen⟩

theorem hostFrame_inputs (s : State) (rest : List BusInput) : HostFrame s { s with inputs := rest } :=
  ⟨id, id, rfl, rfl, rfl⟩

theorem hostFrame_countAccess (s : State) : HostFrame s s.countAccess := by
  cases h : s.seq with
  | idle => rw [countAccess_of_idle h]; exact .refl s
  | busy => rw [countAccess_of_busy h]; exact ⟨id, id, rfl, rfl, rfl⟩

theorem hostFrame_hostRead (s : State) (off : Nat) : HostFrame s (s.hostRead off).2 := by
  obtain ⟨-, -, h⟩ | ⟨-, h⟩ := hostRead_cases s off <;> rw [h]
  · exact ⟨id, id, rfl, rfl, rfl⟩
  · exact .refl s

/-- A write of STATUS can only clear DONE, one of CMD clears it and makes the machine BUSY; no other location
holds DONE or SEQ, and the output buffer and OUTLEN are read-only (20_memory.md R66). -/
theorem hostFrame_writeAt (s : State) (v : Word) (l : Location) : HostFrame s (s.writeAt v l) := by
  cases l with
  | status => exact ⟨fun h => (Bool.and_eq_true_iff.1 h).1, id, rfl, rfl, rfl⟩
  | cmd => exact ⟨fun h => absurd h Bool.false_ne_true, fun _ => rfl, rfl, rfl, rfl⟩
  | _ => exact ⟨id, id, rfl, rfl, rfl⟩

theorem hostFrame_hostWrite (s : State) (off : Nat) (v : Word) : HostFrame s (s.hostWrite off v) := by
  obtain ⟨-, h⟩ | ⟨-, h⟩ := hostWrite_cases s off v <;> rw [h]
  · exact ⟨id, id, rfl, rfl, rfl⟩
  · exact hostFrame_writeAt s v _

theorem hostFrame_takeInput (s : State) {a : BusInput} (ha : a ≠ .reset) : HostFrame s (s.takeInput a) := by
  cases a with
  | read off size =>
    have ⟨hdone, hbusy, hre, him, hlen⟩ := (hostFrame_countAccess s).trans (hostFrame_hostRead _ off)
    exact ⟨hdone, hbusy, hre, him, hlen⟩
  | write off size v => exact (hostFrame_countAccess s).trans (hostFrame_hostWrite _ off v)
  | reset => exact absurd rfl ha

/-- Every step is a completion, takes a reset, or keeps the host's frame. -/
theorem step_completion_or_reset_or_hostFrame (h : step s = .next t) :
    (s.seq = .busy ∧ step s = completion s) ∨
    (∃ rest, s.inputs = .reset :: rest ∧ t = ({ s with inputs := rest } : State).platformReset) ∨
    HostFrame s t := by
  obtain hcompletion | ⟨-, -, hquiet⟩ | ⟨a, rest, hi, -, -, htake⟩ | ⟨_, _, _, _, _, hrefused⟩ := step_cases s
  · exact .inl hcompletion
  · obtain rfl : s = t := by simpa [hquiet] using h
    exact .inr (.inr (.refl s))
  · obtain rfl : ({ s with inputs := rest } : State).takeInput a = t := by simpa [htake] using h
    by_cases ha : a = .reset
    · subst ha
      exact .inr (.inl ⟨rest, hi, rfl⟩)
    · exact .inr (.inr ((hostFrame_inputs s rest).trans (hostFrame_takeInput _ ha)))
  · simp [hrefused] at h

/-- Settles O41: a reset leaves DONE 0, and no host access raises DONE or ends BUSY. -/
theorem onlyCompletionSetsDoneOrEndsBusy : Obligations.OnlyCompletionSetsDoneOrEndsBusy := by
  intro s t h
  obtain hcompletion | ⟨rest, hi, rfl⟩ | hframe := step_completion_or_reset_or_hostFrame h
  · exact ⟨fun _ _ => hcompletion, fun _ _ => .inl hcompletion.2⟩
  · exact ⟨fun _ hdone => absurd hdone Bool.false_ne_true, fun _ _ => .inr ⟨rest, hi⟩⟩
  · constructor
    · intro hs ht
      simp [hframe.done ht] at hs
    · intro hs ht
      simp [hframe.busy hs] at ht

/-- Settles O42: what is left is a step of the host, which cannot write the output. -/
theorem onlyCompletionOrResetChangesOutput : Obligations.OnlyCompletionOrResetChangesOutput := by
  intro s t h hreset hcompletion
  obtain hc | ⟨rest, hi, -⟩ | hframe := step_completion_or_reset_or_hostFrame h
  · exact absurd hc hcompletion
  · exact absurd hi (hreset rest)
  · exact ⟨hframe.outRe, hframe.outIm, hframe.outlen⟩

end Sys2Proof.Machine
end

section
/-! SUPPORT. O55: the address map (20_memory.md R61). Three facts say all of it: the offset of a location names that
location (`locationAt_offsetOf`), the reserved ranges name none (`locationAt_of_reservedOffset`), and every other
aligned offset of the window is the offset of a location (`isNamed_of_not_reservedOffset`). Later proofs go through
the first two and `locationAt_cases`, which joins them with the third. -/

namespace Sys2Proof.Machine

variable {off base n : Nat} {l : Location}

/-! ### The parts of the map -/

theorem entryAt_entry (base : Nat) (i : Fin n) : entryAt base n (base + 8 * i.val) = some i :=
  (entryAt_some_iff base n _ i).2 (by omega)

theorem entryAt_outside (h : off < base ∨ base + 8 * n ≤ off) : entryAt base n off = none := by
  have hno : ¬(base ≤ off ∧ off < base + 8 * n) := by omega
  exact dif_neg hno

theorem registerAt_above (h : 0x0080 ≤ off) : registerAt off = none := by
  unfold registerAt
  split
  any_goals omega
  rfl

theorem tableAt_outside (h : off < 0x0100 ∨ 0x0E00 ≤ off) : tableAt off = none := by
  simp (disch := omega) [tableAt, entryAt_outside]

/-! ### From a location to its offset and back -/

/-- A location that stands in the map is the one its offset names. -/
theorem locationAt_offsetOf (hl : l ≠ .reserved) : locationAt (offsetOf l) = l := by
  cases l with
  | reserved => exact absurd rfl hl
  | pilotIdx i | dataIdx i | cromLev i | cromRe i | cromIm i | cromMag i | cromPh i =>
    simp (disch := omega) [locationAt, offsetOf, registerAt_above, tableAt, entryAt_outside, entryAt_entry]
  | bitbuf i | symCode i | symRe i | symIm i | symMag i | symPh i | freqRe i | freqIm i | outRe i | outIm i =>
    simp (disch := omega) [locationAt, offsetOf, registerAt_above, tableAt_outside, bufferAt, entryAt_outside,
      entryAt_entry]
  | _ => rfl

theorem accessSupported_offsetOf (l : Location) : accessSupported (offsetOf l) 8 = true := by
  refine (accessSupported_iff _ _).2 ⟨rfl, ?_⟩
  cases l <;> dsimp only [offsetOf] <;> omega

theorem locationAt_of_reservedOffset (h : ReservedOffset off) : locationAt off = .reserved := by
  have hreg : registerAt off = none := registerAt_above (by omega)
  have htab : tableAt off = none := by simp (disch := omega) [tableAt, entryAt_outside]
  have hbuf : bufferAt off = none := by simp (disch := omega) [bufferAt, entryAt_outside]
  simp [locationAt, hreg, htab, hbuf]

/-! ### From an offset to its location -/

/-- The offset is that of a location of the map. -/
def IsNamed (off : Nat) : Prop := ∃ l, l ≠ .reserved ∧ offsetOf l = off

theorem isNamed_register (halign : off % 8 = 0) (h : off < 0x0080) : IsNamed off := by
  have hall : ∀ i : Fin 16, locationAt (8 * i.val) ≠ .reserved ∧ offsetOf (locationAt (8 * i.val)) = 8 * i.val := by
    decide
  have heq : 8 * (off / 8) = off := by omega
  have hreg := hall ⟨off / 8, by omega⟩
  rw [heq] at hreg
  exact ⟨_, hreg⟩

/-- The aligned offsets of an array are those of its entries. -/
theorem isNamed_entry (entry : Fin n → Location)
    (hentry : ∀ i, entry i ≠ .reserved ∧ offsetOf (entry i) = base + 8 * i.val)
    (halign : (off - base) % 8 = 0) (hmem : base ≤ off ∧ off < base + 8 * n) : IsNamed off := by
  obtain ⟨hne, hoff⟩ := hentry ⟨(off - base) / 8, by omega⟩
  exact ⟨_, hne, by rw [hoff]; dsimp only; omega⟩

/-- Every aligned offset of the window outside the reserved ranges is that of a location. -/
theorem isNamed_of_not_reservedOffset (halign : off % 8 = 0) (hlt : off < 0x8000) (h : ¬ReservedOffset off) :
    IsNamed off := by
  have hmem : off < 0x0080 ∨ (0x0100 ≤ off ∧ off < 0x0100 + 8 * 4) ∨ (0x0200 ≤ off ∧ off < 0x0200 + 8 * 48) ∨
      (0x0400 ≤ off ∧ off < 0x0400 + 8 * 64) ∨ (0x0600 ≤ off ∧ off < 0x0600 + 8 * 64) ∨
      (0x0800 ≤ off ∧ off < 0x0800 + 8 * 64) ∨ (0x0A00 ≤ off ∧ off < 0x0A00 + 8 * 64) ∨
      (0x0C00 ≤ off ∧ off < 0x0C00 + 8 * 64) ∨ (0x1000 ≤ off ∧ off < 0x1000 + 8 * 288) ∨
      (0x2000 ≤ off ∧ off < 0x2000 + 8 * 48) ∨ (0x2200 ≤ off ∧ off < 0x2200 + 8 * 48) ∨
      (0x2400 ≤ off ∧ off < 0x2400 + 8 * 48) ∨ (0x2600 ≤ off ∧ off < 0x2600 + 8 * 48) ∨
      (0x2800 ≤ off ∧ off < 0x2800 + 8 * 48) ∨ (0x3000 ≤ off ∧ off < 0x3000 + 8 * 64) ∨
      (0x3200 ≤ off ∧ off < 0x3200 + 8 * 64) ∨ (0x4000 ≤ off ∧ off < 0x4000 + 8 * 127) ∨
      (0x4400 ≤ off ∧ off < 0x4400 + 8 * 127) := by
    omega
  rcases hmem with hm | hm | hm | hm | hm | hm | hm | hm | hm | hm | hm | hm | hm | hm | hm | hm | hm | hm
  · exact isNamed_register halign hm
  · exact isNamed_entry .pilotIdx (fun _ => ⟨nofun, rfl⟩) (by omega) hm
  · exact isNamed_entry .dataIdx (fun _ => ⟨nofun, rfl⟩) (by omega) hm
  · exact isNamed_entry .cromLev (fun _ => ⟨nofun, rfl⟩) (by omega) hm
  · exact isNamed_entry .cromRe (fun _ => ⟨nofun, rfl⟩) (by omega) hm
  · exact isNamed_entry .cromIm (fun _ => ⟨nofun, rfl⟩) (by omega) hm
  · exact isNamed_entry .cromMag (fun _ => ⟨nofun, rfl⟩) (by omega) hm
  · exact isNamed_entry .cromPh (fun _ => ⟨nofun, rfl⟩) (by omega) hm
  · exact isNamed_entry .bitbuf (fun _ => ⟨nofun, rfl⟩) (by omega) hm
  · exact isNamed_entry .symCode (fun _ => ⟨nofun, rfl⟩) (by omega) hm
  · exact isNamed_entry .symRe (fun _ => ⟨nofun, rfl⟩) (by omega) hm
  · exact isNamed_entry .symIm (fun _ => ⟨nofun, rfl⟩) (by omega) hm
  · exact isNamed_entry .symMag (fun _ => ⟨nofun, rfl⟩) (by omega) hm
  · exact isNamed_entry .symPh (fun _ => ⟨nofun, rfl⟩) (by omega) hm
  · exact isNamed_entry .freqRe (fun _ => ⟨nofun, rfl⟩) (by omega) hm
  · exact isNamed_entry .freqIm (fun _ => ⟨nofun, rfl⟩) (by omega) hm
  · exact isNamed_entry .outRe (fun _ => ⟨nofun, rfl⟩) (by omega) hm
  · exact isNamed_entry .outIm (fun _ => ⟨nofun, rfl⟩) (by omega) hm

/-- Everything the map says of a supported offset: it is reserved and names nothing, or it is the offset of the
location it names. -/
theorem locationAt_cases (halign : off % 8 = 0) (hlt : off < 0x8000) :
    (ReservedOffset off ∧ locationAt off = .reserved) ∨
    (¬ReservedOffset off ∧ locationAt off ≠ .reserved ∧ offsetOf (locationAt off) = off) := by
  by_cases h : ReservedOffset off
  · exact .inl ⟨h, locationAt_of_reservedOffset h⟩
  · obtain ⟨l, hl, rfl⟩ := isNamed_of_not_reservedOffset halign hlt h
    rw [locationAt_offsetOf hl]
    exact .inr ⟨h, hl, rfl⟩

/-- Settles O55: a supported offset is reserved or that of its location, never both. -/
theorem addressMapIsInverseOfOffsets : Obligations.AddressMapIsInverseOfOffsets := by
  refine ⟨fun l hl => ⟨locationAt_offsetOf hl, accessSupported_offsetOf l⟩, fun off halign hlt hne => ?_,
    fun off halign hlt => ?_⟩
  · obtain ⟨-, hloc⟩ | ⟨-, -, hoff⟩ := locationAt_cases halign hlt
    · exact absurd hloc hne
    · exact hoff
  · obtain ⟨hres, hloc⟩ | ⟨hres, hloc, -⟩ := locationAt_cases halign hlt
    · exact iff_of_true hloc hres
    · exact iff_of_false hloc hres

end Sys2Proof.Machine
end

section
/-! SUPPORT. O35, O36, O37, O43: a host write while IDLE (20_memory.md R66). The step that takes it is the write of
its location (`step_write_of_idle`); what such a write leaves alone, `valueAt_writeAt_of_ne` says once for all
locations. -/

namespace Sys2Proof.Machine

variable {s : State} {off size : Nat} {v : Word} {a : BusInput} {rest : List BusInput} {l m : Location}

/-! ### The step of an access while IDLE -/

theorem step_of_unsupported_of_idle (hidle : s.seq = .idle) (hi : s.inputs = a :: rest) (ha : a.supported = false) :
    step s = .refused .unsupportedAccess := by
  simp [step, agentStep, hi, contendedStep, hidle, inputStep, ha]

theorem step_write_of_idle (hidle : s.seq = .idle) (hsup : accessSupported off 8 = true)
    (hi : s.inputs = .write off 8 v :: rest) :
    step s = .next (({ s with inputs := rest } : State).writeAt v (locationAt off)) := by
  have htaken : ({ s with inputs := rest } : State).seq = .idle := hidle
  rw [step_eq_takeInput hi hsup (by simp [hidle]), takeInput_write_of_idle htaken]

/-- Settles O43: such an access is not supported, so its step is the refusal. -/
theorem unsupportedAccessIsRefused : Obligations.UnsupportedAccessIsRefused := by
  intro s off size v rest hidle hbad hi
  have hsup : accessSupported off size = false := by
    rw [← Bool.not_eq_true, accessSupported_iff]
    omega
  obtain hi | hi := hi <;> exact step_of_unsupported_of_idle hidle hi hsup

/-! ### Read-only locations -/

theorem writeAt_of_isReadOnly (s : State) (v : Word) (h : isReadOnly l = true) : s.writeAt v l = s := by
  cases l with
  | ctrl | status | cmd | norm | cpfrac | pilotRe | pilotIm | bitlen | symcnt | freqlen => cases h
  | bitbuf | symCode | symRe | symIm | symMag | symPh | freqRe | freqIm => cases h
  | _ => rfl

/-- Settles O37: the step is the write of the location, which is none. -/
theorem readOnlyWriteHasNoEffect : Obligations.ReadOnlyWriteHasNoEffect := by
  intro s off v rest hidle hsup hro hi
  rw [step_write_of_idle hidle hsup hi, writeAt_of_isReadOnly _ v hro]

/-! ### What a written location reads back -/

/-- A word cut to its low `k` bits and read as a word again is the word with the other bits masked. -/
theorem setWidth_setWidth_eq_and (v : Word) (k : Nat) :
    (v.setWidth k).setWidth 64 = v &&& BitVec.ofNat 64 (2 ^ k - 1) := by
  refine BitVec.eq_of_getLsbD_eq fun i hi => ?_
  simp only [BitVec.getLsbD_setWidth, BitVec.getLsbD_and, BitVec.getLsbD_ofNat, Nat.testBit_two_pow_sub_one, hi,
    decide_true, Bool.true_and, Bool.and_comm]

/-- Settles O35: by the two equations of each location, for its write and for its read. -/
theorem writtenLocationReadsBackTruncated : Obligations.WrittenLocationReadsBackTruncated := by
  intro s v
  refine ⟨?ctrl, setWidth_setWidth_eq_and v 1, rfl, rfl, rfl, setWidth_setWidth_eq_and v 16,
    setWidth_setWidth_eq_and v 16, setWidth_setWidth_eq_and v 16, fun p => ?bitbuf, fun g => ?symCode,
    fun g => ?symbol, fun b => ?bin⟩
  case ctrl => exact BitVec.and_one_eq_setWidth_ofBool_getLsbD.symm
  case bitbuf => simpa using setWidth_setWidth_eq_and v 8
  case symCode => simpa using setWidth_setWidth_eq_and v 6
  case symbol | bin => simp

/-! ### What a write leaves alone -/

theorem getElem_set_of_ne {α : Type} {n : Nat} (cells : Vector α n) (x : α) {i j : Fin n} (h : j ≠ i) :
    (cells.set i.val x)[j] = cells[j] :=
  Vector.getElem_set_ne _ _ fun hij => h (Fin.ext hij.symm)

/-- A write of one location, other than a command, keeps what every other location reads: each has storage of its
own (10_state.md R21). -/
theorem valueAt_writeAt_of_ne (s : State) (v : Word) (hcmd : m ≠ .cmd) (hne : l ≠ m) :
    (s.writeAt v m).valueAt l = s.valueAt l := by
  cases m with
  | cmd => exact absurd rfl hcmd
  | ctrl => cases l with | ctrl => exact absurd rfl hne | _ => rfl
  | status => cases l with | status => exact absurd rfl hne | _ => rfl
  | norm => cases l with | norm => exact absurd rfl hne | _ => rfl
  | cpfrac => cases l with | cpfrac => exact absurd rfl hne | _ => rfl
  | pilotRe => cases l with | pilotRe => exact absurd rfl hne | _ => rfl
  | pilotIm => cases l with | pilotIm => exact absurd rfl hne | _ => rfl
  | bitlen => cases l with | bitlen => exact absurd rfl hne | _ => rfl
  | symcnt => cases l with | symcnt => exact absurd rfl hne | _ => rfl
  | freqlen => cases l with | freqlen => exact absurd rfl hne | _ => rfl
  | bitbuf i =>
    cases l with
    | bitbuf j => exact congrArg (BitVec.setWidth 64) (getElem_set_of_ne _ _ (mt (congrArg _) hne))
    | _ => rfl
  | symCode i =>
    cases l with
    | symCode j => exact congrArg (BitVec.setWidth 64) (getElem_set_of_ne _ _ (mt (congrArg _) hne))
    | _ => rfl
  | symRe i => cases l with | symRe j => exact getElem_set_of_ne _ _ (mt (congrArg _) hne) | _ => rfl
  | symIm i => cases l with | symIm j => exact getElem_set_of_ne _ _ (mt (congrArg _) hne) | _ => rfl
  | symMag i => cases l with | symMag j => exact getElem_set_of_ne _ _ (mt (congrArg _) hne) | _ => rfl
  | symPh i => cases l with | symPh j => exact getElem_set_of_ne _ _ (mt (congrArg _) hne) | _ => rfl
  | freqRe i => cases l with | freqRe j => exact getElem_set_of_ne _ _ (mt (congrArg _) hne) | _ => rfl
  | freqIm i => cases l with | freqIm j => exact getElem_set_of_ne _ _ (mt (congrArg _) hne) | _ => rfl
  | _ => rfl

/-- The step of a write at the offset of a location is the write of that location. -/
theorem idleWriteGives_offsetOf (hidle : s.seq = .idle) (hl : l ≠ .reserved) (v : Word) (rest : List BusInput) :
    IdleWriteGives s (offsetOf l) v rest (({ s with inputs := rest } : State).writeAt v l) := by
  intro hi
  rw [step_write_of_idle hidle (accessSupported_offsetOf l) hi, locationAt_offsetOf hl]

/-- The low bits of a word are the word cut to that width, by computation. -/
theorem registerWritesTakeEffect (hidle : s.seq = .idle) (v : Word) (rest : List BusInput) :
    RegisterWritesTakeEffect s v rest := by
  have hwrite (l : Location) (hl : l ≠ .reserved) := idleWriteGives_offsetOf hidle hl v rest
  exact ⟨hwrite .ctrl nofun, hwrite .norm nofun, hwrite .cpfrac nofun, hwrite .pilotRe nofun, hwrite .pilotIm nofun,
    hwrite .bitlen nofun, hwrite .symcnt nofun, hwrite .freqlen nofun⟩

theorem bufferWritesTakeEffect (hidle : s.seq = .idle) (v : Word) (rest : List BusInput) :
    BufferWritesTakeEffect s v rest := by
  have hwrite (l : Location) (hl : l ≠ .reserved) := idleWriteGives_offsetOf hidle hl v rest
  exact ⟨fun p => hwrite (.bitbuf p) nofun,
    fun g => ⟨hwrite (.symCode g) nofun, hwrite (.symRe g) nofun, hwrite (.symIm g) nofun, hwrite (.symMag g) nofun,
      hwrite (.symPh g) nofun⟩,
    fun b => ⟨hwrite (.freqRe b) nofun, hwrite (.freqIm b) nofun⟩⟩

/-- Settles O36: the step is the write of its location, and no two locations share storage. -/
theorem idleWriteTouchesOneLocation : Obligations.IdleWriteTouchesOneLocation := by
  refine ⟨fun s v rest hidle => ⟨registerWritesTakeEffect hidle v rest, bufferWritesTakeEffect hidle v rest⟩, ?_⟩
  intro s off v l hidle hcmd hne
  obtain ⟨hbusy, -⟩ | ⟨-, hwrite⟩ := hostWrite_cases s off v
  · simp [hidle] at hbusy
  · rw [hwrite, valueAt_writeAt_of_ne s v hcmd hne]

end Sys2Proof.Machine
end

section
/-! SUPPORT. O34, O33: a host read (20_memory.md R65, R71). What stands at each offset of the map is the value of the
location it names; the step that takes a read appends that value, or a free one at the offsets of VOLATILE while
BUSY. -/

namespace Sys2Proof.Machine

variable {s : State} {off : Nat} {rest : List BusInput} {l : Location}

/-! ### The level fields of CROM_LEV -/

theorem levelOf_range {P : Config.Params} (hP : P.levelsLegal = true) (x : BitVec 3) :
    -2 ^ (4 - 1) ≤ levelOf P.levelOfBits x ∧ levelOf P.levelOfBits x < 2 ^ (4 - 1) := by
  have hmem : levelOf P.levelOfBits x ∈ P.levelOfBits.toList := by simp [levelOf]
  have hlegal := List.all_eq_true.1 hP _ hmem
  simp only [List.contains_eq_mem, List.mem_cons, List.not_mem_nil, or_false, decide_eq_true_eq] at hlegal
  omega

/-- A legal level fits the 4-bit two's-complement field (30_encoding.md R89). -/
theorem toInt_ofInt_levelOf {P : Config.Params} (hP : P.levelsLegal = true) (x : BitVec 3) :
    (BitVec.ofInt 4 (levelOf P.levelOfBits x)).toInt = levelOf P.levelOfBits x :=
  BitVec.toInt_ofInt_eq_self (by decide) (levelOf_range hP x).1 (levelOf_range hP x).2

/-- The bits of CROM_LEV: zeros, QLEV, ILEV. -/
theorem valueAt_cromLev (s : State) (c : Fin 64) :
    s.valueAt (.cromLev c) = 0#56 ++ (BitVec.ofInt 4 (s.romAt c).qlev ++ BitVec.ofInt 4 (s.romAt c).ilev) := by
  simp only [State.valueAt, levelFields, BitVec.setWidth_eq_append (show 8 ≤ 64 by decide)]
  rfl

theorem cromLev_ilev (s : State) (c : Fin 64) :
    (s.valueAt (.cromLev c)).extractLsb' 0 4 = BitVec.ofInt 4 (s.romAt c).ilev := by
  rw [valueAt_cromLev, BitVec.extractLsb'_append_eq_of_add_le (by decide), BitVec.extractLsb'_append_eq_right]

theorem cromLev_qlev (s : State) (c : Fin 64) :
    (s.valueAt (.cromLev c)).extractLsb' 4 4 = BitVec.ofInt 4 (s.romAt c).qlev := by
  rw [valueAt_cromLev, BitVec.extractLsb'_append_eq_of_add_le (by decide), BitVec.extractLsb'_append_eq_left]

theorem cromLev_high (s : State) (c : Fin 64) : (s.valueAt (.cromLev c)).extractLsb' 8 56 = 0 := by
  rw [valueAt_cromLev, BitVec.extractLsb'_append_eq_left]
  rfl

/-! ### The true value at each offset -/

theorem flagWord_eq_ite (b : Bool) : flagWord b = if b then 1 else 0 := by
  cases b <;> rfl

/-- An index into the 64 bins fits a word. -/
theorem toNat_ofNat_val (b : Fin 64) : (BitVec.ofNat 64 b.val).toNat = b.val := by
  rw [BitVec.toNat_ofNat]
  omega

theorem valueAt_locationAt_offsetOf (s : State) (hl : l ≠ .reserved) :
    s.valueAt (locationAt (offsetOf l)) = s.valueAt l := by
  rw [locationAt_offsetOf hl]

theorem registersReadTheirState (s : State) : RegistersReadTheirState s :=
  ⟨rfl, flagWord_eq_ite s.ie, rfl, rfl, rfl, rfl, rfl, rfl, rfl, rfl, rfl, rfl, rfl, rfl, rfl, rfl⟩

theorem tablesReadTheParameters (s : State) : TablesReadTheParameters s := by
  have hread (l : Location) (hl : l ≠ .reserved) := valueAt_locationAt_offsetOf s hl
  have hlev (c : Fin 64) : s.valueAt (locationAt (0x0400 + 8 * c.val)) = s.valueAt (.cromLev c) :=
    hread (.cromLev c) nofun
  refine ⟨fun p => ?pilotIdx, fun d => ?dataIdx, fun hP c => ?levels, fun c => ⟨?high, hread (.cromRe c) nofun,
    hread (.cromIm c) nofun, hread (.cromMag c) nofun, hread (.cromPh c) nofun⟩⟩
  case pilotIdx => exact (congrArg _ (hread (.pilotIdx p) nofun)).trans (toNat_ofNat_val _)
  case dataIdx => exact (congrArg _ (hread (.dataIdx d) nofun)).trans (toNat_ofNat_val _)
  case levels =>
    rw [hlev, cromLev_ilev, cromLev_qlev]
    exact ⟨toInt_ofInt_levelOf hP _, toInt_ofInt_levelOf hP _⟩
  case high => rw [hlev, cromLev_high]

theorem buffersReadTheirCells (s : State) : BuffersReadTheirCells s := by
  have hread (l : Location) (hl : l ≠ .reserved) := valueAt_locationAt_offsetOf s hl
  exact ⟨fun p => hread (.bitbuf p) nofun,
    fun g => ⟨hread (.symCode g) nofun, hread (.symRe g) nofun, hread (.symIm g) nofun, hread (.symMag g) nofun,
      hread (.symPh g) nofun⟩,
    fun b => ⟨hread (.freqRe b) nofun, hread (.freqIm b) nofun⟩,
    fun n => ⟨hread (.outRe n) nofun, hread (.outIm n) nofun⟩⟩

theorem reservedReadsZero (s : State) : ReservedReadsZero s := by
  intro off h
  rw [locationAt_of_reservedOffset h, valueAt_reserved]

/-! ### The step that takes a read -/

/-- The bookkeeping of the model is at no location. -/
theorem valueAt_bookkeeping (s : State) (rest : List BusInput) (w : Nat) (l : Location) :
    ({ s with inputs := rest, wait := w } : State).valueAt l = s.valueAt l := by
  cases l <;> rfl

theorem takeInput_read_of_idle (h : s.seq = .idle) (off size : Nat) :
    s.takeInput (.read off size) = { s with replies := s.valueAt (locationAt off) :: s.replies } := by
  simp [State.takeInput, countAccess_of_idle h, State.hostRead, h]

theorem takeInput_read_volatile_of_busy (h : s.seq = .busy) (hvol : isVolatile (locationAt off) = true)
    (size : Nat) :
    s.takeInput (.read off size) = { s with
      replies := Config.draw s.draws :: s.replies, wait := s.wait - 1, draws := s.draws + 1 } := by
  simp [State.takeInput, countAccess_of_busy h, State.hostRead, h, hvol]

theorem takeInput_read_of_busy (h : s.seq = .busy) (hvol : isVolatile (locationAt off) = false) (size : Nat) :
    s.takeInput (.read off size) = { s with
      replies := s.valueAt (locationAt off) :: s.replies, wait := s.wait - 1 } := by
  simp [State.takeInput, countAccess_of_busy h, State.hostRead, hvol, valueAt_bookkeeping s s.inputs (s.wait - 1)]

theorem step_read_of_idle (hidle : s.seq = .idle) (hsup : accessSupported off 8 = true)
    (hi : s.inputs = .read off 8 :: rest) :
    step s = .next { s with inputs := rest, replies := s.valueAt (locationAt off) :: s.replies } := by
  have htaken : ({ s with inputs := rest } : State).seq = .idle := hidle
  rw [step_eq_takeInput hi hsup (by simp [hidle]), takeInput_read_of_idle htaken, valueAt_bookkeeping s rest s.wait]

theorem step_read_volatile_of_busy (hbusy : s.seq = .busy) (hwait : s.wait ≠ 0) (hsup : accessSupported off 8 = true)
    (hi : s.inputs = .read off 8 :: rest) (hvol : isVolatile (locationAt off) = true) :
    step s = .next { s with
      inputs := rest, replies := Config.draw s.draws :: s.replies, wait := s.wait - 1, draws := s.draws + 1 } := by
  have htaken : ({ s with inputs := rest } : State).seq = .busy := hbusy
  rw [step_eq_takeInput hi hsup (fun _ => hwait), takeInput_read_volatile_of_busy htaken hvol]

theorem step_read_of_busy (hbusy : s.seq = .busy) (hwait : s.wait ≠ 0) (hsup : accessSupported off 8 = true)
    (hi : s.inputs = .read off 8 :: rest) (hvol : isVolatile (locationAt off) = false) :
    step s = .next { s with
      inputs := rest, replies := s.valueAt (locationAt off) :: s.replies, wait := s.wait - 1 } := by
  have htaken : ({ s with inputs := rest } : State).seq = .busy := hbusy
  rw [step_eq_takeInput hi hsup (fun _ => hwait), takeInput_read_of_busy htaken hvol,
    valueAt_bookkeeping s rest s.wait]

/-- Settles O34: the values offset by offset, and the step of a read while IDLE. -/
theorem readWhileIdleReturnsTruth : Obligations.ReadWhileIdleReturnsTruth :=
  ⟨fun s => ⟨registersReadTheirState s, tablesReadTheParameters s, buffersReadTheirCells s, reservedReadsZero s⟩,
    fun _ _ _ => step_read_of_idle⟩

/-! ### VOLATILE -/

/-- A location is in VOLATILE where its offset is (20_memory.md R65). -/
theorem isVolatile_iff_offsetOf (l : Location) : isVolatile l = true ↔ VolatileOffset (offsetOf l) := by
  cases l with
  | errinfo | bitlen | symcnt | freqlen | outlen | bitbuf | symCode | symRe | symIm | symMag | symPh | freqRe
  | freqIm | outRe | outIm => exact iff_of_true rfl (by dsimp only [offsetOf]; omega)
  | _ => exact iff_of_false nofun (by dsimp only [offsetOf]; omega)

theorem isVolatile_locationAt_iff (halign : off % 8 = 0) (hlt : off < 0x8000) :
    isVolatile (locationAt off) = true ↔ VolatileOffset off := by
  obtain ⟨hres, hloc⟩ | ⟨-, -, hoff⟩ := locationAt_cases halign hlt
  · rw [hloc]
    exact iff_of_false nofun (by omega)
  · rw [isVolatile_iff_offsetOf, hoff]

/-- Settles O33: the step of a read while BUSY, with VOLATILE at its offsets; STATUS is not one of them. -/
theorem readWhileBusyReturnsDrawOrTruth : Obligations.ReadWhileBusyReturnsDrawOrTruth := by
  intro s off rest hbusy hwait hsup hi
  obtain ⟨-, halign, hlt⟩ := (accessSupported_iff off 8).1 hsup
  have hvol := isVolatile_locationAt_iff halign hlt
  have htruth := step_read_of_busy hbusy hwait hsup hi
  have hbit : (s.valueAt .status).getLsbD 0 = true := by
    rw [(statusWordHoldsItsFields s).1, decide_eq_true hbusy]
  refine ⟨hvol, fun h => step_read_volatile_of_busy hbusy hwait hsup hi (hvol.2 h),
    fun h => htruth (Bool.eq_false_iff.2 (mt hvol.1 h)), ?status, hbit, hbit⟩
  case status =>
    rintro rfl
    exact htruth rfl

end Sys2Proof.Machine
end

section
/-! SUPPORT. O44, O56: what no command touches. A field that the completion and the writes of the units leave alone is
the same after every completion (`CompletionKeeps.completion`); the inputs to come and the parameters are such
fields. -/

namespace Sys2Proof.Machine

variable {s t : State} {l : Location}

/-! ### What a completion leaves alone -/

/-- The part `f` of the state is written by no completion and by no unit (43_sequencer.md R182). -/
structure CompletionKeeps {α : Type} (f : State → α) : Prop where
  finish : ∀ s op code sub info, f (s.finish op code sub info) = f s
  map : ∀ s, f (mapWrites s) = f s
  assemble : ∀ P s, f (assembleWritesWith P s) = f s
  synth : ∀ impl s, f (synthWritesWith impl s) = f s

theorem completionKeeps_inputs : CompletionKeeps State.inputs :=
  ⟨fun _ _ _ _ _ => rfl, fun _ => rfl, fun _ _ => rfl, fun _ _ => rfl⟩

theorem completionKeeps_params : CompletionKeeps State.params :=
  ⟨fun _ _ _ _ _ => rfl, fun _ => rfl, fun _ _ => rfl, fun _ _ => rfl⟩

section
variable {α : Type} {f : State → α}

theorem CompletionKeeps.completeWith {written : State} (hf : CompletionKeeps f) (op : Byte)
    (error : Option CommandError) (hwritten : f written = f s) : f (completeWith op error written s) = f s := by
  obtain ⟨-, h⟩ | ⟨e, -, h⟩ := completeWith_cases op error written s
  · rw [h, hf.finish, hwritten]
  · rw [h, hf.finish]

theorem CompletionKeeps.exec (hf : CompletionKeeps f) {i : Instr} (h : exec i s = .next t) : f t = f s := by
  cases i <;> obtain rfl := Host.Outcome.next.inj h
  case map => exact hf.completeWith _ _ (hf.map s)
  case assemble => exact hf.completeWith _ _ (hf.assemble _ s)
  case synth => exact hf.completeWith _ _ (hf.synth _ s)
  case run => exact hf.completeWith _ _ ((hf.synth _ _).trans ((hf.assemble _ _).trans (hf.map s)))

theorem CompletionKeeps.completion (hf : CompletionKeeps f) (h : completion s = .next t) : f t = f s := by
  cases hd : decode s.pend with
  | ok i => exact hf.exec ((completion_legal s i hd).symm.trans h)
  | error e =>
    obtain rfl := Host.Outcome.next.inj ((completion_illegal s e hd).symm.trans h)
    exact hf.finish s _ _ _ _

end

/-! ### The inputs to come -/

theorem countAccess_inputs (s : State) : s.countAccess.inputs = s.inputs := by
  unfold State.countAccess
  split <;> rfl

theorem hostRead_inputs (s : State) (off : Nat) : (s.hostRead off).2.inputs = s.inputs := by
  obtain ⟨-, -, h⟩ | ⟨-, h⟩ := hostRead_cases s off <;> rw [h]

theorem writeAt_inputs (s : State) (v : Word) (l : Location) : (s.writeAt v l).inputs = s.inputs := by
  cases l <;> rfl

theorem hostWrite_inputs (s : State) (off : Nat) (v : Word) : (s.hostWrite off v).inputs = s.inputs := by
  obtain ⟨-, h⟩ | ⟨-, h⟩ := hostWrite_cases s off v <;> rw [h]
  exact writeAt_inputs s v _

/-- The machine does not touch what comes after the input it takes. -/
theorem takeInput_inputs (s : State) (a : BusInput) : (s.takeInput a).inputs = s.inputs := by
  cases a with
  | read off size => exact (hostRead_inputs _ off).trans (countAccess_inputs s)
  | write off size v => exact (hostWrite_inputs _ off v).trans (countAccess_inputs s)
  | reset => rfl

/-- Settles O44: a completion and a quiet step keep the list, a supported input leaves the rest of it, and the refusal
needs an unsupported one. -/
theorem supportedInputsNeverStop : Obligations.SupportedInputsNeverStop := by
  intro s hsup
  obtain ⟨-, hstep⟩ | ⟨-, -, hstep⟩ | ⟨a, rest, hi, -, -, hstep⟩ | ⟨a, rest, hi, hbad, -, -⟩ := step_cases s
  · obtain ⟨t, ht⟩ := completion_next s
    refine ⟨t, hstep.trans ht, ?_⟩
    rwa [completionKeeps_inputs.completion ht]
  · exact ⟨s, hstep, hsup⟩
  · refine ⟨_, hstep, ?_⟩
    rw [takeInput_inputs]
    exact fun b hb => hsup b (hi ▸ List.mem_cons_of_mem a hb)
  · have ha : a.supported = true := hsup a (hi ▸ List.mem_cons_self)
    simp [hbad] at ha

/-! ### The parameters and the constants -/

theorem takeInput_params (s : State) (a : BusInput) : (s.takeInput a).params = s.params := by
  cases a with
  | read off size => exact (hostRead_params _ off).trans (countAccess_params s)
  | write off size v => exact (hostWrite_params _ v off).trans (countAccess_params s)
  | reset => rfl

theorem step_params (h : step s = .next t) : t.params = s.params := by
  obtain ⟨-, hstep⟩ | ⟨-, -, hstep⟩ | ⟨a, rest, -, -, -, hstep⟩ | ⟨_, _, -, -, -, hstep⟩ := step_cases s <;>
    rw [hstep] at h
  · exact completionKeeps_params.completion h
  · rw [Host.Outcome.next.inj h]
  · obtain rfl := Host.Outcome.next.inj h
    exact takeInput_params _ a
  · cases h

theorem isVolatile_of_isConstant (h : isConstant l = true) : isVolatile l = false := by
  cases l with
  | errinfo | bitlen | symcnt | freqlen | outlen | bitbuf | symCode | symRe | symIm | symMag | symPh | freqRe
  | freqIm | outRe | outIm => cases h
  | _ => rfl

theorem valueAt_of_isConstant (hp : s.params = t.params) (h : isConstant l = true) : s.valueAt l = t.valueAt l := by
  cases l with
  | id | cmd | reserved => rfl
  | nfft | ndata | npilot | pilotIdx | dataIdx | cromLev | cromRe | cromIm | cromMag | cromPh =>
    exact valueAt_constant s t hp _ (by simp)
  | _ => cases h

/-- No constant is in VOLATILE, so its true value is read, BUSY or not. -/
theorem hostRead_of_isConstant (s : State) {off : Nat} (h : isConstant (locationAt off) = true) :
    s.hostRead off = (s.valueAt (locationAt off), s) := by
  obtain ⟨-, hvol, -⟩ | ⟨-, hread⟩ := hostRead_cases s off
  · simp [isVolatile_of_isConstant h] at hvol
  · exact hread

/-- Settles O56: a constant reads its true value, which is made of the parameters. -/
theorem constantsReadTheSameAlways : Obligations.ConstantsReadTheSameAlways := by
  refine ⟨fun s t => step_params, fun s t off hp hconst => ?_⟩
  rw [hostRead_of_isConstant s hconst, hostRead_of_isConstant t hconst]
  exact ⟨valueAt_of_isConstant hp hconst, rfl⟩

end Sys2Proof.Machine
end

section
/-! SUPPORT. O23: what no command writes (30_encoding.md R83). Each unit keeps the value of every location outside its
own row, the completion of every location but STATUS and ERRINFO, and RUN may write what any of its three units may
(43_sequencer.md R183). -/

namespace Sys2Proof.Machine

variable {s t : State} {l : Location}

/-! ### Where a command may write -/

/-- The row of RUN is the union of the rows of its units (30_encoding.md R83). -/
theorem mayWrite_run (cpfrac : Word) (l : Location) :
    mayWrite .run cpfrac l = (mayWrite .map cpfrac l || mayWrite .assemble cpfrac l || mayWrite .synth cpfrac l) := by
  cases l <;> simp [mayWrite]

/-! ### What each unit leaves alone -/

theorem valueAt_mapWrites {cpfrac : Word} (h : mayWrite .map cpfrac l = false) :
    (mapWrites s).valueAt l = s.valueAt l := by
  cases l with
  | symCode | symRe | symIm | symMag | symPh | symcnt => cases h
  | _ => rfl

theorem valueAt_assembleWrites {cpfrac : Word} (h : mayWrite .assemble cpfrac l = false) :
    (assembleWrites s).valueAt l = s.valueAt l := by
  cases l with
  | freqRe | freqIm | freqlen => cases h
  | _ => rfl

/-- An entry at or beyond 64 + cp_len keeps its contents (42_synthesizer.md R159). -/
theorem outputArray_tail (cp : Fin 64) (block : Vector Word 64) (old : Vector Word 127) (n : Fin 127)
    (h : 64 + cp.val ≤ n.val) : (outputArray cp block old)[n] = old[n] :=
  (outputArray_getElem cp block old n.val n.isLt).trans (outputCell_tail cp block old n (by omega))

/-- For every numerics: the samples differ, the places they are written to do not. -/
theorem valueAt_synthWritesWith (impl : Config.SynthImpl) (h : mayWrite .synth s.cpfrac l = false) :
    (synthWritesWith impl s).valueAt l = s.valueAt l := by
  cases l with
  | outlen => cases h
  | outRe n | outIm n => exact outputArray_tail _ _ _ n (by simpa [mayWrite] using h)
  | _ => rfl

/-- Neither MAP nor ASSEMBLE writes CPFRAC, so SYNTH in the chain has the cp_len that RUN started with. -/
theorem valueAt_runWrites (h : mayWrite .run s.cpfrac l = false) : (runWrites s).valueAt l = s.valueAt l := by
  obtain ⟨⟨hmap, hassemble⟩, hsynth⟩ :
      (mayWrite .map s.cpfrac l = false ∧ mayWrite .assemble s.cpfrac l = false) ∧
        mayWrite .synth s.cpfrac l = false := by
    simpa only [mayWrite_run, Bool.or_eq_false_iff] using h
  calc (runWrites s).valueAt l
    _ = (assembleWrites (mapWrites s)).valueAt l := valueAt_synthWritesWith synthImpl hsynth
    _ = (mapWrites s).valueAt l := valueAt_assembleWrites hassemble
    _ = s.valueAt l := valueAt_mapWrites hmap

/-! ### What a completion leaves alone -/

theorem valueAt_finish (op : Byte) (code sub : BitVec 4) (info : Word) (hstatus : l ≠ .status)
    (herrinfo : l ≠ .errinfo) : (s.finish op code sub info).valueAt l = s.valueAt l := by
  cases l with
  | status => exact absurd rfl hstatus
  | errinfo => exact absurd rfl herrinfo
  | _ => rfl

/-- A completion changes, besides STATUS and ERRINFO, at most what the command's body writes. -/
theorem valueAt_completeWith {written : State} (op : Byte) (error : Option CommandError) (hstatus : l ≠ .status)
    (herrinfo : l ≠ .errinfo) (hwritten : written.valueAt l = s.valueAt l) :
    (completeWith op error written s).valueAt l = s.valueAt l := by
  obtain ⟨-, h⟩ | ⟨e, -, h⟩ := completeWith_cases op error written s <;> rw [h]
  · exact (valueAt_finish _ _ _ _ hstatus herrinfo).trans hwritten
  · exact valueAt_finish _ _ _ _ hstatus herrinfo

/-! ### The four commands -/

theorem valueAt_exec {i : Instr} (hexec : exec i s = .next t) (h : mayWrite i s.cpfrac l = false) :
    t.valueAt l = s.valueAt l := by
  have hstatus : l ≠ .status := by rintro rfl; cases h
  have herrinfo : l ≠ .errinfo := by rintro rfl; cases h
  cases i <;> obtain rfl := Host.Outcome.next.inj hexec
  case map => exact valueAt_completeWith _ _ hstatus herrinfo (valueAt_mapWrites h)
  case assemble => exact valueAt_completeWith _ _ hstatus herrinfo (valueAt_assembleWrites h)
  case synth => exact valueAt_completeWith _ _ hstatus herrinfo (valueAt_synthWritesWith synthImpl h)
  case run => exact valueAt_completeWith _ _ hstatus herrinfo (valueAt_runWrites h)

/-- Settles O23: a byte of the window is a lane of its location's value, and that value is kept. -/
theorem commandsLeaveOtherWindowBytesAlone : Obligations.CommandsLeaveOtherWindowBytesAlone := by
  intro i s t a hexec h
  exact congrArg (byteLane · (a % 8)) (valueAt_exec hexec h)

end Sys2Proof.Machine
end

section
/-! SUPPORT. O54, O53: the command word (30_encoding.md R80 to R82). A word is its two fields side by side; a decoded
word has RSVD zero and the command's OP, so it is the word of that command; the other words are rejected for one of
two reasons. -/

namespace Sys2Proof.Machine

variable {w : Word}

/-- RSVD and OP are all the bits of a word (30_encoding.md R80). -/
theorem rsvdField_append_opField (w : Word) : (rsvdField w ++ opField w : Word) = w :=
  BitVec.extractLsb'_append_extractLsb'

/-- What a decoded word's fields hold (30_encoding.md R81). -/
theorem fields_of_decode_ok {i : Instr} (h : decode w = .ok i) : rsvdField w = 0 ∧ opField w = opcode i := by
  unfold decode at h
  split at h
  case isFalse => cases h
  case isTrue hrsvd =>
    refine ⟨hrsvd, BitVec.eq_of_toNat_eq ?_⟩
    split at h <;> cases h <;> assumption

/-- A word with a reserved bit set is illegal whatever its OP (30_encoding.md R82). -/
theorem decode_of_rsvdField_ne_zero (h : rsvdField w ≠ 0) : decode w = .error .reservedNotZero := if_neg h

/-- A word with RSVD zero and an OP outside 0x01..0x04 is an unknown operation (30_encoding.md R82). -/
theorem decode_of_opField_unlisted (hrsvd : rsvdField w = 0) (hop : ∀ i, opField w ≠ opcode i) :
    decode w = .error .unknownOperation := by
  cases hd : decode w with
  | ok i => exact absurd (fields_of_decode_ok hd).2 (hop i)
  | error e =>
    unfold decode at hd
    rw [if_pos hrsvd] at hd
    split at hd <;> cases hd
    rfl

/-- Settles O54: a decoded word is rebuilt from its fields, which are those of the command's word. -/
theorem decodeIsInverseOfEncode : Obligations.DecodeIsInverseOfEncode := by
  refine fun w i => ⟨fun h => ?_, fun h => h ▸ decode_encode i⟩
  obtain ⟨hrsvd, hop⟩ := fields_of_decode_ok h
  rw [← rsvdField_append_opField w, hrsvd, hop, encode]

/-- Settles O53: the first four are the words of the commands, the next two have an unlisted OP, the last two a
reserved bit. -/
theorem commandWordsDecode : Obligations.CommandWordsDecode :=
  ⟨decode_encode .map, decode_encode .assemble, decode_encode .synth, decode_encode .run,
    decode_of_opField_unlisted (by decide) (fun i => by cases i <;> decide),
    decode_of_opField_unlisted (by decide) (fun i => by cases i <;> decide),
    decode_of_rsvdField_ne_zero (by decide), decode_of_rsvdField_ne_zero (by decide)⟩

end Sys2Proof.Machine
end

section
/-! SUPPORT. O57, O58: the default level map (40_mapper.md R101, R102, R115), checked label by label. -/

namespace Sys2Proof.Machine

/-- Each entry of GRAY is its index XOR the index halved (40_mapper.md R101). -/
theorem gray_eq_xor_shift (x : Fin 8) : (gray[x]).val = x.val ^^^ (x.val >>> 1) := by
  revert x; decide

/-- The row LEVEL_OF_BITS of the table of 40_mapper.md R102. -/
theorem defaultLevelOfBits_eq : defaultLevelOfBits = #v[-7, -5, -1, -3, 5, 7, 3, 1] := by decide

/-- Settles O57: the two tables are literal. -/
theorem levelMapIsLiteralGrayLookup : Obligations.LevelMapIsLiteralGrayLookup :=
  ⟨gray_eq_xor_shift, defaultLevelOfBits_eq⟩

/-- Settles O58, over the 64 pairs of labels. -/
theorem adjacentLevelsAreNotAlwaysGray : Obligations.AdjacentLevelsAreNotAlwaysGray := by
  unfold Obligations.AdjacentLevelsAreNotAlwaysGray
  decide

end Sys2Proof.Machine
end

section
/-! SUPPORT. O1, O2: MAP on a loaded bit string (40_mapper.md R109 to R113). Its checks pass, so its completion holds
its writes; each bit of a code is one character of the group, by induction on the string. -/

namespace Sys2Proof.Machine

variable {s : State}

/-! ### The completion of MAP -/

theorem mapError_none_iff (s : State) : mapError s = none ↔ BitsLoaded s := by
  rw [mapError, firstError_none_iff, lengthError_none_iff, symbolError_none_iff, BitsLoaded]

theorem exec_map_of_bitsLoaded (h : BitsLoaded s) : exec .map s = .next ((mapWrites s).finish 0x01 0 0 0) := by
  rw [exec, execMap, (mapError_none_iff s).2 h]
  rfl

/-- Settles O1: each part of record g is the ROM's at the code of record g; the rest is the completion in success. -/
theorem mapSucceedsOnBinaryString : Obligations.MapSucceedsOnBinaryString := by
  intro s h
  exact ⟨_, exec_map_of_bitsLoaded h, fun g => by simp, rfl⟩

/-! ### The bits of a code -/

/-- One more character at the end is one more bit at the bottom. -/
theorem binaryValue_concat (l : List Byte) (ch : Byte) :
    binaryValue (l ++ [ch]) = 2 * binaryValue l + (ch.toNat - 0x30) := by
  simp [binaryValue]

/-- A binary character is worth 1 if it is '1' and 0 else (30_encoding.md R87). -/
theorem digit_of_isBinary {ch : Byte} (h : isBinary ch = true) :
    ch.toNat - 0x30 = (decide (ch = 0x31)).toNat := by
  obtain rfl | rfl := (isBinary_iff ch).1 h <;> rfl

theorem testBit_zero_double_add (n : Nat) (d : Bool) : (2 * n + d.toNat).testBit 0 = d := by
  have hodd : (2 * n + d.toNat) % 2 = d.toNat := by have := d.toNat_lt; omega
  rw [Nat.testBit_zero, hodd]
  simp

theorem testBit_succ_double_add (n k : Nat) (d : Bool) : (2 * n + d.toNat).testBit (k + 1) = n.testBit k := by
  have hhalf : (2 * n + d.toNat) / 2 = n := by have := d.toNat_lt; omega
  rw [Nat.testBit_succ, hhalf]

/-- Read from its last character on, a binary string shows the bits of its value from bit 0 on. -/
theorem testBit_binaryValue_reverse (l : List Byte) (hl : ∀ ch ∈ l, isBinary ch = true) (k : Nat)
    (hk : k < l.length) : (binaryValue l.reverse).testBit k = decide (l[k] = 0x31) := by
  induction l generalizing k with
  | nil => simp at hk
  | cons ch rest ih =>
    obtain ⟨hch, hrest⟩ := List.forall_mem_cons.1 hl
    rw [List.reverse_cons, binaryValue_concat, digit_of_isBinary hch]
    cases k with
    | zero => rw [testBit_zero_double_add]; rfl
    | succ k => rw [testBit_succ_double_add]; exact ih hrest k (by simpa using hk)

/-- Bit 5 - j of the code of group g is character 6g + j (40_mapper.md R110). -/
theorem getLsbD_groupCode (h : BitsLoaded s) (g : Fin 48) (j : Fin 6) :
    (groupCode s.bitbuf g).getLsbD (5 - j.val) = decide (s.bitbuf[6 * g.val + j.val] = 0x31) := by
  obtain ⟨-, hbits⟩ := h
  have hbinary : ∀ ch ∈ (groupChars s.bitbuf g).reverse, isBinary ch = true := by
    intro ch hch
    obtain ⟨i, rfl⟩ := (List.mem_ofFn' _ _).1 (List.mem_reverse.1 hch)
    exact (isBinary_iff _).2 (hbits ⟨6 * g.val + i.val, by omega⟩)
  have hbit := testBit_binaryValue_reverse _ hbinary (5 - j.val) (by simp [groupChars]; omega)
  have hpos : 6 - 1 - (5 - j.val) = j.val := by omega
  simp only [List.reverse_reverse, groupChars, List.getElem_reverse, List.getElem_ofFn, List.length_ofFn, hpos] at hbit
  rw [groupCode, BitVec.getLsbD_ofNat, decide_eq_true (by omega), Bool.true_and]
  exact hbit

theorem getLsbD_inPhase (c : BitVec 6) (j : Fin 3) : (inPhase c).getLsbD (2 - j.val) = c.getLsbD (5 - j.val) := by
  have hpos : 3 + (2 - j.val) = 5 - j.val := by omega
  rw [inPhase, BitVec.getLsbD_extractLsb', hpos, decide_eq_true (by omega), Bool.true_and]

theorem getLsbD_quadrature (c : BitVec 6) (j : Fin 3) :
    (quadrature c).getLsbD (2 - j.val) = c.getLsbD (5 - (3 + j.val)) := by
  have hpos : 0 + (2 - j.val) = 5 - (3 + j.val) := by omega
  rw [quadrature, BitVec.getLsbD_extractLsb', hpos, decide_eq_true (by omega), Bool.true_and]

/-- Settles O2: the code's bits are the characters; the halves are its upper and its lower three bits. -/
theorem mapCodeFirstCharacterMostSignificant : Obligations.MapCodeFirstCharacterMostSignificant := by
  intro s h
  refine ⟨_, exec_map_of_bitsLoaded h, fun g => ?_⟩
  have hcode : ((mapWrites s).finish 0x01 0 0 0).symCode[g] = groupCode s.bitbuf g := by simp
  rw [hcode]
  refine ⟨getLsbD_groupCode h g, fun j => ?_, fun j => ?_⟩
  · rw [getLsbD_inPhase]
    exact getLsbD_groupCode h g ⟨j.val, by omega⟩
  · rw [getLsbD_quadrature]
    simpa only [Nat.add_assoc] using getLsbD_groupCode h g ⟨3 + j.val, by omega⟩

end Sys2Proof.Machine
end

section
/-! SUPPORT. O59: the mean power of the exact constellation (40_mapper.md R103, R104, R114). K squared is 1/42 and the
squares of the levels sum to 64 * 42. -/

namespace Sys2Proof.Machine

theorem scaleK_nonneg : 0 ≤ scaleK := by
  unfold scaleK
  positivity

theorem scaleK_sq : scaleK ^ 2 = 1 / 42 := by
  rw [scaleK, div_pow, one_pow, Real.sq_sqrt (by norm_num)]

/-- The sum of the squares of a code's two levels. -/
def levelPower (c : BitVec 6) : ℤ := (rom c).ilev ^ 2 + (rom c).qlev ^ 2

theorem norm_exactPoint_sq (c : BitVec 6) : ‖exactPoint c‖ ^ 2 = 1 / 42 * (levelPower c : ℝ) := by
  rw [Complex.sq_norm, Complex.normSq_apply, levelPower, ← scaleK_sq, exactPoint]
  push_cast
  ring

theorem sum_levelPower : ∑ c : Fin 64, levelPower (BitVec.ofNat 6 c.val) = 64 * 42 := by decide

/-- Settles O59: each point has a 42nd of the power of its levels. -/
theorem constellationMeanPowerIsOne : Obligations.ConstellationMeanPowerIsOne := by
  unfold Obligations.ConstellationMeanPowerIsOne
  simp only [norm_exactPoint_sq, ← Finset.mul_sum, ← Int.cast_sum, sum_levelPower]
  norm_num

end Sys2Proof.Machine
end

section
/-! SUPPORT. O60: the stored constants of the ROM (40_mapper.md R105 to R107). A binary64 less than half a last place
from x is RN(x), since every other finite one is at least a last place away from it (`isRN_of_abs_sub_lt`). The exact
values are square roots of rationals, so for a constant this is a comparison of squares (`isRN_of_bracketsRoot`), which
is checked for each level and each pair of levels. -/

namespace Sys2Proof.Machine

variable {b v : Word} {P : Config.Params}

/-! ### A binary64 less than half a last place away is the nearest -/

theorem abs_f64Value (v : Word) : |f64Value v| = magnitudeValue (v.toNat % 2 ^ 63) := by
  have h := magnitudeValue_nonneg (Nat.mod_lt v.toNat (show 0 < 2 ^ 63 by norm_num))
  rw [f64Value_eq, abs_mul, abs_of_nonneg h]
  split_ifs <;> simp

theorem lastPlace_pos (b : Word) : (0 : ℚ) < 2 ^ f64LastPlace b := by positivity

/-- A fraction other than 0 makes a significand of at least 1. -/
theorem lastPlace_le_abs (hfrac : f64Fraction b ≠ 0) : 2 ^ f64LastPlace b ≤ |f64Value b| := by
  have hsig : 1 ≤ f64Significand b := by
    unfold f64Significand
    split <;> omega
  have habs : |f64Value b| = f64Significand b * 2 ^ f64LastPlace b := by
    rw [f64Value, abs_mul, abs_mul, abs_of_pos (lastPlace_pos b), Nat.abs_cast]
    split_ifs <;> simp
  rw [habs]
  exact le_mul_of_one_le_left (lastPlace_pos b).le (by exact_mod_cast hsig)

/-- Where the fraction is not 0, the magnitudes below and above that of `b` have its last place. -/
theorem lastPlace_le_abs_sub_of_ne (hfrac : f64Fraction b ≠ 0) {q : Nat} (hq : q < 2 ^ 63) (h : q ≠ b.toNat % 2 ^ 63) :
    2 ^ f64LastPlace b ≤ |magnitudeValue q - magnitudeValue (b.toNat % 2 ^ 63)| := by
  rw [(f64_fields b).2] at hfrac
  rw [f64LastPlace, (f64_fields b).1]
  have hp := Nat.mod_lt b.toNat (show 0 < 2 ^ 63 by norm_num)
  generalize b.toNat % 2 ^ 63 = p at *
  rcases Nat.lt_or_gt_of_ne h with hlt | hgt
  · have hbelow := magnitudeValue_mono (q := p - 1) (by omega) (show q ≤ p - 1 by omega)
    have hstep := magnitudeValue_succ (p := p - 1) (by omega)
    rw [show p - 1 + 1 = p by omega, show (p - 1) / 2 ^ 52 = p / 2 ^ 52 by omega] at hstep
    rw [abs_sub_comm]
    exact le_trans (by linarith) (le_abs_self _)
  · have habove := magnitudeValue_mono hq (show p + 1 ≤ q by omega)
    have hstep := magnitudeValue_succ (p := p) (by omega)
    exact le_trans (by linarith) (le_abs_self _)

/-- Another value has another magnitude or the other sign. -/
theorem lastPlace_le_abs_sub (hfrac : f64Fraction b ≠ 0) (hne : f64Value v ≠ f64Value b) :
    2 ^ f64LastPlace b ≤ |f64Value v - f64Value b| := by
  by_cases h : v.toNat % 2 ^ 63 = b.toNat % 2 ^ 63
  · have habs : |f64Value v| = |f64Value b| := by rw [abs_f64Value, abs_f64Value, h]
    have hneg : f64Value v = -f64Value b := (abs_eq_abs.1 habs).resolve_left hne
    calc (2 : ℚ) ^ f64LastPlace b
      _ ≤ |f64Value b| := lastPlace_le_abs hfrac
      _ ≤ 2 * |f64Value b| := le_mul_of_one_le_left (abs_nonneg _) one_le_two
      _ = |f64Value v - f64Value b| := by rw [hneg, ← neg_add', abs_neg, ← two_mul, abs_mul, abs_two]
  · calc (2 : ℚ) ^ f64LastPlace b
      _ ≤ |magnitudeValue (v.toNat % 2 ^ 63) - magnitudeValue (b.toNat % 2 ^ 63)| :=
        lastPlace_le_abs_sub_of_ne hfrac (Nat.mod_lt _ (by norm_num)) h
      _ = |(|f64Value v| - |f64Value b|)| := by rw [abs_f64Value, abs_f64Value]
      _ ≤ |f64Value v - f64Value b| := abs_abs_sub_abs_le _ _

/-- No tie arises, and x = 0 is out of reach. -/
theorem isRN_of_abs_sub_lt {x : ℝ} (hfin : f64Finite b = true) (hfrac : f64Fraction b ≠ 0)
    (hnear : |(f64Value b : ℝ) - x| < ((2 ^ f64LastPlace b : ℚ) : ℝ) / 2) : IsRN b x := by
  have hfar : ∀ v, f64Value v ≠ f64Value b → |(f64Value b : ℝ) - x| < |(f64Value v : ℝ) - x| := by
    intro v hne
    have hgap : ((2 ^ f64LastPlace b : ℚ) : ℝ) ≤ |(f64Value v : ℝ) - f64Value b| := by
      exact_mod_cast lastPlace_le_abs_sub hfrac hne
    have htri := abs_sub_le (f64Value v : ℝ) x (f64Value b)
    rw [abs_sub_comm x] at htri
    linarith
  refine ⟨hfin, fun v _ => ?_, fun v _ hne htie => absurd htie (hfar v hne).ne, ?_⟩
  · by_cases hv : f64Value v = f64Value b
    · rw [hv]
    · exact (hfar v hv).le
  · rintro rfl
    have hlow : ((2 ^ f64LastPlace b : ℚ) : ℝ) ≤ |(f64Value b : ℝ)| := by exact_mod_cast lastPlace_le_abs hfrac
    have hpos : (0 : ℝ) < ((2 ^ f64LastPlace b : ℚ) : ℝ) := by exact_mod_cast lastPlace_pos b
    rw [sub_zero] at hnear
    linarith

/-! ### Comparison of squares -/

/-- The square root of m/42 lies between the midpoints on both sides of the magnitude of `b`. -/
abbrev BracketsRoot (b : Word) (m : Nat) : Prop :=
  f64Finite b = true ∧ f64Fraction b ≠ 0 ∧
    (|f64Value b| - 2 ^ f64LastPlace b / 2) ^ 2 < m / 42 ∧ m / 42 < (|f64Value b| + 2 ^ f64LastPlace b / 2) ^ 2

/-- Numbers of one sign are as far apart as their magnitudes. -/
theorem abs_sub_of_mul_nonneg {x y : ℝ} (h : 0 ≤ x * y) : |x - y| = |(|x| - |y|)| := by
  rcases mul_nonneg_iff.1 h with ⟨hx, hy⟩ | ⟨hx, hy⟩
  · rw [abs_of_nonneg hx, abs_of_nonneg hy]
  · rw [abs_of_nonpos hx, abs_of_nonpos hy, neg_sub_neg, abs_sub_comm]

/-- For an exact value x with the sign of `b` and the square m/42. -/
theorem isRN_of_bracketsRoot {m : Nat} {x : ℝ} (h : BracketsRoot b m) (hsign : 0 ≤ (f64Value b : ℝ) * x)
    (hsq : x ^ 2 = m / 42) : IsRN b x := by
  obtain ⟨hfin, hfrac, hbelow, habove⟩ := h
  refine isRN_of_abs_sub_lt hfin hfrac ?_
  have hulp : (0 : ℝ) < ((2 ^ f64LastPlace b : ℚ) : ℝ) := by exact_mod_cast lastPlace_pos b
  replace hbelow := (Rat.cast_lt (K := ℝ)).2 hbelow
  replace habove := (Rat.cast_lt (K := ℝ)).2 habove
  generalize (2 : ℚ) ^ f64LastPlace b = u at *
  push_cast at hbelow habove
  rw [← hsq, sq_lt_sq] at hbelow habove
  have hlow : |(f64Value b : ℝ)| - u / 2 < |x| := (le_abs_self _).trans_lt hbelow
  have hhigh : |x| < |(f64Value b : ℝ)| + u / 2 := by rwa [abs_of_pos (a := _ + _) (by positivity)] at habove
  rw [abs_sub_of_mul_nonneg hsign, abs_lt]
  constructor <;> linarith

/-! ### The constants of the ROM -/

theorem levelOf_mem (hP : P.levelsLegal = true) (x : BitVec 3) : levelOf P.levelOfBits x ∈ levels.toList := by
  have hmem : levelOf P.levelOfBits x ∈ P.levelOfBits.toList := by simp [levelOf]
  exact List.contains_iff_mem.1 (List.all_eq_true.1 hP _ hmem)

/-- The square root of l^2/42 is K * |l|. -/
theorem scaledLevel_brackets : ∀ l ∈ levels.toList,
    BracketsRoot (scaledLevel l) (l.natAbs ^ 2) ∧ 0 ≤ f64Value (scaledLevel l) * l := by
  decide +kernel

theorem scaledMagnitude_brackets : ∀ i ∈ levels.toList, ∀ q ∈ levels.toList,
    BracketsRoot (entryOfLevels i q).mag (i.natAbs ^ 2 + q.natAbs ^ 2) ∧ 0 ≤ f64Value (entryOfLevels i q).mag := by
  decide +kernel

theorem isRN_scaledLevel {l : ℤ} (hl : l ∈ levels.toList) : IsRN (scaledLevel l) (scaleK * l) := by
  obtain ⟨hbrackets, hsign⟩ := scaledLevel_brackets l hl
  refine isRN_of_bracketsRoot hbrackets ?_ ?_
  · have hsign' : (0 : ℝ) ≤ f64Value (scaledLevel l) * l := by exact_mod_cast hsign
    rw [mul_left_comm]
    exact mul_nonneg scaleK_nonneg hsign'
  · rw [mul_pow, scaleK_sq]
    push_cast
    rw [Nat.cast_natAbs, Int.cast_abs, sq_abs]
    ring

theorem isRN_scaledMagnitude {i q : ℤ} (hi : i ∈ levels.toList) (hq : q ∈ levels.toList) :
    IsRN (entryOfLevels i q).mag (scaleK * √(i ^ 2 + q ^ 2 : ℝ)) := by
  obtain ⟨hbrackets, hsign⟩ := scaledMagnitude_brackets i hi q hq
  refine isRN_of_bracketsRoot hbrackets ?_ ?_
  · have hsign' : (0 : ℝ) ≤ f64Value (entryOfLevels i q).mag := by exact_mod_cast hsign
    exact mul_nonneg hsign' (mul_nonneg scaleK_nonneg (Real.sqrt_nonneg _))
  · rw [mul_pow, scaleK_sq, Real.sq_sqrt (by positivity)]
    push_cast
    rw [Nat.cast_natAbs, Nat.cast_natAbs, Int.cast_abs, Int.cast_abs, sq_abs, sq_abs]
    ring

/-! ### Rows of the table -/

/-- Every level has a label of the default map (40_mapper.md R102). -/
theorem exists_label : ∀ l ∈ levels.toList, ∃ x : BitVec 3, levelOf defaultLevelOfBits x = l := by decide

theorem inPhase_append (x y : BitVec 3) : inPhase (x ++ y) = x := BitVec.extractLsb'_append_eq_left

theorem quadrature_append (x y : BitVec 3) : quadrature (x ++ y) = y := BitVec.extractLsb'_append_eq_right

/-- An entry depends on the level map by its two levels only, so it is a row of 40_mapper.md R106. -/
theorem exists_row (hP : P.levelsLegal = true) (c : BitVec 6) : ∃ d : BitVec 6,
    levelOf defaultLevelOfBits (inPhase d) = levelOf P.levelOfBits (inPhase c) ∧
    levelOf defaultLevelOfBits (quadrature d) = levelOf P.levelOfBits (quadrature c) ∧
    romWith P.levelOfBits c = rom d := by
  obtain ⟨x, hx⟩ := exists_label _ (levelOf_mem hP (inPhase c))
  obtain ⟨y, hy⟩ := exists_label _ (levelOf_mem hP (quadrature c))
  refine ⟨x ++ y, ?_, ?_, ?_⟩
  · rw [inPhase_append, hx]
  · rw [quadrature_append, hy]
  · rw [rom, romWith, romWith, inPhase_append, quadrature_append, hx, hy]

/-- Settles O60: the parts and magnitudes by their squares; the phases by comparison with the column, row by row. -/
theorem romHoldsRoundedPartsAndTabledPhases : Obligations.RomHoldsRoundedPartsAndTabledPhases := by
  refine ⟨fun P c hP => ?_, by decide +kernel, fun P c hP => exists_row hP c⟩
  have hi := levelOf_mem hP (inPhase c)
  have hq := levelOf_mem hP (quadrature c)
  exact ⟨isRN_scaledLevel hi, isRN_scaledLevel hq, isRN_scaledMagnitude hi hq⟩

end Sys2Proof.Machine
end

section
/-! SUPPORT. O6, O5, O8, O9: the bins of the assembled vector (41_assembler.md R130 to R138). Legal index sets name no
bin twice and not bin 0 (`binsLegal_iff`), so of the three stages of the multiplexer (zeros, then symbols, then pilots)
none overwrites an entry of an earlier one. -/

namespace Sys2Proof.Machine

variable {P : Config.Params} {s : State} {b : Fin 64}

/-! ### Legal index sets -/

/-- The bins in use: the data bins, then the pilot bins, each in its declared order. -/
def usedBins (P : Config.Params) : List (Fin 64) := P.dataIndex.toList ++ P.pilotIndex.toList

theorem length_usedBins (P : Config.Params) : (usedBins P).length = 52 := by simp [usedBins]

theorem exists_getElem_iff_mem_toList {α : Type} {n : Nat} (v : Vector α n) (x : α) :
    (∃ i : Fin n, v[i] = x) ↔ x ∈ v.toList := by
  simp [Vector.mem_iff_getElem, Fin.exists_iff]

theorem isDataBin_iff_mem : IsDataBin P b ↔ b ∈ P.dataIndex.toList := exists_getElem_iff_mem_toList _ b

theorem isPilotBin_iff_mem : IsPilotBin P b ↔ b ∈ P.pilotIndex.toList := exists_getElem_iff_mem_toList _ b

theorem mem_usedBins : b ∈ usedBins P ↔ IsDataBin P b ∨ IsPilotBin P b := by
  rw [usedBins, List.mem_append, isDataBin_iff_mem, isPilotBin_iff_mem]

theorem mem_nullBins : b ∈ nullBins P ↔ b ∉ usedBins P := by
  simp [nullBins, usedBins]

theorem binsLegal_iff : P.binsLegal = true ↔ (usedBins P).Nodup ∧ (0 : Fin 64) ∉ usedBins P := by
  simp [Config.Params.binsLegal, usedBins]

theorem map_getElem_finRange {α : Type} {n : Nat} (v : Vector α n) :
    ((List.finRange n).map fun i => v[i]) = v.toList :=
  List.ext_getElem (by simp) (by simp)

/-- The three sets partition the bins (41_assembler.md R133). -/
theorem usedBins_append_nullBins_perm (h : P.binsLegal = true) :
    (usedBins P ++ nullBins P).Perm (List.finRange 64) := by
  obtain ⟨hnodup, -⟩ := binsLegal_iff.1 h
  have hnull : (nullBins P).Nodup := (List.nodup_finRange 64).filter _
  have hdisjoint : (usedBins P).Disjoint (nullBins P) := fun _ hused hb => mem_nullBins.1 hb hused
  refine (List.perm_ext_iff_of_nodup (hnodup.append hnull hdisjoint) (List.nodup_finRange 64)).2 fun b => ?_
  simp [mem_nullBins, em]

/-! ### The multiplexer -/

section
variable (sym : Vector Word 48) (pilot : Word)

theorem assembledBins_dataIndex (h : P.binsLegal = true) (d : Fin 48) :
    (assembledBins P sym pilot)[P.dataIndex[d]] = sym[d] := by
  obtain ⟨hdata, -, hdisjoint⟩ := List.nodup_append'.1 (binsLegal_iff.1 h).1
  have hno_pilot : ∀ p ∈ List.finRange 4, P.pilotIndex[p] ≠ P.dataIndex[d] := fun p _ heq =>
    hdisjoint (isDataBin_iff_mem.1 ⟨d, rfl⟩) (isPilotBin_iff_mem.1 ⟨p, heq⟩)
  rw [assembledBins, placePilots_not_mem _ _ _ _ _ hno_pilot]
  exact placeData_mem _ _ _ _ (by rwa [map_getElem_finRange]) d (List.mem_finRange d)

theorem assembledBins_pilotIndex (h : P.binsLegal = true) (p : Fin 4) :
    (assembledBins P sym pilot)[P.pilotIndex[p]] = pilot := by
  obtain ⟨-, hpilot, -⟩ := List.nodup_append'.1 (binsLegal_iff.1 h).1
  exact placePilots_mem _ _ _ _ (by rwa [map_getElem_finRange]) p (List.mem_finRange p)

/-- No legality is needed: such a bin is never written (41_assembler.md R136). -/
theorem assembledBins_of_not_mem (hb : b ∉ usedBins P) : (assembledBins P sym pilot)[b] = 0 := by
  obtain ⟨hdata, hpilot⟩ := not_or.1 (mem_usedBins.not.1 hb)
  rw [assembledBins, placePilots_not_mem _ _ _ _ b fun p _ heq => hpilot ⟨p, heq⟩,
    placeData_not_mem _ _ _ _ b fun d _ heq => hdata ⟨d, heq⟩]
  simp

end

/-- Settles O6: each kind of bin by its own rule; bin 0 is of no kind. -/
theorem assembledBinsUnderLegalIndexSets : Obligations.AssembledBinsUnderLegalIndexSets := fun _ sym pilot h =>
  ⟨assembledBins_dataIndex sym pilot h, assembledBins_pilotIndex sym pilot h,
    fun _ hdata hpilot => assembledBins_of_not_mem sym pilot (mem_usedBins.not.2 (not_or.2 ⟨hdata, hpilot⟩)),
    assembledBins_of_not_mem sym pilot (binsLegal_iff.1 h).2⟩

/-! ### The completion of ASSEMBLE -/

theorem exec_assemble_of_symcnt (h : s.symcnt = 48) :
    exec .assemble s = .next ((assembleWrites s).finish 0x02 0 0 0) := by
  rw [exec, execAssemble, (cardinalityError_none_iff s).2 h]
  rfl

/-- Settles O5: the two parts are two runs of the multiplexer; the rest is the completion in success. -/
theorem assembleSucceedsOnFortyEightSymbols : Obligations.AssembleSucceedsOnFortyEightSymbols := by
  intro s hlegal hcnt
  obtain ⟨hdataRe, hpilotRe, hnullRe, -⟩ := assembledBinsUnderLegalIndexSets s.params s.symRe s.pilotRe hlegal
  obtain ⟨hdataIm, hpilotIm, hnullIm, -⟩ := assembledBinsUnderLegalIndexSets s.params s.symIm s.pilotIm hlegal
  exact ⟨_, exec_assemble_of_symcnt hcnt, fun d => ⟨hdataRe d, hdataIm d⟩, fun p => ⟨hpilotRe p, hpilotIm p⟩,
    fun b hdata hpilot => ⟨hnullRe b hdata hpilot, hnullIm b hdata hpilot⟩, rfl⟩

/-! ### Which bins are nonzero -/

theorem binNonzero_iff {t : State} :
    binNonzero t b = true ↔ f64Zero t.freqRe[b] = false ∨ f64Zero t.freqIm[b] = false := by
  rw [binNonzero, Bool.not_eq_true', Bool.and_eq_false_iff]

/-- Every level is odd, so no scaled level is a zero (40_mapper.md R100, R107). -/
theorem f64Zero_scaledLevel : ∀ l ∈ levels.toList, f64Zero (scaledLevel l) = false := by decide

theorem f64Zero_romWith_re (hP : P.levelsLegal = true) (c : BitVec 6) :
    f64Zero (romWith P.levelOfBits c).re = false :=
  f64Zero_scaledLevel _ (levelOf_mem hP (inPhase c))

theorem length_filter_finRange {n : Nat} {q : Fin n → Bool} {l : List (Fin n)} (hl : l.Nodup)
    (h : ∀ i, q i = true ↔ i ∈ l) : ((List.finRange n).filter q).length = l.length :=
  ((List.perm_ext_iff_of_nodup ((List.nodup_finRange n).filter q) hl).2 fun i => by simp [h i]).length_eq

/-- Settles O8: a data bin has the nonzero real part of its ROM entry, a pilot bin the pilot; the other bins are zero.
The used bins have no repeats, so there are 52. -/
theorem assembledVectorHasFiftyTwoNonzeroBins : Obligations.AssembledVectorHasFiftyTwoNonzeroBins := by
  intro s hwf hcnt hsym hpilot
  obtain ⟨hlevels, hlegal⟩ := Bool.and_eq_true_iff.1 hwf
  obtain ⟨t, hexec, hdataBin, hpilotBin, hnullBin, -⟩ := assembleSucceedsOnFortyEightSymbols s hlegal hcnt
  have hnonzero : ∀ b, binNonzero t b = true ↔ IsDataBin s.params b ∨ IsPilotBin s.params b := by
    intro b
    rw [binNonzero_iff]
    constructor
    · contrapose!
      rintro ⟨hdata, hpilot⟩
      obtain ⟨hre, him⟩ := hnullBin b hdata hpilot
      rw [hre, him]
      decide
    · rintro (⟨d, rfl⟩ | ⟨p, rfl⟩)
      · obtain ⟨c, hre, -⟩ := hsym d
        rw [(hdataBin d).1, hre]
        exact .inl (f64Zero_romWith_re hlevels c)
      · rw [(hpilotBin p).1, (hpilotBin p).2]
        exact hpilot
  refine ⟨t, hexec, hnonzero, ?_⟩
  rw [length_filter_finRange (binsLegal_iff.1 hlegal).1 fun b => (hnonzero b).trans mem_usedBins.symm, length_usedBins]

/-! ### The default index sets -/

theorem defaultParams_wellFormed : defaultParams.wellFormed = true := by decide +kernel

theorem defaultParams_binsLegal : defaultParams.binsLegal = true :=
  (Bool.and_eq_true_iff.1 defaultParams_wellFormed).2

/-- Settles O9: the lists and the null set are read off; the four bins and the partition are those of any legal index
sets. -/
theorem defaultIndexSetsPartitionTheBins : Obligations.DefaultIndexSetsPartitionTheBins := by
  refine ⟨rfl, rfl, fun sym pilot => ?_, defaultParams_wellFormed,
    usedBins_append_nullBins_perm defaultParams_binsLegal, by decide +kernel⟩
  have hbin := assembledBins_dataIndex sym pilot defaultParams_binsLegal
  exact ⟨hbin 0, hbin 23, hbin 24, hbin 47⟩

end Sys2Proof.Machine
end

section
/-! SUPPORT. O12, O10, O11: SYNTH on a legal fraction and 64 bins (42_synthesizer.md R153 to R159). Its checks pass, so
its completion holds its writes; each output array is the cyclic copy, then the block, then the old entries. -/

namespace Sys2Proof.Machine

variable {s : State} {n : Fin 127} {k : Fin 64}

/-! ### cp_len -/

theorem toInt_eq_toNat_of_nonneg {w : Word} (h : 0 ≤ w.toInt) : w.toInt = w.toNat := by
  rw [BitVec.toInt_eq_toNat_cond] at *
  split at * <;> omega

/-- The residue of R153's shift changes nothing for a legal fraction. -/
theorem cpLen_val {w : Word} (hlow : 1 ≤ w.toInt) (hhigh : w.toInt ≤ 65535) : (cpLen w).val = w.toNat / 1024 := by
  have hint := toInt_eq_toNat_of_nonneg (w := w) (by omega)
  rw [cpLen, Fin.val_ofNat, hint, Int.toNat_natCast, Nat.shiftRight_eq_div_pow]
  omega

/-- Settles O12: the shift and the floored quotient are both division by 1024. -/
theorem prefixLengthIsFlooredFraction : Obligations.PrefixLengthIsFlooredFraction := by
  intro w hlow hhigh
  have hint := toInt_eq_toNat_of_nonneg (w := w) (by omega)
  rw [cpLen_val hlow hhigh, Nat.shiftRight_eq_div_pow]
  exact ⟨by omega, rfl⟩

theorem cpLen_eq_of_floor {cp : Nat} (hfrac : FractionInside s) (hcp : (cp : Int) = 64 * s.cpfrac.toInt / 65536) :
    (cpLen s.cpfrac).val = cp := by
  obtain ⟨hfloor, -⟩ := prefixLengthIsFlooredFraction s.cpfrac hfrac.1 hfrac.2
  omega

/-! ### The writes of SYNTH -/

section
variable (impl : Config.SynthImpl)

theorem synthWritesWith_prefix (hn : n.val < (cpLen s.cpfrac).val) (hk : k.val + (cpLen s.cpfrac).val = 64 + n.val) :
    (synthWritesWith impl s).outRe[n] = ((impl (subcarrierVector s) s.policy)[k]).1 ∧
      (synthWritesWith impl s).outIm[n] = ((impl (subcarrierVector s) s.policy)[k]).2 := by
  simp [outputArray_getElem, outputCell_prefix _ _ _ n k hn hk]

theorem synthWritesWith_block (hn : n.val = (cpLen s.cpfrac).val + k.val) :
    (synthWritesWith impl s).outRe[n] = ((impl (subcarrierVector s) s.policy)[k]).1 ∧
      (synthWritesWith impl s).outIm[n] = ((impl (subcarrierVector s) s.policy)[k]).2 := by
  simp [outputArray_getElem, outputCell_block _ _ _ n k hn]

theorem synthWritesWith_tail (hn : 64 + (cpLen s.cpfrac).val ≤ n.val) :
    (synthWritesWith impl s).outRe[n] = s.outRe[n] ∧ (synthWritesWith impl s).outIm[n] = s.outIm[n] := by
  have hn' : (cpLen s.cpfrac).val + 64 ≤ n.val := by omega
  simp [outputArray_getElem, outputCell_tail _ _ _ n hn']

/-! ### The completion of SYNTH -/

theorem execSynthWith_of_legal (hfrac : FractionInside s) (hlen : s.freqlen = 64) :
    execSynthWith impl s = .next ((synthWritesWith impl s).finish 0x03 0 0 0) := by
  have herr : synthError s = none :=
    (firstError_none_iff _ _).2 ⟨(fractionError_none_iff s).2 hfrac, (vectorError_none_iff s).2 hlen⟩
  rw [execSynthWith, herr]
  rfl

end

theorem exec_synth_of_legal (hfrac : FractionInside s) (hlen : s.freqlen = 64) :
    exec .synth s = .next ((synthWrites s).finish 0x03 0 0 0) :=
  execSynthWith_of_legal synthImpl hfrac hlen

/-- Settles O10: the three ranges of the writes; the rest is the completion in success. -/
theorem synthSucceedsWithPrefixThenBlock : Obligations.SynthSucceedsWithPrefixThenBlock := by
  intro s cp hfrac hlen hcp
  obtain rfl := cpLen_eq_of_floor hfrac hcp
  have houtlen := synthWritesWith_outlen_toNat synthImpl s
  have hlt := (cpLen s.cpfrac).isLt
  refine ⟨_, exec_synth_of_legal hfrac hlen, fun n k => synthWritesWith_prefix synthImpl,
    fun n k => synthWritesWith_block synthImpl, fun n => synthWritesWith_tail synthImpl, ?_, ?_, rfl⟩
  · exact houtlen ▸ Nat.le_add_right _ _
  · exact houtlen.trans_le (by omega)

/-- Settles O11: both entries are the block sample 64 - cp + n. -/
theorem prefixEqualsTailOfSymbol : Obligations.PrefixEqualsTailOfSymbol := by
  intro s cp hfrac hlen hcp
  obtain rfl := cpLen_eq_of_floor hfrac hcp
  refine ⟨_, exec_synth_of_legal hfrac hlen, fun n m hn hm => ?_⟩
  obtain ⟨k, hk⟩ : ∃ k : Fin 64, k.val + (cpLen s.cpfrac).val = 64 + n.val :=
    ⟨⟨64 + n.val - (cpLen s.cpfrac).val, by omega⟩, by simp only; omega⟩
  obtain ⟨hnre, hnim⟩ := synthWritesWith_prefix synthImpl hn hk
  have hm' : m.val = (cpLen s.cpfrac).val + k.val := by omega
  obtain ⟨hmre, hmim⟩ := synthWritesWith_block synthImpl hm'
  exact ⟨hnre.trans hmre.symm, hnim.trans hmim.symm, k, hk, hnre, hnim⟩

end Sys2Proof.Machine
end

section
/-! SUPPORT. O16, O19: the reference transform in exact arithmetic (42_synthesizer.md R150 to R152, R161). Its kernel
has absolute value 1, which bounds it; the columns of its kernel are orthogonal, which gives its mean power. -/

namespace Sys2Proof.Machine

/-! ### The scale of NORM.POLICY -/

theorem refScale_nonneg (policy : BitVec 1) : 0 ≤ refScale policy := by
  unfold refScale
  split <;> positivity

theorem refScale_sq (policy : BitVec 1) : refScale policy ^ 2 = if policy = 0 then 1 else 4 / 3 := by
  unfold refScale
  split_ifs
  · norm_num
  · rw [Real.sq_sqrt (by norm_num)]; norm_num

/-! ### The bound -/

/-- Each term has the absolute value of its bin. -/
theorem norm_refSample_le {s : ℝ} (hs : 0 ≤ s) (X : Fin 64 → ℂ) (n : Fin 64) : ‖refSample s X n‖ ≤ refBound s X := by
  have hscale : ‖(s : ℂ) * (1 / 64)‖ = s * (1 / 64) := by simp [abs_of_nonneg hs]
  rw [refSample, refBound, norm_mul, hscale]
  refine mul_le_mul_of_nonneg_left ?_ (by positivity)
  refine (norm_sum_le _ _).trans (Finset.sum_le_sum fun k _ => ?_)
  rw [norm_mul, Complex.norm_exp_I_mul_ofReal, mul_one]
  exact Complex.norm_le_abs_re_add_abs_im _

/-- Settles O16: both scales are 0 or more. -/
theorem referenceSampleWithinBound : Obligations.ReferenceSampleWithinBound :=
  fun policy X n => norm_refSample_le (refScale_nonneg policy) X n

/-! ### The power -/

/-- The kernel of the inverse transform at bin k and sample n. -/
noncomputable def dftKernel (k n : Fin 64) : ℂ := Complex.exp (Complex.I * (2 * Real.pi * k.val * n.val / 64 : ℝ))

theorem refSample_eq_sum_dftKernel (s : ℝ) (X : Fin 64 → ℂ) (n : Fin 64) :
    refSample s X n = s * (1 / 64) * ∑ k, X k * dftKernel k n := rfl

/-- The kernel is a power of a primitive 64th root of unity. -/
theorem dftKernel_eq_pow (k n : Fin 64) :
    dftKernel k n = (Complex.exp (2 * Real.pi * Complex.I / (64 : ℕ)) ^ k.val) ^ n.val := by
  rw [dftKernel, ← pow_mul, ← Complex.exp_nat_mul]
  push_cast
  ring_nf

/-- A root of unity other than 1 has a geometric sum of 0. -/
theorem sum_pow_fin_eq_zero {w : ℂ} (hroot : w ^ 64 = 1) (hne : w ≠ 1) : ∑ n : Fin 64, w ^ n.val = 0 := by
  rw [Fin.sum_univ_eq_sum_range, geom_sum_eq hne, hroot, sub_self, zero_div]

/-- A column times the conjugate of another is the geometric sum of a root of unity. -/
theorem sum_dftKernel_mul_conj (k l : Fin 64) :
    ∑ n, dftKernel k n * starRingEnd ℂ (dftKernel l n) = if k = l then 64 else 0 := by
  have hprim : IsPrimitiveRoot (Complex.exp (2 * Real.pi * Complex.I / (64 : ℕ))) 64 :=
    Complex.isPrimitiveRoot_exp 64 (by norm_num)
  have hconj := Complex.inv_eq_conj (hprim.norm'_eq_one (by norm_num))
  have hpow := dftKernel_eq_pow
  generalize Complex.exp (2 * Real.pi * Complex.I / (64 : ℕ)) = ζ at hprim hconj hpow
  have hterm (n : Fin 64) : dftKernel k n * starRingEnd ℂ (dftKernel l n) = (ζ ^ k.val / ζ ^ l.val) ^ n.val := by
    rw [hpow, hpow, map_pow, map_pow, ← hconj, inv_pow, inv_pow, div_pow, div_eq_mul_inv]
  rw [Finset.sum_congr rfl fun n _ => hterm n]
  split_ifs with h
  · simp [h, hprim.ne_zero]
  · refine sum_pow_fin_eq_zero ?_ ?_
    · rw [div_pow, pow_right_comm, pow_right_comm ζ l.val, hprim.pow_eq_one, one_pow, one_pow, div_one]
    · rw [ne_eq, div_eq_one_iff_eq (pow_ne_zero _ (hprim.ne_zero (by norm_num)))]
      exact fun heq => h (Fin.ext (hprim.pow_inj k.isLt l.isLt heq))

/-- Parseval's identity: only the terms of a column with itself remain. -/
theorem sum_norm_dft_sq (X : Fin 64 → ℂ) : ∑ n, ‖∑ k, X k * dftKernel k n‖ ^ 2 = 64 * ∑ k, ‖X k‖ ^ 2 := by
  rw [← Complex.ofReal_inj]
  push_cast
  calc ∑ n, (‖∑ k, X k * dftKernel k n‖ : ℂ) ^ 2
    _ = ∑ n, ∑ k, ∑ l, X k * starRingEnd ℂ (X l) * (dftKernel k n * starRingEnd ℂ (dftKernel l n)) := by
      refine Finset.sum_congr rfl fun n _ => ?_
      rw [← Complex.mul_conj', map_sum, Finset.sum_mul_sum]
      simp only [map_mul, mul_mul_mul_comm]
    _ = ∑ k, ∑ l, X k * starRingEnd ℂ (X l) * ∑ n, dftKernel k n * starRingEnd ℂ (dftKernel l n) := by
      rw [Finset.sum_comm]
      refine Finset.sum_congr rfl fun k _ => ?_
      rw [Finset.sum_comm]
      simp only [Finset.mul_sum]
    _ = 64 * ∑ k, (‖X k‖ : ℂ) ^ 2 := by
      simp [sum_dftKernel_mul_conj, Complex.mul_conj', Finset.mul_sum, mul_comm]

theorem sum_norm_refSample_sq (s : ℝ) (X : Fin 64 → ℂ) :
    ∑ n, ‖refSample s X n‖ ^ 2 = s ^ 2 / 64 * ∑ k, ‖X k‖ ^ 2 := by
  have hterm (n : Fin 64) : ‖refSample s X n‖ ^ 2 = s ^ 2 / 64 ^ 2 * ‖∑ k, X k * dftKernel k n‖ ^ 2 := by
    rw [refSample_eq_sum_dftKernel, norm_mul, mul_pow]
    simp [mul_pow, div_eq_mul_inv]
  rw [Finset.sum_congr rfl fun n _ => hterm n, ← Finset.mul_sum, sum_norm_dft_sq]
  ring

/-- Settles O19: by Parseval's identity, with a power of 48. -/
theorem meanSamplePowerOfUnitDataBins : Obligations.MeanSamplePowerOfUnitDataBins := by
  intro X D policy hcard hunit hzero
  have hpower : ∑ k, ‖X k‖ ^ 2 = 48 := by
    rw [← Finset.sum_subset D.subset_univ fun k _ hk => by simp [hzero k hk],
      Finset.sum_congr rfl fun k hk => by rw [hunit k hk]]
    simp [hcard]
  rw [sum_norm_refSample_sq, hpower, refScale_sq]
  split_ifs <;> norm_num

end Sys2Proof.Machine
end

section
/-! SUPPORT. O15: the accuracy law of SYNTH_IMPL as the output buffer shows it (42_synthesizer.md R152). The block that
SYNTH leaves is what its numerics give, so it inherits their law; RUN ends with the writes of SYNTH on the vector that
ASSEMBLE leaves. A function held to the law obeys it part by part. -/

namespace Sys2Proof.Machine

variable {s : State} {impl : Config.SynthImpl} {eps : ℝ}

/-! ### The law in the output buffer -/

theorem blockWithinBound_synthWritesWith
    (h : AccurateBlock (impl (subcarrierVector s) s.policy) eps (subcarrierVector s) s.policy) :
    BlockWithinBound eps s (synthWritesWith impl s) := by
  intro n k hn
  obtain ⟨hre, him⟩ := synthWritesWith_block impl hn
  rw [hre, him]
  exact h k

/-- A completion leaves the output buffer and what SYNTH reads. -/
theorem outputLawful_synthWritesWith (himpl : SynthAdmissible impl eps) (hX : Moderate (subcarrierVector s))
    (op : Byte) : OutputLawful eps ((synthWritesWith impl s).finish op 0 0 0) := by
  intro n k hn
  rw [finish_cpfrac, synthWritesWith_cpfrac] at hn
  obtain ⟨hre, him⟩ := synthWritesWith_block impl hn
  have hvector : subcarrierVector ((synthWritesWith impl s).finish op 0 0 0) = subcarrierVector s := rfl
  rw [finish_outRe, finish_outIm, finish_policy, synthWritesWith_policy, hvector, hre, him]
  exact himpl.2 (subcarrierVector s) s.policy hX k

/-! ### The completion of RUN -/

theorem runError_none_iff (s : State) : runError s = none ↔ BitsLoaded s ∧ FractionInside s := by
  rw [runError, firstError_none_iff, firstError_none_iff, lengthError_none_iff, symbolError_none_iff,
    fractionError_none_iff, BitsLoaded, FractionInside, and_assoc]

theorem execRunWith_of_legal (impl : Config.SynthImpl) (hbits : BitsLoaded s) (hfrac : FractionInside s) :
    execRunWith impl s = .next ((synthWritesWith impl (assembleWrites (mapWrites s))).finish 0x04 0 0 0) := by
  rw [execRunWith, (runError_none_iff s).2 ⟨hbits, hfrac⟩]
  rfl

/-! ### Holding a function to the law -/

theorem heldToLaw_getElem (eps : ℚ) (free : Config.SynthImpl) {X : Config.Samples} (hX : Moderate X)
    (policy : BitVec 1) (n : Fin 64) :
    (heldToLaw eps free X policy)[n] =
      (lawfulPart eps (referenceRe X policy n) (referenceBound X policy) ((free X policy)[n]).1,
        lawfulPart eps (referenceIm X policy n) (referenceBound X policy) ((free X policy)[n]).2) := by
  rw [heldToLaw, if_pos (moderate_iff.2 hX)]
  simp

theorem heldToLaw_of_not_moderate (eps : ℚ) (free : Config.SynthImpl) {X : Config.Samples} (hX : ¬Moderate X)
    (policy : BitVec 1) : heldToLaw eps free X policy = free X policy := by
  rw [heldToLaw, if_neg (mt moderate_iff.1 hX)]

theorem lawfulBlock_heldToLaw (eps : ℚ) (free : Config.SynthImpl) {X : Config.Samples} (hX : Moderate X)
    (policy : BitVec 1) : LawfulBlock (heldToLaw eps free X policy) eps X policy := by
  intro n
  rw [heldToLaw_getElem eps free hX, ← referenceRe_value, ← referenceIm_value, ← referenceBound_value]
  exact ⟨lawfulPart_lawful _ _ _ _, lawfulPart_lawful _ _ _ _⟩

theorem synthAdmissible_heldToLaw {eps : ℚ} (heps : SynthEpsLegal eps) (free : Config.SynthImpl) :
    SynthAdmissible (heldToLaw eps free) eps :=
  ⟨heps, fun _ policy hX => lawfulBlock_heldToLaw eps free hX policy⟩

/-- The free part is moved into the range of R152. -/
theorem synthEps_legal : SynthEpsLegal (synthEps : ℝ) := by
  have hlow : 1 / 2 ^ 53 ≤ synthEps := le_max_left _ _
  have hhigh : synthEps ≤ 1 / 10 ^ 9 := max_le (by norm_num) (min_le_left _ _)
  constructor
  · simpa using (Rat.cast_le (K := ℝ)).2 hlow
  · simpa using (Rat.cast_le (K := ℝ)).2 hhigh

/-- Each part that obeys the law stands, and on other vectors there is no law. -/
theorem heldToLaw_of_admissible {eps : ℚ} (himpl : SynthAdmissible impl eps) : heldToLaw eps impl = impl := by
  funext X policy
  by_cases hX : Moderate X
  · refine Vector.ext fun i hi => ?_
    obtain ⟨hre, him⟩ := himpl.2 X policy hX ⟨i, hi⟩
    rw [← referenceRe_value, ← referenceBound_value] at hre
    rw [← referenceIm_value, ← referenceBound_value] at him
    calc (heldToLaw eps impl X policy)[i]
      _ = _ := heldToLaw_getElem eps impl hX policy ⟨i, hi⟩
      _ = (impl X policy)[i] := by rw [lawfulPart_of_lawful hre, lawfulPart_of_lawful him]; rfl
  · exact heldToLaw_of_not_moderate eps impl hX policy

/-- Settles O15: the law of the numerics is that of the block in the buffer, for SYNTH and at the end of RUN. -/
theorem synthSamplesWithinAccuracyBound : Obligations.SynthSamplesWithinAccuracyBound := by
  refine ⟨fun impl eps s hX hacc => blockWithinBound_synthWritesWith (hacc hX), fun impl eps s himpl hfrac => ⟨?_, ?_⟩,
    synthAdmissible_heldToLaw synthEps_legal _, fun s => ⟨rfl, rfl⟩, fun impl eps => heldToLaw_of_admissible⟩
  · intro hlen hX
    exact ⟨_, execSynthWith_of_legal impl hfrac hlen, rfl, outputLawful_synthWritesWith himpl hX _⟩
  · intro hbits hX
    exact ⟨_, execRunWith_of_legal impl hbits hfrac, rfl, outputLawful_synthWritesWith himpl hX _⟩

end Sys2Proof.Machine
end

section
/-! SUPPORT. O17: RN (00_scope.md R10). The magnitudes of binary64 around x are multiples of the last place of x, and
none lies strictly between two neighbours of that grid, so the nearest multiple is the nearest binary64. Its error is at
most 2^-53 of a bound B on x where B is at least 2^-1022. -/

namespace Sys2Proof.Machine

/-! ### The nearest integer, ties to even -/

/-- The nearest integer is the one below or the one above; where both are as near it is even. -/
theorem roundHalfEven_cases (z : ℝ) :
    (roundHalfEven z = ⌊z⌋ ∧ Int.fract z ≤ 1 / 2 ∧ (Int.fract z = 1 / 2 → roundHalfEven z % 2 = 0)) ∨
      (roundHalfEven z = ⌊z⌋ + 1 ∧ 1 / 2 ≤ Int.fract z ∧ (Int.fract z = 1 / 2 → roundHalfEven z % 2 = 0)) := by
  unfold roundHalfEven
  split_ifs with hbelow habove heven
  · exact .inl ⟨rfl, hbelow.le, fun htie => absurd htie hbelow.ne⟩
  · exact .inr ⟨rfl, habove.le, fun htie => absurd htie habove.ne'⟩
  · exact .inl ⟨rfl, not_lt.1 habove, fun _ => heven⟩
  · exact .inr ⟨rfl, not_lt.1 hbelow, fun _ => by omega⟩

theorem abs_roundHalfEven_sub (z : ℝ) : |(roundHalfEven z : ℝ) - z| = min (Int.fract z) (1 - Int.fract z) := by
  have hz := Int.floor_add_fract z
  rcases roundHalfEven_cases z with ⟨hround, hhalf, -⟩ | ⟨hround, hhalf, -⟩
  · rw [hround, abs_of_nonpos (by linarith [Int.fract_nonneg z]), min_eq_left (by linarith)]
    linarith
  · rw [hround, min_eq_right (by linarith), Int.cast_add, Int.cast_one,
      abs_of_nonneg (by linarith [Int.fract_lt_one z])]
    linarith

theorem abs_roundHalfEven_sub_le_half (z : ℝ) : |(roundHalfEven z : ℝ) - z| ≤ 1 / 2 := by
  rw [abs_roundHalfEven_sub]
  rcases le_total (Int.fract z) (1 / 2) with h | h
  · exact (min_le_left _ _).trans h
  · exact (min_le_right _ _).trans (by linarith)

section
variable {z t : ℝ} (ht : t ≤ ⌊z⌋ ∨ ⌊z⌋ + 1 ≤ t)
include ht

/-- A number not strictly between the integers around z is no nearer to z than the one on its side. -/
theorem abs_roundHalfEven_sub_le : |(roundHalfEven z : ℝ) - z| ≤ |t - z| := by
  have hz := Int.floor_add_fract z
  rw [abs_roundHalfEven_sub]
  rcases ht with hlow | hhigh
  · exact (min_le_left _ _).trans ((show _ ≤ -(t - z) by linarith).trans (neg_le_abs _))
  · exact (min_le_right _ _).trans ((show _ ≤ t - z by linarith).trans (le_abs_self _))

/-- Without a tie of the integers only the nearest of them is as near. -/
theorem roundHalfEven_even_of_tie (hne : t ≠ roundHalfEven z) (htie : |(roundHalfEven z : ℝ) - z| = |t - z|) :
    roundHalfEven z % 2 = 0 := by
  have hz := Int.floor_add_fract z
  rcases ht with hlow | hhigh
  · rw [abs_of_nonpos (a := t - z) (by linarith [Int.fract_nonneg z])] at htie
    rcases roundHalfEven_cases z with ⟨hround, hhalf, -⟩ | ⟨hround, hhalf, heven⟩
    · rw [abs_roundHalfEven_sub, min_eq_left (by linarith)] at htie
      exact absurd (by rw [hround]; linarith) hne
    · rw [abs_roundHalfEven_sub, min_eq_right (by linarith)] at htie
      exact heven (by linarith)
  · rw [abs_of_nonneg (a := t - z) (by linarith [Int.fract_lt_one z])] at htie
    rcases roundHalfEven_cases z with ⟨hround, hhalf, heven⟩ | ⟨hround, hhalf, -⟩
    · rw [abs_roundHalfEven_sub, min_eq_left (by linarith)] at htie
      exact heven (by linarith)
    · rw [abs_roundHalfEven_sub, min_eq_right (by linarith)] at htie
      exact absurd (by rw [hround]; push_cast; linarith) hne

end

/-! ### The grid of the last place -/

/-- The magnitude of y counted in last places of x. -/
noncomputable def lastPlaces (x y : ℝ) : ℝ := |y| / 2 ^ lastPlaceOf x

theorem lastPlace_size_pos (x : ℝ) : (0 : ℝ) < 2 ^ lastPlaceOf x := by positivity

theorem lastPlaces_mul (x y : ℝ) : lastPlaces x y * 2 ^ lastPlaceOf x = |y| :=
  div_mul_cancel₀ _ (lastPlace_size_pos x).ne'

/-- The power of two at the exponent of x is at most |x|, and the next is above it. -/
theorem log_bounds {x : ℝ} (hx : x ≠ 0) : (2 : ℝ) ^ Int.log 2 |x| ≤ |x| ∧ |x| < (2 : ℝ) ^ (Int.log 2 |x| + 1) :=
  ⟨by exact_mod_cast Int.zpow_log_le_self one_lt_two (abs_pos.2 hx),
    by exact_mod_cast Int.lt_zpow_succ_log_self one_lt_two |x|⟩

theorem two_zpow_add (n : ℕ) (e : ℤ) : (2 : ℝ) ^ ((n : ℤ) + e) = ((2 ^ n : ℤ) : ℝ) * 2 ^ e := by
  rw [zpow_add₀ two_ne_zero]
  norm_cast

/-- The grid around a nonzero x in the finite range: the last place is 2^(j - 1074), and the f-th multiple of it is the
largest at most |x|. -/
theorem lastPlaceOf_grid {x : ℝ} (hx : x ≠ 0) (hle : |x| ≤ 2 ^ 1023) :
    ∃ j f : ℕ, lastPlaceOf x = (j : ℤ) - 1074 ∧ ⌊lastPlaces x x⌋ = f ∧ j ≤ 2045 ∧ f < 2 ^ 53 ∧
      (j = 0 ∨ 2 ^ 52 ≤ f) ∧ (j = 2045 → f ≤ 2 ^ 52) := by
  obtain ⟨hlow, hhigh⟩ := log_bounds hx
  have hlog : Int.log 2 |x| ≤ 1023 := (zpow_le_zpow_iff_right₀ (one_lt_two (α := ℝ))).1 (hlow.trans hle)
  have hplace : lastPlaceOf x = max (Int.log 2 |x| - 52) (-1074) := rfl
  have hpos := lastPlace_size_pos x
  obtain ⟨j, hj⟩ : ∃ j : ℕ, lastPlaceOf x = (j : ℤ) - 1074 := ⟨(lastPlaceOf x + 1074).toNat, by omega⟩
  obtain ⟨f, hf⟩ := Int.eq_ofNat_of_zero_le (Int.floor_nonneg.2 (div_nonneg (abs_nonneg x) hpos.le))
  rw [← lastPlaces] at hf
  have hbelow : ⌊lastPlaces x x⌋ < 2 ^ 53 := by
    rw [Int.floor_lt, lastPlaces, div_lt_iff₀ hpos, ← two_zpow_add 53]
    exact hhigh.trans_le (zpow_le_zpow_right₀ one_le_two (by omega))
  have hnormal : j ≠ 0 → 2 ^ 52 ≤ ⌊lastPlaces x x⌋ := by
    intro hj0
    rw [Int.le_floor, lastPlaces, le_div_iff₀ hpos, ← two_zpow_add 52]
    exact le_trans (zpow_le_zpow_right₀ one_le_two (by omega)) hlow
  have htop : j = 2045 → ⌊lastPlaces x x⌋ ≤ 2 ^ 52 := by
    intro hj'
    refine Int.cast_le.1 ((Int.floor_le _).trans ?_)
    rw [lastPlaces, div_le_iff₀ hpos, ← two_zpow_add 52,
      show ((52 : ℕ) : ℤ) + lastPlaceOf x = (1023 : ℕ) by omega, zpow_natCast]
    exact hle
  exact ⟨j, f, hj, hf, by omega, by omega, by omega, by omega⟩

/-- The pattern of a multiple of a last place; the multiple 2^53 carries into the exponent field. -/
theorem magnitudeValue_grid {j m : ℕ} (hj : j ≤ 2045) (hm : m ≤ 2 ^ 53) (hnormal : j = 0 ∨ 2 ^ 52 ≤ m) :
    magnitudeValue (j * 2 ^ 52 + m) = m * 2 ^ ((j : ℤ) - 1074) := by
  rw [magnitudeValue_eq (by omega)]
  rcases Nat.lt_or_ge m (2 ^ 52) with hsub | hnorm
  · obtain rfl : j = 0 := by omega
    rw [zero_mul, zero_add, Nat.div_eq_of_lt hsub, Nat.mod_eq_of_lt hsub]
    norm_num
  rcases hm.lt_or_eq with hlt | rfl
  · rw [show (j * 2 ^ 52 + m) / 2 ^ 52 = j + 1 by omega, show (j * 2 ^ 52 + m) % 2 ^ 52 = m - 2 ^ 52 by omega,
      if_neg (Nat.succ_ne_zero j), Nat.add_sub_cancel' hnorm, max_eq_left (by omega)]
    congr 2
    push_cast
    ring
  · rw [show (j * 2 ^ 52 + 2 ^ 53) / 2 ^ 52 = j + 2 by omega, show (j * 2 ^ 52 + 2 ^ 53) % 2 ^ 52 = 0 by omega,
      if_neg (by omega), max_eq_left (by omega),
      show ((j + 2 : ℕ) : ℤ) - 1075 = ((j : ℤ) - 1074) + 1 by push_cast; ring, zpow_add₀ two_ne_zero]
    push_cast
    ring

/-- No magnitude lies strictly between two neighbours of the grid. -/
theorem magnitudeValue_off_grid {j f q : ℕ} (hj : j ≤ 2045) (hf : f < 2 ^ 53)
    (hnormal : j = 0 ∨ 2 ^ 52 ≤ f) (hq : q < 2 ^ 63) :
    magnitudeValue q ≤ f * 2 ^ ((j : ℤ) - 1074) ∨ (f + 1) * 2 ^ ((j : ℤ) - 1074) ≤ magnitudeValue q := by
  rcases Nat.lt_or_ge (j * 2 ^ 52 + f) q with h | h
  · right
    have hgrid := magnitudeValue_grid (j := j) (m := f + 1) hj hf (by omega)
    rw [Nat.cast_add, Nat.cast_one] at hgrid
    rw [← hgrid]
    exact magnitudeValue_mono hq h
  · left
    rw [← magnitudeValue_grid hj hf.le hnormal]
    exact magnitudeValue_mono (by omega) h

/-! ### RN -/

theorem f64Value_posZero : f64Value 0#64 = 0 := magnitudeValue_zero

theorem roundToBinary64_zero : roundToBinary64 0 = 0 := if_pos rfl

/-- The distance of a binary64 from x, at least that of the magnitudes. -/
theorem abs_lastPlaces_sub_le (x : ℝ) (v : Word) :
    |lastPlaces x (f64Value v) - lastPlaces x x| * 2 ^ lastPlaceOf x ≤ |(f64Value v : ℝ) - x| := by
  rw [← abs_of_pos (lastPlace_size_pos x), ← abs_mul, sub_mul, lastPlaces_mul, lastPlaces_mul]
  exact abs_abs_sub_abs_le _ _

section
variable {x : ℝ} (hx : x ≠ 0) (hle : |x| ≤ 2 ^ 1023)
include hx hle

/-- Where a magnitude can be among the multiples of the last place of x. -/
theorem lastPlaces_f64Value_off_grid (v : Word) :
    lastPlaces x (f64Value v) ≤ ⌊lastPlaces x x⌋ ∨ ⌊lastPlaces x x⌋ + 1 ≤ lastPlaces x (f64Value v) := by
  obtain ⟨j, f, hplace, hf, hj, hbelow, hnormal, htop⟩ := lastPlaceOf_grid hx hle
  have hpos := lastPlace_size_pos x
  rw [hf, lastPlaces, div_le_iff₀ hpos, le_div_iff₀ hpos, hplace]
  have hoff := magnitudeValue_off_grid hj hbelow hnormal (Nat.mod_lt v.toNat (show 0 < 2 ^ 63 by norm_num))
  rw [← abs_f64Value] at hoff
  refine hoff.imp (fun hlow => ?_) (fun hhigh => ?_)
  · simpa using (Rat.cast_le (K := ℝ)).2 hlow
  · simpa using (Rat.cast_le (K := ℝ)).2 hhigh

/-- The fields of RN(x): its value is the nearest multiple of the last place, its lowest bit the parity of that
multiple. -/
theorem roundToBinary64_spec :
    f64Finite (roundToBinary64 x) = true ∧
      (f64Value (roundToBinary64 x) : ℝ) =
        (if x < 0 then -1 else 1) * (roundHalfEven (lastPlaces x x) * 2 ^ lastPlaceOf x) ∧
      (roundHalfEven (lastPlaces x x) % 2 = 0 → (roundToBinary64 x).getLsbD 0 = false) := by
  obtain ⟨j, f, hplace, hf, hj, hbelow, hnormal, htop⟩ := lastPlaceOf_grid hx hle
  obtain ⟨m, hm, hmf⟩ : ∃ m : ℕ, roundHalfEven (lastPlaces x x) = m ∧ (m = f ∨ m = f + 1) := by
    rcases roundHalfEven_cases (lastPlaces x x) with ⟨hround, -⟩ | ⟨hround, -⟩ <;> rw [hf] at hround
    · exact ⟨f, hround, .inl rfl⟩
    · exact ⟨f + 1, by exact_mod_cast hround, .inr rfl⟩
  have hround : roundToBinary64 x = withSign (decide (x < 0)) (BitVec.ofNat 64 (j * 2 ^ 52 + m)) := by
    rw [roundToBinary64, if_neg hx, ← lastPlaces, hm, hplace, sub_add_cancel, ← BitVec.ofInt_natCast]
    norm_cast
  obtain ⟨hmag, hsign⟩ := withSign_fields (decide (x < 0)) (p := j * 2 ^ 52 + m) (by omega)
  rw [← hround] at hmag hsign
  refine ⟨?_, ?_, ?_⟩
  · rw [f64Finite_iff, hmag]
    omega
  · rw [f64Value_eq, hmag, hsign, magnitudeValue_grid hj (by omega) (by omega), hm, hplace]
    split_ifs <;> simp_all
  · intro heven
    rw [BitVec.getLsbD, Nat.testBit_zero, decide_eq_false_iff_not]
    omega

/-- Value and x have the same sign, so they are as far apart as their magnitudes. -/
theorem abs_roundToBinary64_sub :
    |(f64Value (roundToBinary64 x) : ℝ) - x| =
      |roundHalfEven (lastPlaces x x) - lastPlaces x x| * 2 ^ lastPlaceOf x := by
  obtain ⟨-, hval, -⟩ := roundToBinary64_spec hx hle
  have hpos := lastPlace_size_pos x
  rw [hval, ← abs_of_pos hpos, ← abs_mul, abs_of_pos hpos, sub_mul, lastPlaces_mul]
  split_ifs with hneg
  · rw [abs_of_neg hneg, ← abs_neg]
    congr 1
    ring
  · rw [abs_of_nonneg (not_lt.1 hneg), one_mul]

theorem abs_roundToBinary64_sub_le (v : Word) : |(f64Value (roundToBinary64 x) : ℝ) - x| ≤ |(f64Value v : ℝ) - x| := by
  have hinteger := abs_roundHalfEven_sub_le (lastPlaces_f64Value_off_grid hx hle v)
  rw [abs_roundToBinary64_sub hx hle]
  exact (mul_le_mul_of_nonneg_right hinteger (lastPlace_size_pos x).le).trans (abs_lastPlaces_sub_le x v)

/-- Another magnitude makes a tie of the integers; the same magnitude with the other sign is as near only for 0. -/
theorem roundToBinary64_even_of_tie {v : Word} (hne : f64Value v ≠ f64Value (roundToBinary64 x))
    (htie : |(f64Value (roundToBinary64 x) : ℝ) - x| = |(f64Value v : ℝ) - x|) :
    (roundToBinary64 x).getLsbD 0 = false := by
  obtain ⟨-, hval, heven⟩ := roundToBinary64_spec hx hle
  have hoff := lastPlaces_f64Value_off_grid hx hle v
  refine heven (roundHalfEven_even_of_tie hoff (fun heq => ?_) ?_)
  · have habs : |(f64Value v : ℝ)| = |(f64Value (roundToBinary64 x) : ℝ)| := by
      rw [hval, ← heq, lastPlaces_mul]
      split_ifs <;> simp
    have hneg : (f64Value v : ℝ) = -f64Value (roundToBinary64 x) :=
      (abs_eq_abs.1 habs).resolve_left (by exact_mod_cast hne)
    rw [hneg, abs_eq_abs] at htie
    have hzero : (f64Value (roundToBinary64 x) : ℝ) = 0 := by
      rcases htie with h | h
      · linarith
      · exact absurd (by linarith) hx
    rw [hzero, neg_zero] at hneg
    exact hne (Rat.cast_injective (α := ℝ) (hneg.trans hzero.symm))
  · refine (abs_roundHalfEven_sub_le hoff).antisymm (le_of_mul_le_mul_right ?_ (lastPlace_size_pos x))
    rw [← abs_roundToBinary64_sub hx hle, htie]
    exact abs_lastPlaces_sub_le x v

end

theorem isRN_roundToBinary64 {x : ℝ} (hle : |x| ≤ 2 ^ 1023) : IsRN (roundToBinary64 x) x := by
  by_cases hx : x = 0
  · rw [hx, roundToBinary64_zero]
    exact ⟨by decide, fun v _ => by simp [f64Value_posZero], fun _ _ _ _ => rfl, fun _ => rfl⟩
  · exact ⟨(roundToBinary64_spec hx hle).1, fun v _ => abs_roundToBinary64_sub_le hx hle v,
      fun v _ hne htie => roundToBinary64_even_of_tie hx hle hne htie, fun h => absurd h hx⟩

/-! ### The error of RN -/

/-- The last place is that of the subnormals or 52 places below the first. -/
theorem lastPlaceOf_le {x B : ℝ} (hx : x ≠ 0) (hxB : |x| ≤ B) (hB : 1 / 2 ^ 1022 ≤ B) :
    (2 : ℝ) ^ lastPlaceOf x ≤ B / 2 ^ 52 := by
  rw [le_div_iff₀ (by positivity), ← zpow_natCast, ← zpow_add₀ two_ne_zero, lastPlaceOf]
  rcases max_choice (Int.log 2 |x| - 52) (-1074) with h | h <;> rw [h]
  · exact ((log_bounds hx).1.trans hxB).trans' (zpow_le_zpow_right₀ one_le_two (by omega))
  · refine le_trans (le_of_eq ?_) hB
    rw [one_div, ← zpow_natCast, ← zpow_neg]
    norm_num only

/-- Half a last place, which is at most that of B or of the subnormals. -/
theorem abs_roundToBinary64_sub_le_bound {x B : ℝ} (hxB : |x| ≤ B) (hB : 1 / 2 ^ 1022 ≤ B) (hle : |x| ≤ 2 ^ 1023) :
    |(f64Value (roundToBinary64 x) : ℝ) - x| ≤ 1 / 2 ^ 53 * B := by
  by_cases hx : x = 0
  · have hB0 : 0 ≤ B := (abs_nonneg x).trans hxB
    simp [hx, roundToBinary64_zero, f64Value_posZero, hB0]
  · have hplace := lastPlaceOf_le hx hxB hB
    have hhalf := mul_le_mul_of_nonneg_right (abs_roundHalfEven_sub_le_half (lastPlaces x x))
      (lastPlace_size_pos x).le
    rw [abs_roundToBinary64_sub hx hle]
    linarith

end Sys2Proof.Machine
end

section
/-! SUPPORT. O17, O18: SYNTH_REF and the accuracy condition (42_synthesizer.md R152). On a moderate vector the reference
is in the range of RN, so SYNTH_REF obeys the law, and where B is 0 or at least 2^-1022 the law asks all of the
condition (`accurateBlock_of_lawfulBlock`). The smallest spectrum shows what happens below. -/

namespace Sys2Proof.Machine

/-! ### The reference of a moderate vector -/

section
variable {X : Config.Samples} (hX : Moderate X) (policy : BitVec 1)

theorem refScale_le_two : refScale policy ≤ 2 := by
  refine (abs_le_of_sq_le_sq' ?_ zero_le_two).2
  rw [refScale_sq]
  split_ifs <;> norm_num

include hX in
theorem refBound_le : refBound (refScale policy) (complexOf X) ≤ 2 ^ 1023 := by
  have hterm (k : Fin 64) : |(complexOf X k).re| + |(complexOf X k).im| ≤ 2 ^ 1001 := by
    obtain ⟨-, hre, -, him⟩ := hX k
    have hre' : |(complexOf X k).re| ≤ 2 ^ 1000 := by simpa [complexOf] using (Rat.cast_le (K := ℝ)).2 hre
    have him' : |(complexOf X k).im| ≤ 2 ^ 1000 := by simpa [complexOf] using (Rat.cast_le (K := ℝ)).2 him
    rw [pow_succ, mul_two]
    exact add_le_add hre' him'
  have hsum := Finset.sum_le_card_nsmul Finset.univ _ _ fun k _ => hterm k
  rw [Finset.card_univ, Fintype.card_fin, nsmul_eq_mul, Nat.cast_ofNat] at hsum
  calc refBound (refScale policy) (complexOf X)
    _ ≤ 2 * (1 / 64) * (64 * 2 ^ 1001) := by
      refine mul_le_mul (mul_le_mul_of_nonneg_right (refScale_le_two policy) (by norm_num)) hsum ?_ (by norm_num)
      exact Finset.sum_nonneg fun k _ => add_nonneg (abs_nonneg _) (abs_nonneg _)
    _ = 2 ^ 1002 := by rw [pow_succ _ 1001]; generalize (2 : ℝ) ^ 1001 = p; ring
    _ ≤ 2 ^ 1023 := pow_le_pow_right₀ one_le_two (by norm_num)

theorem abs_refSample_le (n : Fin 64) :
    |(refSample (refScale policy) (complexOf X) n).re| ≤ refBound (refScale policy) (complexOf X) ∧
      |(refSample (refScale policy) (complexOf X) n).im| ≤ refBound (refScale policy) (complexOf X) :=
  have hnorm := referenceSampleWithinBound policy (complexOf X) n
  ⟨(Complex.abs_re_le_norm _).trans hnorm, (Complex.abs_im_le_norm _).trans hnorm⟩

end

/-! ### SYNTH_REF -/

section
variable {eps y B : ℝ}

/-- No binary64 is nearer, so RN(y) is within the bound if any is. -/
theorem partLawful_roundToBinary64 (hy : |y| ≤ 2 ^ 1023) : PartLawful (roundToBinary64 y) eps y B := by
  obtain ⟨hfin, hnear, -⟩ := isRN_roundToBinary64 hy
  exact ⟨hfin, fun ⟨v, hv, hb⟩ => (hnear v hv).trans hb⟩

theorem partReachable_of_bound (heps : SynthEpsLegal eps) (hyB : |y| ≤ B) (hB : B = 0 ∨ 1 / 2 ^ 1022 ≤ B)
    (hle : B ≤ 2 ^ 1023) : PartReachable eps y B := by
  refine ⟨roundToBinary64 y, (isRN_roundToBinary64 (hyB.trans hle)).1, ?_⟩
  rcases hB with rfl | hB
  · obtain rfl : y = 0 := abs_nonpos_iff.1 hyB
    simp [roundToBinary64_zero, f64Value_posZero]
  · exact (abs_roundToBinary64_sub_le_bound hyB hB (hyB.trans hle)).trans
      (mul_le_mul_of_nonneg_right heps.1 ((abs_nonneg y).trans hyB))

end

section
variable {X : Config.Samples} {policy : BitVec 1} {eps : ℝ}

theorem lawfulBlock_synthRef (hX : Moderate X) (eps : ℝ) (policy : BitVec 1) :
    LawfulBlock (synthRef X policy) eps X policy := by
  intro n
  have hle := refBound_le hX policy
  obtain ⟨hre, him⟩ := abs_refSample_le (X := X) policy n
  have hn : (synthRef X policy)[n] = (roundToBinary64 (refSample (refScale policy) (complexOf X) n).re,
      roundToBinary64 (refSample (refScale policy) (complexOf X) n).im) := by simp [synthRef]
  rw [hn]
  exact ⟨partLawful_roundToBinary64 (hre.trans hle), partLawful_roundToBinary64 (him.trans hle)⟩

/-- Where B is 0 or no subnormal, a binary64 is within the bound of every part, so the law asks all of R152. -/
theorem accurateBlock_of_lawfulBlock {Y : Config.Samples} (heps : SynthEpsLegal eps) (hX : Moderate X)
    (hB : refBound (refScale policy) (complexOf X) = 0 ∨
      (1 / 2 ^ 1022 : ℝ) ≤ refBound (refScale policy) (complexOf X))
    (hY : LawfulBlock Y eps X policy) : AccurateBlock Y eps X policy := by
  intro n
  have hle := refBound_le hX policy
  obtain ⟨hre, him⟩ := abs_refSample_le (X := X) policy n
  obtain ⟨⟨hfinRe, hlawRe⟩, hfinIm, hlawIm⟩ := hY n
  exact ⟨hfinRe, hfinIm, hlawRe (partReachable_of_bound heps hre hB hle),
    hlawIm (partReachable_of_bound heps him hB hle)⟩

end

/-- Settles O17: RN is a nearest binary64, so SYNTH_REF obeys the law; where its error is within the bound the law is
all of R152's condition. -/
theorem roundedReferenceIsAdmissible : Obligations.RoundedReferenceIsAdmissible := by
  refine ⟨fun x => isRN_roundToBinary64, fun eps heps => ⟨heps, fun X policy hX => lawfulBlock_synthRef hX eps policy⟩,
    fun eps X policy heps hX hB => ⟨?_, fun impl himpl => ?_⟩⟩
  · exact accurateBlock_of_lawfulBlock heps hX hB (lawfulBlock_synthRef hX eps policy)
  · exact accurateBlock_of_lawfulBlock heps hX hB (himpl.2 X policy hX)

/-! ### The smallest spectrum -/

/-- The smallest positive binary64, 2^-1074. -/
theorem magnitudeValue_one : magnitudeValue 1 = 2 ^ (-1074 : ℤ) := by
  simpa using magnitudeValue_grid (j := 0) (m := 1) (by norm_num) (by norm_num) (.inl rfl)

theorem smallestSpectrum_getElem (k : Fin 64) : smallestSpectrum[k] = (if k = 0 then 1 else 0, 0) := by
  simp [smallestSpectrum]

theorem smallestSpectrum_moderate : Moderate smallestSpectrum := by
  intro k
  have hone : |f64Value 1| ≤ 2 ^ 1000 := by
    rw [show f64Value 1 = magnitudeValue 1 from rfl, magnitudeValue_one, abs_of_pos (by positivity), ← zpow_natCast]
    exact zpow_le_zpow_right₀ one_le_two (by norm_num)
  have hzero : |f64Value 0| ≤ 2 ^ 1000 := by
    rw [show f64Value 0 = 0 from f64Value_posZero, abs_zero]
    positivity
  rw [smallestSpectrum_getElem]
  split_ifs
  · exact ⟨by decide, hone, by decide, hzero⟩
  · exact ⟨by decide, hzero, by decide, hzero⟩

theorem complexOf_smallestSpectrum (k : Fin 64) :
    complexOf smallestSpectrum k = if k = 0 then ((magnitudeValue 1 : ℝ) : ℂ) else 0 := by
  rw [complexOf, smallestSpectrum_getElem]
  split_ifs
  · exact Complex.ext rfl (by simp [f64Value_posZero])
  · exact Complex.ext (by simp [f64Value_posZero]) (by simp [f64Value_posZero])

theorem refSample_smallestSpectrum (n : Fin 64) :
    (refSample (refScale 0) (complexOf smallestSpectrum) n).re = magnitudeValue 1 / 64 := by
  have hsample : refSample (refScale 0) (complexOf smallestSpectrum) n = ((magnitudeValue 1 / 64 : ℝ) : ℂ) := by
    simp [refSample, refScale, complexOf_smallestSpectrum, div_eq_inv_mul]
  rw [hsample, Complex.ofReal_re]

theorem refBound_smallestSpectrum : refBound (refScale 0) (complexOf smallestSpectrum) = magnitudeValue 1 / 64 := by
  have hterm (k : Fin 64) : |(complexOf smallestSpectrum k).re| + |(complexOf smallestSpectrum k).im| =
      if k = 0 then (magnitudeValue 1 : ℝ) else 0 := by
    have hpos : (0 : ℝ) ≤ magnitudeValue 1 := by exact_mod_cast magnitudeValue_nonneg (by norm_num)
    rw [complexOf_smallestSpectrum]
    split_ifs <;> simp [abs_of_nonneg hpos]
  simp [refBound, refScale, hterm, div_eq_inv_mul]

theorem abs_f64Value_eq_zero_or_ge (v : Word) :
    |(f64Value v : ℝ)| = 0 ∨ (magnitudeValue 1 : ℝ) ≤ |(f64Value v : ℝ)| := by
  have habs : |(f64Value v : ℝ)| = magnitudeValue (v.toNat % 2 ^ 63) := by exact_mod_cast abs_f64Value v
  rw [habs]
  rcases Nat.eq_zero_or_pos (v.toNat % 2 ^ 63) with h | h
  · exact .inl (by rw [h, magnitudeValue_zero, Rat.cast_zero])
  · exact .inr (by exact_mod_cast magnitudeValue_mono (Nat.mod_lt _ (by norm_num)) h)

/-- A 64th of the smallest positive binary64 is as far from 0 as its own size, and farther from every other value. -/
theorem not_partReachable_smallest {eps : ℝ} (heps : SynthEpsLegal eps) :
    ¬PartReachable eps (magnitudeValue 1 / 64) (magnitudeValue 1 / 64) := by
  rintro ⟨v, -, hv⟩
  have hpos : (0 : ℝ) < magnitudeValue 1 := Rat.cast_pos.2 (by rw [magnitudeValue_one]; positivity)
  have hmul : eps * (magnitudeValue 1 / 64 : ℝ) < 1 * (magnitudeValue 1 / 64) :=
    mul_lt_mul_of_pos_right (heps.2.trans_lt (by norm_num)) (by positivity)
  have hdist := (abs_abs_sub_abs_le (f64Value v : ℝ) (magnitudeValue 1 / 64)).trans hv
  rw [abs_of_pos (a := (magnitudeValue 1 / 64 : ℝ)) (by positivity), abs_le] at hdist
  rcases abs_f64Value_eq_zero_or_ge v with h | h <;> linarith

/-- Settles O18: part 0 of the block would be a binary64 within the bound of the reference. -/
theorem noNumericsAccurateOnSubnormalSpectrum : Obligations.NoNumericsAccurateOnSubnormalSpectrum := by
  intro impl eps heps
  have hfail : ¬SynthAccurateAt impl eps smallestSpectrum 0 := by
    intro h
    obtain ⟨hfin, -, hre, -⟩ := h smallestSpectrum_moderate 0
    rw [refSample_smallestSpectrum, refBound_smallestSpectrum] at hre
    exact not_partReachable_smallest heps ⟨_, hfin, hre⟩
  exact ⟨smallestSpectrum_moderate, hfail, fun h => hfail (h smallestSpectrum 0)⟩

end Sys2Proof.Machine
end

section
/-! SUPPORT. O27, O29, O30: the sequencer's side of one step (43_sequencer.md R180, R182, R184). The completion step
runs the pending word, listed or not; a write of CMD is taken like any other write. -/

namespace Sys2Proof.Machine

variable {s : State} {w : Word}

/-- Settles O27: the step is the completion, and the completion of a decoded word is its command's meaning. -/
theorem stepRunsDecodedCommand : Obligations.StepRunsDecodedCommand := by
  intro s i hnext hdecode
  rw [step_eq_completion hnext, completion_legal s i hdecode]

/-- The opcode map lists four words (30_encoding.md R81, R82). -/
theorem decode_error_of_unlisted (h1 : w ≠ 1) (h2 : w ≠ 2) (h3 : w ≠ 3) (h4 : w ≠ 4) :
    ∃ e, decode w = .error e := by
  cases hd : decode w with
  | error e => exact ⟨e, rfl⟩
  | ok i =>
    have hw : w = encode i := (decodeIsInverseOfEncode w i).1 hd
    cases i with
    | map => exact absurd hw h1
    | assemble => exact absurd hw h2
    | synth => exact absurd hw h3
    | run => exact absurd hw h4

/-- Settles O29: the step is the completion, which for a word outside the opcode map is the ILLEGAL body. -/
theorem unlistedWordRaisesIllegalCommand : Obligations.UnlistedWordRaisesIllegalCommand := by
  intro s hnext h1 h2 h3 h4
  obtain ⟨e, hdecode⟩ := decode_error_of_unlisted h1 h2 h3 h4
  exact ⟨_, (step_eq_completion hnext).trans (completion_illegal s e hdecode), rfl⟩

/-- Settles O30: the write is taken; while IDLE it is an acceptance, while BUSY it is dropped. -/
theorem commandWriteIsAcceptedOnlyWhileIdle : Obligations.CommandWriteIsAcceptedOnlyWhileIdle := by
  intro s v rest hi
  have hsup : accessSupported 0x0018 8 = true := by decide
  have hloc : locationAt 0x0018 = .cmd := rfl
  constructor
  · intro hidle
    rw [step_write_of_idle hidle hsup hi, hloc, writeAt_cmd]
    rfl
  · intro hbusy hwait
    have htaken : ({ s with inputs := rest } : State).seq = .busy := hbusy
    rw [step_eq_takeInput hi hsup (fun _ => hwait), takeInput_write_of_busy htaken]

end Sys2Proof.Machine
end

section
/-! SUPPORT. O20, O21: RUN on a binary string and a legal fraction (43_sequencer.md R183). Its checks pass, so its
completion holds the writes of the three units in turn; the completions of MAP and of ASSEMBLE add nothing that a later
unit reads, and what they record the completion of SYNTH records over. -/

namespace Sys2Proof.Machine

variable {s : State}

theorem exec_run_of_legal (hbits : BitsLoaded s) (hfrac : FractionInside s) :
    exec .run s = .next ((runWrites s).finish 0x04 0 0 0) :=
  execRunWith_of_legal synthImpl hbits hfrac

/-- Settles O20: the output tail is kept by the writes of SYNTH, the last of the three; the rest is the completion in
success. -/
theorem runSucceedsOnBinaryString : Obligations.RunSucceedsOnBinaryString := by
  intro s cp hbits hfrac hcp
  obtain rfl := cpLen_eq_of_floor hfrac hcp
  exact ⟨_, exec_run_of_legal hbits hfrac,
    fun n => synthWritesWith_tail (s := assembleWrites (mapWrites s)) synthImpl, rfl⟩

/-- Settles O21: MAP leaves the 48 symbols ASSEMBLE asks for, ASSEMBLE the 64 bins SYNTH asks for. -/
theorem runEqualsMapAssembleSynth : Obligations.RunEqualsMapAssembleSynth := by
  intro s hbits hfrac
  refine ⟨_, _, _, exec_map_of_bitsLoaded hbits, exec_assemble_of_symcnt rfl, exec_synth_of_legal hfrac rfl,
    rfl, rfl, rfl, ?_⟩
  rw [exec_run_of_legal hbits hfrac]
  rfl

end Sys2Proof.Machine
end

section
/-! SUPPORT. O24, O25, O48: a command's completion in one shape. Each command has its checks (`commandError`) and its
writes (`commandWrites`), and its meaning is `completeWith` of the two (`exec_eq`). Neither sees the status and the
bookkeeping (`BodiesIgnore`), so what the host does meanwhile does not matter to the result, and nor does it that the
same command has completed before: its checks come out the same and its writes write the same again. -/

namespace Sys2Proof.Machine

variable {s t u : State} {a : BusInput}

/-! ### The checks and the writes of a command -/

/-- The error the checks of a command give, if any (60_exceptions.md R211). -/
def commandError : Instr → State → Option CommandError
  | .map => mapError
  | .assemble => cardinalityError
  | .synth => synthError
  | .run => runError

/-- What the body of a command leaves (30_encoding.md R83, "writes on success"). -/
def commandWrites : Instr → State → State
  | .map => mapWrites
  | .assemble => assembleWrites
  | .synth => synthWrites
  | .run => runWrites

theorem exec_eq (i : Instr) (s : State) :
    exec i s = .next (completeWith (opcode i) (commandError i s) (commandWrites i s) s) := by
  cases i <;> rfl

/-- A completion, in success or in error, ends in the one effect of 43_sequencer.md R182. -/
theorem completeWith_eq_finish (op : Byte) (error : Option CommandError) (written s : State) :
    ∃ (u : State) (code sub : BitVec 4) (info : Word), completeWith op error written s = u.finish op code sub info := by
  obtain ⟨-, h⟩ | ⟨e, -, h⟩ := completeWith_cases op error written s
  · exact ⟨_, _, _, _, h⟩
  · exact ⟨_, _, _, _, h⟩

/-! ### What every command leaves alone -/

/-- The configuration, the interrupt enable, WRBUSY, the bit string, PEND and what is the host's or the model's own. -/
def State.untouchedPart (s : State) : Config.Params × Bool × Bool × BitVec 1 × Word × Word × Word × BitVec 16 ×
    Vector Byte 288 × Word × List BusInput × List Word × Nat :=
  (s.params, s.ie, s.wrbusy, s.policy, s.cpfrac, s.pilotRe, s.pilotIm, s.bitlen, s.bitbuf, s.pend, s.inputs, s.replies,
    s.draws)

theorem completionKeeps_untouchedPart : CompletionKeeps State.untouchedPart :=
  ⟨fun _ _ _ _ _ => rfl, fun _ => rfl, fun _ _ => rfl, fun _ _ => rfl⟩

theorem completionKeeps_pend : CompletionKeeps State.pend :=
  ⟨fun _ _ _ _ _ => rfl, fun _ => rfl, fun _ _ => rfl, fun _ _ => rfl⟩

/-- Settles O24: no unit and no completion writes the untouched part, and every completion records its end. -/
theorem commandsLeaveConfigurationAlone : Obligations.CommandsLeaveConfigurationAlone := by
  intro i s t h
  have hkept : t.untouchedPart = s.untouchedPart := completionKeeps_untouchedPart.exec h
  simp only [State.untouchedPart, Prod.mk.injEq] at hkept
  have hend : t.done = true ∧ t.seq = .idle ∧ t.lastop = opcode i := by
    obtain rfl := Host.Outcome.next.inj ((exec_eq i s).symm.trans h)
    obtain ⟨u, code, sub, info, hfinish⟩ :=
      completeWith_eq_finish (opcode i) (commandError i s) (commandWrites i s) s
    rw [hfinish]
    exact ⟨rfl, rfl, rfl⟩
  simpa only [and_assoc] using And.intro hkept hend

/-! ### What no command sees -/

/-- The change `g` of the state is one that no command's checks see, and that its writes neither see nor undo. -/
def BodiesIgnore (g : State → State) : Prop :=
  ∀ i s, commandError i (g s) = commandError i s ∧ commandWrites i (g s) = g (commandWrites i s)

/-! ### The same command again -/

/-- A completion followed by an acceptance writes status fields only. -/
theorem bodiesIgnore_finish_accept (op : Byte) (code sub : BitVec 4) (info w : Word) :
    BodiesIgnore fun u => (u.finish op code sub info).accept w := by
  intro i s
  cases i <;> exact ⟨rfl, rfl⟩

/-- No command writes what its own checks read. -/
theorem commandError_commandWrites (i : Instr) (s : State) :
    commandError i (commandWrites i s) = commandError i s := by
  cases i <;> rfl

theorem outputArray_outputArray (cp : Fin 64) (block : Vector Word 64) (old : Vector Word 127) :
    outputArray cp block (outputArray cp block old) = outputArray cp block old := by
  refine Vector.ext fun n hn => ?_
  by_cases hblock : n < 64 + cp.val
  · rw [outputArray_getElem, outputArray_getElem]
    exact outputCell_old_irrelevant cp block _ _ ⟨n, hn⟩ hblock
  · exact outputArray_tail cp block _ ⟨n, hn⟩ (Nat.le_of_not_lt hblock)

/-- SYNTH reads nothing of the output buffer but the entries it keeps. -/
theorem synthWrites_synthWrites (s : State) : synthWrites (synthWrites s) = synthWrites s := by
  have hre := outputArray_outputArray (cpLen s.cpfrac) ((synthImpl (subcarrierVector s) s.policy).map Prod.fst) s.outRe
  have him := outputArray_outputArray (cpLen s.cpfrac) ((synthImpl (subcarrierVector s) s.policy).map Prod.snd) s.outIm
  exact congrArg₂ (fun re im => { synthWrites s with outRe := re, outIm := im }) hre him

/-- SYNTH writes nothing that MAP or ASSEMBLE reads, so after all three the first two change nothing. -/
theorem assembleWrites_mapWrites_runWrites (s : State) :
    assembleWrites (mapWrites (runWrites s)) = runWrites s := rfl

theorem commandWrites_commandWrites (i : Instr) (s : State) :
    commandWrites i (commandWrites i s) = commandWrites i s := by
  cases i with
  | map => rfl
  | assemble => rfl
  | synth => exact synthWrites_synthWrites s
  | run =>
    calc runWrites (runWrites s)
      _ = synthWrites (assembleWrites (mapWrites (runWrites s))) := rfl
      _ = synthWrites (synthWrites (assembleWrites (mapWrites s))) := by rw [assembleWrites_mapWrites_runWrites]; rfl
      _ = runWrites s := synthWrites_synthWrites _

/-- The acceptance undoes nothing of the completion that the next completion does not write again. -/
theorem finish_accept_finish (u : State) (op : Byte) (code sub : BitVec 4) (info : Word) :
    ((u.finish op code sub info).accept u.pend).finish op code sub info =
      { u.finish op code sub info with draws := u.draws + 1 } := rfl

theorem exec_accept_of_exec {i : Instr} (h : exec i s = .next t) :
    exec i (t.accept t.pend) = .next { t with draws := t.draws + 1 } := by
  obtain rfl := Host.Outcome.next.inj ((exec_eq i s).symm.trans h)
  obtain ⟨hcheck, ht⟩ | ⟨e, hcheck, ht⟩ :=
    completeWith_cases (opcode i) (commandError i s) (commandWrites i s) s <;> rw [ht, exec_eq]
  · obtain ⟨herror, hwrites⟩ :=
      bodiesIgnore_finish_accept (opcode i) 0 0 0 (commandWrites i s).pend i (commandWrites i s)
    rw [finish_pend, herror, hwrites, commandError_commandWrites, commandWrites_commandWrites, hcheck]
    exact congrArg Host.Outcome.next (finish_accept_finish (commandWrites i s) (opcode i) 0 0 0)
  · obtain ⟨herror, -⟩ := bodiesIgnore_finish_accept (opcode i) e.code e.sub e.info s.pend i s
    rw [finish_pend, herror, hcheck]
    exact congrArg Host.Outcome.next (finish_accept_finish s (opcode i) e.code e.sub e.info)

/-- A legal word's command runs again with the same checks and the same writes; the ILLEGAL body reads the word only. -/
theorem completion_accept_of_completion (h : completion s = .next t) :
    completion (t.accept s.pend) = .next { t with draws := t.draws + 1 } := by
  have hpend : t.pend = s.pend := completionKeeps_pend.completion h
  cases hd : decode s.pend with
  | ok i =>
    rw [completion_legal s i hd] at h
    rw [completion_legal (t.accept s.pend) i hd, ← hpend]
    exact exec_accept_of_exec h
  | error e =>
    rw [completion_illegal s e hd] at h
    obtain rfl := Host.Outcome.next.inj h
    exact completion_illegal _ e hd

/-- Settles O25, for the state in which the word is pending. -/
theorem sameCommandTwiceIsOnce : Obligations.SameCommandTwiceIsOnce :=
  fun w s _ => completion_accept_of_completion (s := { s with pend := w })

/-! ### What the host does meanwhile -/

/-- `s` with the bookkeeping of the interleaving and WRBUSY of `b`. -/
def State.withBookkeeping (s b : State) : State :=
  { s with inputs := b.inputs, replies := b.replies, wait := b.wait, draws := b.draws, wrbusy := b.wrbusy }

theorem sameMachine_iff : SameMachine s t ↔ t = s.withBookkeeping t := Iff.rfl

theorem SameMachine.refl (s : State) : SameMachine s s := rfl

theorem SameMachine.trans (hst : SameMachine s t) (htu : SameMachine t u) : SameMachine s u :=
  sameMachine_iff.2 <| calc
    u = t.withBookkeeping u := htu
    _ = (s.withBookkeeping t).withBookkeeping u := congrArg (·.withBookkeeping u) hst
    _ = s.withBookkeeping u := rfl

theorem bodiesIgnore_withBookkeeping (b : State) : BodiesIgnore (·.withBookkeeping b) := by
  intro i s
  cases i <;> exact ⟨rfl, rfl⟩

theorem sameMachine_completeWith (op : Byte) (error : Option CommandError) (written s b : State) :
    SameMachine (completeWith op error written s)
      (completeWith op error (written.withBookkeeping b) (s.withBookkeeping b)) := by
  cases error <;> rfl

/-- The completion takes states that agree to states that agree. -/
theorem completion_sameMachine (h : SameMachine s t) (hu : completion s = .next u) :
    ∃ v, completion t = .next v ∧ SameMachine u v := by
  rw [sameMachine_iff.1 h]
  generalize t = b
  cases hd : decode s.pend with
  | ok i =>
    obtain ⟨herror, hwrites⟩ := bodiesIgnore_withBookkeeping b i s
    rw [completion_legal s i hd, exec_eq] at hu
    obtain rfl := Host.Outcome.next.inj hu
    rw [completion_legal (s.withBookkeeping b) i hd, exec_eq, herror, hwrites]
    exact ⟨_, rfl, sameMachine_completeWith _ _ _ _ _⟩
  | error e =>
    rw [completion_illegal s e hd] at hu
    obtain rfl := Host.Outcome.next.inj hu
    exact ⟨_, completion_illegal (s.withBookkeeping b) e hd, sameMachine_completeWith _ (some _) s s b⟩

/-- An access of the host while BUSY counts down the latency and changes nothing else of the machine but WRBUSY
(20_memory.md R66, R71). -/
theorem sameMachine_takeInput_of_busy (hbusy : s.seq = .busy) (ha : a ≠ .reset) :
    SameMachine s (s.takeInput a) ∧ (s.takeInput a).wait = s.wait - 1 := by
  cases a with
  | read off size =>
    cases hvol : isVolatile (locationAt off) with
    | true => rw [takeInput_read_volatile_of_busy hbusy hvol]; exact ⟨rfl, rfl⟩
    | false => rw [takeInput_read_of_busy hbusy hvol]; exact ⟨rfl, rfl⟩
  | write off size v => rw [takeInput_write_of_busy hbusy]; exact ⟨rfl, rfl⟩
  | reset => exact absurd rfl ha

/-- A BUSY machine with no reset to come completes or takes an access, after which the same holds with one access
fewer to wait for. -/
theorem step_of_busy_cases (hbusy : s.seq = .busy) (hreset : NoReset s) :
    step s = completion s ∨
      ∃ t, step s = .next t ∧ SameMachine s t ∧ t.wait + 1 = s.wait ∧ t.seq = .busy ∧ NoReset t := by
  obtain ⟨-, hstep⟩ | ⟨hidle, -, -⟩ | ⟨a, rest, hi, -, hwait, hstep⟩ | ⟨-, -, -, -, hidle, -⟩ := step_cases s
  case inl => exact .inl hstep
  case inr.inl | inr.inr.inr => simp [hbusy] at hidle
  case inr.inr.inl =>
    have hbusy' : ({ s with inputs := rest } : State).seq = .busy := hbusy
    have hrest : SameMachine s { s with inputs := rest } := rfl
    obtain ⟨hsame, hcount⟩ := sameMachine_takeInput_of_busy hbusy' (hreset a (hi ▸ List.mem_cons_self))
    refine .inr ⟨_, hstep, hrest.trans hsame, ?_, ?_, ?_⟩
    · have hpos : s.wait ≠ 0 := hwait hbusy
      rw [hcount]
      exact Nat.succ_pred_eq_of_ne_zero hpos
    · exact (congrArg State.seq hsame).trans hbusy
    · intro b hb
      rw [takeInput_inputs] at hb
      exact hreset b (hi ▸ List.mem_cons_of_mem a hb)

theorem core_run_one (s : State) (h : step s = .next t) : core.run 1 s = .next t := by
  simp only [Host.Core.run, core, h]

theorem core_run_succ (k : Nat) (h : step s = .next t) : core.run (k + 1) s = core.run k t := by
  simp only [Host.Core.run, core, h]

/-- Settles O48, by induction on the latency left: each access leaves a state that agrees, and the completion keeps the
agreement. -/
theorem latencyDoesNotChangeTheResult : Obligations.LatencyDoesNotChangeTheResult := by
  intro s hbusy hreset
  induction hn : s.wait using Nat.strong_induction_on generalizing s with
  | _ n ih =>
    subst hn
    obtain ⟨u, hu⟩ := completion_next s
    obtain hnow | ⟨s', hstep, hsame, hcount, hbusy', hreset'⟩ := step_of_busy_cases hbusy hreset
    · exact ⟨1, u, u, le_rfl, Nat.le_add_left 1 _, core_run_one s (hnow.trans hu), hu, .refl u⟩
    · obtain ⟨k, t, u', -, hk, hrun, hu', hagree⟩ := ih s'.wait (by omega) s' hbusy' hreset' rfl
      obtain ⟨v, hv, huv⟩ := completion_sameMachine hsame hu
      obtain rfl : v = u' := Host.Outcome.next.inj (hv.symm.trans hu')
      exact ⟨k + 1, t, u, Nat.le_add_left 1 k, by omega, (core_run_succ k hstep).trans hrun, hu, huv.trans hagree⟩

end Sys2Proof.Machine
end

section
/-! SUPPORT. O3, O4, O7, O13, O14, O22: a command that raises an error (60_exceptions.md R201 to R206, R210 to R212).
Each check is said once: when it gives an error, and which (`lengthError_eq_some_iff` and its like). A command whose
checks give an error writes the status only (`onlyStatusWritten_of_commandError`), and its error is one that the table
of R201 lists for it (`commandError_raisedBy`). -/

namespace Sys2Proof.Machine

variable {s t : State} {i : Instr} {e : CommandError} {op : Byte}

/-! ### The checks -/

theorem firstError_eq_some_iff {a b : Option CommandError} :
    firstError a b = some e ↔ a = some e ∨ a = none ∧ b = some e := by
  cases a <;> simp [firstError]

theorem lengthError_eq_some_iff :
    lengthError s = some e ↔ s.bitlen ≠ 288 ∧ CommandError.invalidLength s.bitlen = e := by
  rw [lengthError, Option.ite_none_left_eq_some, Option.some_inj]

theorem cardinalityError_eq_some_iff :
    cardinalityError s = some e ↔ s.symcnt ≠ 48 ∧ CommandError.cardinality s.symcnt = e := by
  rw [cardinalityError, Option.ite_none_left_eq_some, Option.some_inj]

theorem fractionError_eq_some_iff :
    fractionError s = some e ↔ ¬FractionInside s ∧ CommandError.prefixFraction s.cpfrac = e := by
  rw [fractionError, Option.ite_none_left_eq_some, Option.some_inj, fractionLegal, decide_eq_true_eq, FractionInside]

theorem vectorError_eq_some_iff :
    vectorError s = some e ↔ s.freqlen ≠ 64 ∧ CommandError.vectorLength s.freqlen = e := by
  rw [vectorError, Option.ite_none_left_eq_some, Option.some_inj]

theorem symbolError_eq_some_iff : symbolError s = some e ↔
    ∃ ch n, firstNonBinary 0 s.bitbuf.toList = some (ch, n) ∧ CommandError.invalidSymbol ch n = e := by
  unfold symbolError
  cases firstNonBinary 0 s.bitbuf.toList with
  | none => simp
  | some bad => simp [Prod.ext_iff, and_assoc]

theorem isBinary_bitbuf_eq_false_iff (p : Fin 288) : isBinary s.bitbuf[p] = false ↔ BadSymbolAt s p := by
  rw [← Bool.not_eq_true, isBinary_iff, not_or, BadSymbolAt]

/-- The character check reports the lowest bad position and its character (60_exceptions.md R203). -/
theorem exists_lowest_of_symbolError (h : symbolError s = some e) :
    ∃ p : Fin 288, BadSymbolAt s p ∧ (∀ q : Fin 288, q < p → ¬BadSymbolAt s q) ∧
      CommandError.invalidSymbol s.bitbuf[p] p.val = e := by
  obtain ⟨ch, n, hfirst, rfl⟩ := symbolError_eq_some_iff.1 h
  obtain ⟨pre, rest, hsplit, hpre, hch, hn⟩ := firstNonBinary_some 0 _ ch n hfirst
  obtain rfl : n = pre.length := by omega
  have hlt : pre.length < 288 := by
    have hlength := congrArg List.length hsplit
    simp only [Vector.length_toList, List.length_append, List.length_cons] at hlength
    omega
  have hcell (k : Fin 288) : (pre ++ ch :: rest)[k.val]? = some s.bitbuf[k] := by simp [← hsplit]
  have hat : ch = s.bitbuf[pre.length] := by simpa using hcell ⟨pre.length, hlt⟩
  refine ⟨⟨pre.length, hlt⟩, (isBinary_bitbuf_eq_false_iff _).1 (hat ▸ hch), fun q hq hbad => ?_, by rw [hat]; rfl⟩
  have hmem : s.bitbuf[q] ∈ pre := List.mem_of_getElem? ((List.getElem?_append_left hq).symm.trans (hcell q))
  exact Bool.false_ne_true (((isBinary_bitbuf_eq_false_iff q).2 hbad).symm.trans (hpre _ hmem))

/-! ### The error of a command -/

/-- RUN comes to its fraction check with a loaded bit string (60_exceptions.md R211). -/
theorem runError_of_bitsLoaded (h : BitsLoaded s) : runError s = fractionError s := by
  obtain ⟨hlen, hbits⟩ := h
  rw [runError, (lengthError_none_iff s).2 hlen, (symbolError_none_iff s).2 hbits]
  rfl

theorem lengthError_raisedBy (h : lengthError s = some e) (hop : op = 0x01 ∨ op = 0x04) : e.RaisedBy op := by
  obtain ⟨hlen, rfl⟩ := lengthError_eq_some_iff.1 h
  exact ⟨hlen, hop⟩

theorem symbolError_raisedBy (h : symbolError s = some e) (hop : op = 0x01 ∨ op = 0x04) : e.RaisedBy op := by
  obtain ⟨p, ⟨hzero, hone⟩, -, rfl⟩ := exists_lowest_of_symbolError h
  exact ⟨hzero, hone, p.isLt, hop⟩

theorem fractionError_raisedBy (h : fractionError s = some e) (hop : op = 0x03 ∨ op = 0x04) : e.RaisedBy op := by
  obtain ⟨hfrac, rfl⟩ := fractionError_eq_some_iff.1 h
  exact ⟨hfrac, hop⟩

/-- The checks of each command give errors of its own rows of the table of 60_exceptions.md R201. -/
theorem commandError_raisedBy (h : commandError i s = some e) : e.RaisedBy (opcode i) := by
  cases i with
  | map =>
    obtain hlen | ⟨-, hsym⟩ := firstError_eq_some_iff.1 h
    · exact lengthError_raisedBy hlen (.inl rfl)
    · exact symbolError_raisedBy hsym (.inl rfl)
  | assemble =>
    obtain ⟨hcount, rfl⟩ := cardinalityError_eq_some_iff.1 h
    exact ⟨hcount, rfl⟩
  | synth =>
    obtain hfrac | ⟨-, hvector⟩ := firstError_eq_some_iff.1 h
    · exact fractionError_raisedBy hfrac (.inl rfl)
    · obtain ⟨hlen, rfl⟩ := vectorError_eq_some_iff.1 hvector
      exact ⟨hlen, rfl⟩
  | run =>
    obtain hlen | ⟨-, hrest⟩ := firstError_eq_some_iff.1 h
    · exact lengthError_raisedBy hlen (.inr rfl)
    · obtain hsym | ⟨-, hfrac⟩ := firstError_eq_some_iff.1 hrest
      · exact symbolError_raisedBy hsym (.inr rfl)
      · exact fractionError_raisedBy hfrac (.inr rfl)

/-! ### The completion of a command -/

/-- A command's completion in success holds its writes; in error it records an error of the command's own and nothing
else (60_exceptions.md R210). -/
theorem exec_cases (h : exec i s = .next t) :
    t = (commandWrites i s).finish (opcode i) 0 0 0 ∨
    ∃ e : CommandError, e.RaisedBy (opcode i) ∧ t = s.finish (opcode i) e.code e.sub e.info := by
  obtain rfl := Host.Outcome.next.inj ((exec_eq i s).symm.trans h)
  obtain ⟨-, ht⟩ | ⟨e, herror, ht⟩ := completeWith_cases (opcode i) (commandError i s) (commandWrites i s) s
  · exact .inl ht
  · exact .inr ⟨e, commandError_raisedBy herror, ht⟩

theorem onlyStatusWritten_of_commandError (h : commandError i s = some e) :
    ∃ t, exec i s = .next t ∧ OnlyStatusWritten s t (opcode i) e.code e.sub e.info :=
  ⟨s.fail (opcode i) e, by rw [exec_eq, h]; rfl, rfl⟩

/-- Settles O22: a completion with ERRCODE not 0 is one in error. -/
theorem failedCommandWritesOnlyStatus : Obligations.FailedCommandWritesOnlyStatus := by
  intro i s t h hcode
  obtain rfl | ⟨e, -, rfl⟩ := exec_cases h
  · exact absurd rfl hcode
  · rfl

/-! ### Each error -/

/-- An error that both MAP and RUN give. -/
theorem onlyStatusWritten_map_run (hmap : mapError s = some e) (hrun : runError s = some e) :
    ∃ t u, exec .map s = .next t ∧ exec .run s = .next u ∧
      OnlyStatusWritten s t 0x01 e.code e.sub e.info ∧ OnlyStatusWritten s u 0x04 e.code e.sub e.info := by
  obtain ⟨t, ht, hts⟩ := onlyStatusWritten_of_commandError (i := .map) hmap
  obtain ⟨u, hu, hus⟩ := onlyStatusWritten_of_commandError (i := .run) hrun
  exact ⟨t, u, ht, hu, hts, hus⟩

/-- Settles O3: the length is the first check of both commands. -/
theorem wrongLengthRaisesInvalidLength : Obligations.WrongLengthRaisesInvalidLength := by
  intro s hlen
  have herror := lengthError_eq_some_iff.2 ⟨hlen, rfl⟩
  exact onlyStatusWritten_map_run (firstError_eq_some_iff.2 (.inl herror)) (firstError_eq_some_iff.2 (.inl herror))

/-- Settles O4: the characters are the second check of both commands. -/
theorem badCharacterRaisesInvalidSymbol : Obligations.BadCharacterRaisesInvalidSymbol := by
  rintro s hlen ⟨q, hzero, hone⟩
  have hsome : symbolError s ≠ none := fun hnone => ((symbolError_none_iff s).1 hnone q).elim hzero hone
  obtain ⟨e, herror⟩ := Option.ne_none_iff_exists'.1 hsome
  obtain ⟨p, hbad, hlowest, rfl⟩ := exists_lowest_of_symbolError herror
  have hlength := (lengthError_none_iff s).2 hlen
  exact ⟨p, hbad, hlowest, onlyStatusWritten_map_run (firstError_eq_some_iff.2 (.inr ⟨hlength, herror⟩))
    (firstError_eq_some_iff.2 (.inr ⟨hlength, firstError_eq_some_iff.2 (.inl herror)⟩))⟩

/-- Settles O7: the count is ASSEMBLE's only check, and of the table's rows only ASSEMBLE's has code 3. -/
theorem wrongCountRaisesCardinality : Obligations.WrongCountRaisesCardinality := by
  constructor
  · intro s hcount
    exact onlyStatusWritten_of_commandError (i := .assemble) (cardinalityError_eq_some_iff.2 ⟨hcount, rfl⟩)
  · intro s t h hcode
    obtain rfl | ⟨e, hraised, rfl⟩ := exec_cases h <;> rw [finish_errcode] at hcode
    · exact absurd hcode (by decide)
    · cases e with
      | cardinality m => exact absurd hraised.2 (by decide)
      | _ => simp [CommandError.code] at hcode

/-- Settles O13: the fraction is the first check of SYNTH, and of RUN once its bit string passes. -/
theorem illegalFractionRaisesConfiguration : Obligations.IllegalFractionRaisesConfiguration := by
  intro s hout
  have hfrac : ¬FractionInside s := by rw [FractionInside]; omega
  have herror := fractionError_eq_some_iff.2 ⟨hfrac, rfl⟩
  exact ⟨onlyStatusWritten_of_commandError (i := .synth) (firstError_eq_some_iff.2 (.inl herror)),
    fun hbits => onlyStatusWritten_of_commandError (i := .run) ((runError_of_bitsLoaded hbits).trans herror)⟩

/-- Settles O14: the vector's length is the second check of SYNTH, and of the table's rows only SYNTH's has sub-code
2. -/
theorem wrongVectorLengthRaisesConfiguration : Obligations.WrongVectorLengthRaisesConfiguration := by
  constructor
  · intro s hfrac hlen
    exact onlyStatusWritten_of_commandError (i := .synth) (firstError_eq_some_iff.2
      (.inr ⟨(fractionError_none_iff s).2 hfrac, vectorError_eq_some_iff.2 ⟨hlen, rfl⟩⟩))
  · intro s t h hsub
    obtain rfl | ⟨e, hraised, rfl⟩ := exec_cases h <;> rw [finish_errsub] at hsub
    · exact absurd hsub (by decide)
    · cases e with
      | vectorLength m => exact absurd hraised.2 (by decide)
      | _ => simp [CommandError.sub] at hsub

end Sys2Proof.Machine
end

section
/-! SUPPORT. O45: every step keeps the invariant of a run. A completion records success or an error that its word can
raise (`completion_cases`); the host writes the error record by an acceptance only, which clears it, and OUTLEN never;
a reset clears both. -/

namespace Sys2Proof.Machine

variable {s t : State} {w : Word}

/-! ### The completion step -/

/-- A word outside the opcode map is a true cause of IllegalCommand (60_exceptions.md R207). -/
theorem illegalCommand_raisedBy {d : DecodeError} (h : decode w = .error d) :
    (CommandError.illegalCommand w).RaisedBy (w.setWidth 8) := by
  have hne (i : Instr) : w ≠ encode i := by
    rintro rfl
    simp [decode_encode] at h
  exact ⟨hne .map, hne .assemble, hne .synth, hne .run, rfl⟩

/-- Everything a completion step can do: record success over a command's writes, or record an error with a true cause
and write nothing else. -/
theorem completion_cases (h : completion s = .next t) :
    (∃ i, t = (commandWrites i s).finish (opcode i) 0 0 0) ∨
    ∃ (op : Byte) (e : CommandError), e.RaisedBy op ∧ t = s.finish op e.code e.sub e.info := by
  cases hd : decode s.pend with
  | ok i =>
    obtain ht | ⟨e, hraised, ht⟩ := exec_cases ((completion_legal s i hd).symm.trans h)
    · exact .inl ⟨i, ht⟩
    · exact .inr ⟨opcode i, e, hraised, ht⟩
  | error d =>
    obtain rfl := Host.Outcome.next.inj ((completion_illegal s d hd).symm.trans h)
    exact .inr ⟨s.pend.setWidth 8, .illegalCommand s.pend, illegalCommand_raisedBy hd, rfl⟩

/-- OUTLEN is 0 or 64 to 127 (10_state.md R42): the clause `RunInvariant.outlen`. -/
def OutlenLegal (s : State) : Prop := s.outlen = 0 ∨ (64 ≤ s.outlen.toNat ∧ s.outlen.toNat ≤ 127)

theorem outlenLegal_synthWrites (s : State) : OutlenLegal (synthWrites s) := by
  have hlen := synthWritesWith_outlen_toNat synthImpl s
  have hlt := (cpLen s.cpfrac).isLt
  exact .inr ⟨by rw [synthWrites_eq]; omega, by rw [synthWrites_eq]; omega⟩

/-- MAP and ASSEMBLE leave OUTLEN, SYNTH and RUN write 64 + cp_len. -/
theorem outlenLegal_commandWrites (i : Instr) (h : OutlenLegal s) : OutlenLegal (commandWrites i s) := by
  cases i with
  | map => exact h
  | assemble => exact h
  | synth => exact outlenLegal_synthWrites s
  | run => exact outlenLegal_synthWrites _

theorem runInvariant_completion (hs : RunInvariant s) (h : completion s = .next t) : RunInvariant t := by
  have hparams : t.params.wellFormed = true := completionKeeps_params.completion h ▸ hs.params
  obtain ⟨i, rfl⟩ | ⟨op, e, hraised, rfl⟩ := completion_cases h
  · exact ⟨.inl ⟨rfl, rfl, rfl⟩, nofun, hparams, outlenLegal_commandWrites i hs.outlen⟩
  · exact ⟨.inr ⟨e, hraised, rfl, rfl, rfl⟩, nofun, hparams, hs.outlen⟩

/-! ### The host and the platform -/

/-- A write while IDLE: an acceptance clears the error record and DONE, an acknowledgement starts nothing, and no other
location holds anything the invariant speaks of. -/
theorem runInvariant_writeAt (hs : RunInvariant s) (hidle : s.seq = .idle) (v : Word) (l : Location) :
    RunInvariant (s.writeAt v l) := by
  obtain ⟨hrecord, hbusy, hparams, houtlen⟩ := hs
  cases l with
  | cmd => exact ⟨.inl ⟨rfl, rfl, rfl⟩, fun _ => ⟨rfl, rfl⟩, hparams, houtlen⟩
  | status => exact ⟨hrecord, fun h => absurd (hidle.symm.trans h) nofun, hparams, houtlen⟩
  | _ => exact ⟨hrecord, hbusy, hparams, houtlen⟩

/-- The invariant speaks neither of WRBUSY nor of the bookkeeping of the interleaving. -/
theorem runInvariant_of_sameMachine (h : SameMachine s t) (hs : RunInvariant s) : RunInvariant t := by
  obtain ⟨hrecord, hbusy, hparams, houtlen⟩ := hs
  rw [sameMachine_iff.1 h]
  exact ⟨hrecord, hbusy, hparams, houtlen⟩

theorem sameMachine_takeInput_read (s : State) (off size : Nat) : SameMachine s (s.takeInput (.read off size)) := by
  cases hseq : s.seq with
  | idle => rw [takeInput_read_of_idle hseq]; rfl
  | busy => exact (sameMachine_takeInput_of_busy (a := .read off size) hseq nofun).1

theorem runInvariant_takeInput (hs : RunInvariant s) (a : BusInput) : RunInvariant (s.takeInput a) := by
  cases a with
  | read off size => exact runInvariant_of_sameMachine (sameMachine_takeInput_read s off size) hs
  | write off size v =>
    cases hseq : s.seq with
    | idle => rw [takeInput_write_of_idle hseq]; exact runInvariant_writeAt hs hseq v _
    | busy => exact runInvariant_of_sameMachine (sameMachine_takeInput_of_busy (a := .write off size v) hseq nofun).1 hs
  | reset => exact ⟨.inl ⟨rfl, rfl, rfl⟩, nofun, hs.params, .inl rfl⟩

/-- Settles O45: a completion, a quiet step and an input keep the invariant, and a refusal answers no state. -/
theorem stepKeepsErrorRecordAndOutlenLegal : Obligations.StepKeepsErrorRecordAndOutlenLegal := by
  intro s t hs h
  obtain ⟨-, hstep⟩ | ⟨-, -, hstep⟩ | ⟨a, rest, -, -, -, hstep⟩ | ⟨_, _, -, -, -, hstep⟩ := step_cases s <;>
    rw [hstep] at h
  · exact runInvariant_completion hs h
  · exact Host.Outcome.next.inj h ▸ hs
  · obtain rfl := Host.Outcome.next.inj h
    have htaken : SameMachine s { s with inputs := rest } := rfl
    exact runInvariant_takeInput (runInvariant_of_sameMachine htaken hs) a
  · cases h

end Sys2Proof.Machine
end

section
/-! SUPPORT. O31, O32, O40, O52: what the host sees of the status besides the error record: WRBUSY (60_exceptions.md
R208), the interrupt output (R215) and an IDLE machine left alone (R223). -/

namespace Sys2Proof.Machine

variable {s : State} {a : BusInput} {off : Nat} {l : Location}

/-! ### WRBUSY -/

/-- Settles O31: the write is taken, and while BUSY that counts down the latency and sets WRBUSY. -/
theorem writeWhileBusyOnlySetsWrbusy : Obligations.WriteWhileBusyOnlySetsWrbusy := by
  intro s off v rest hbusy hwait hsup hi
  have htaken : ({ s with inputs := rest } : State).seq = .busy := hbusy
  rw [step_eq_takeInput hi hsup (fun _ => hwait), takeInput_write_of_busy htaken]

theorem completionKeeps_wrbusy : CompletionKeeps State.wrbusy :=
  ⟨fun _ _ _ _ _ => rfl, fun _ => rfl, fun _ _ => rfl, fun _ _ => rfl⟩

theorem takeInput_read_wrbusy (s : State) (off size : Nat) : (s.takeInput (.read off size)).wrbusy = s.wrbusy := by
  cases hseq : s.seq with
  | idle => rw [takeInput_read_of_idle hseq]
  | busy =>
    cases hvol : isVolatile (locationAt off) with
    | true => rw [takeInput_read_volatile_of_busy hseq hvol]
    | false => rw [takeInput_read_of_busy hseq hvol]

/-- A write while IDLE takes WRBUSY away only as an acknowledgement. -/
theorem eq_status_of_writeAt_clears_wrbusy {v : Word} (hs : s.wrbusy = true) (ht : (s.writeAt v l).wrbusy = false) :
    l = .status ∧ v.getLsbD 3 = true := by
  cases l with
  | status => simpa [hs] using ht
  | _ => exact absurd (hs.symm.trans ht) nofun

/-- An input that takes WRBUSY away is a reset, or a write of STATUS with bit 3 set, taken while IDLE. -/
theorem takeInput_clears_wrbusy (hs : s.wrbusy = true) (ht : (s.takeInput a).wrbusy = false) :
    a = .reset ∨ ∃ off size v, a = .write off size v ∧ locationAt off = .status ∧ v.getLsbD 3 = true ∧
      s.seq = .idle := by
  cases a with
  | reset => exact .inl rfl
  | read off size => simp [takeInput_read_wrbusy, hs] at ht
  | write off size v =>
    cases hseq : s.seq with
    | busy => simp [takeInput_write_of_busy hseq] at ht
    | idle =>
      rw [takeInput_write_of_idle hseq] at ht
      obtain ⟨hloc, hbit⟩ := eq_status_of_writeAt_clears_wrbusy hs ht
      exact .inr ⟨off, size, v, rfl, hloc, hbit, rfl⟩

/-- STATUS stands at one supported offset (20_memory.md R61). -/
theorem eq_offset_of_locationAt_status {size : Nat} (hsup : accessSupported off size = true)
    (hloc : locationAt off = .status) : off = 0x0010 ∧ size = 8 := by
  obtain ⟨hsize, halign, hlt⟩ := (accessSupported_iff off size).1 hsup
  obtain ⟨-, hres⟩ | ⟨-, -, hoff⟩ := locationAt_cases halign hlt
  · simp [hloc] at hres
  · rw [hloc] at hoff
    exact ⟨hoff.symm, hsize⟩

/-- Settles O32: a completion and a quiet step keep WRBUSY, so the step took an input that clears it. -/
theorem wrbusyStaysUntilClearedOrReset : Obligations.WrbusyStaysUntilClearedOrReset := by
  intro s t h hs ht
  obtain ⟨-, hstep⟩ | ⟨-, -, hstep⟩ | ⟨a, rest, hi, hsup, -, hstep⟩ | ⟨_, _, -, -, -, hstep⟩ := step_cases s <;>
    rw [hstep] at h
  case inl => simp [completionKeeps_wrbusy.completion h, hs] at ht
  case inr.inl => simp [← Host.Outcome.next.inj h, hs] at ht
  case inr.inr.inl =>
    obtain rfl := Host.Outcome.next.inj h
    obtain rfl | ⟨off, size, v, rfl, hloc, hbit, hidle⟩ :=
      takeInput_clears_wrbusy (s := { s with inputs := rest }) hs ht
    · exact ⟨rest, .inl hi⟩
    · obtain ⟨rfl, rfl⟩ := eq_offset_of_locationAt_status hsup hloc
      exact ⟨rest, .inr ⟨v, hi, hbit, hidle⟩⟩
  case inr.inr.inr => cases h

/-! ### The interrupt output -/

/-- Settles O40: a completion sets DONE and keeps CTRL.IE; an acceptance, an acknowledgement of DONE and a reset clear
DONE. -/
theorem irqRisesAndFalls : Obligations.IrqRisesAndFalls := by
  refine ⟨fun i s t h => ?completion, fun _ _ => rfl, fun _ _ => rfl, fun s v hbit => ?acknowledgement, rfl⟩
  case completion =>
    obtain ⟨-, hie, -, -, -, -, -, -, -, -, -, -, -, hdone, -⟩ := commandsLeaveConfigurationAlone i s t h
    rw [State.irq, hie, hdone, Bool.true_and]
  case acknowledgement => simp [State.irq, hbit]

/-! ### The IDLE machine -/

/-- Settles O52: with nothing to come from outside, an IDLE machine's action is none. -/
theorem idleMachineWaits : Obligations.IdleMachineWaits := by
  intro s hidle hi
  simp only [step, agentStep, hi, quietStep, hidle]

end Sys2Proof.Machine
end

section
/-! SUPPORT. O46, O47, O49, O50, O51: reset and liveness (70_reset_and_hazards.md). A command completes after at most
the latency left (R243), or a reset discards it (R234); the registers at reset (R231) are those of `State.resetAt`,
over which the commands that count fail with the errors of their checks (R235). -/

namespace Sys2Proof.Machine

variable {s t : State}

/-! ### The end of a command -/

/-- Success and error end alike: IDLE, with DONE set (43_sequencer.md R182). -/
theorem completion_idle_done (h : completion s = .next t) : t.seq = .idle ∧ t.done = true := by
  obtain ⟨i, rfl⟩ | ⟨op, e, -, rfl⟩ := completion_cases h
  · exact ⟨finish_seq .., finish_done ..⟩
  · exact ⟨finish_seq .., finish_done ..⟩

/-- Settles O47: within the bound the run is at a state that agrees with the completion of `s`
(`latencyDoesNotChangeTheResult`). -/
theorem acceptedCommandCompletes : Obligations.AcceptedCommandCompletes := by
  intro s hbusy hreset
  obtain ⟨k, t, u, hpos, hbound, hrun, hu, hsame⟩ := latencyDoesNotChangeTheResult s hbusy hreset
  obtain ⟨hidle, hdone⟩ := completion_idle_done hu
  exact ⟨k, t, hpos, hbound, hrun, (congrArg State.seq hsame).trans hidle, (congrArg State.done hsame).trans hdone⟩

/-- Settles O51: the reset is taken unless the completion comes first, and nothing of `s` but the parameters and what
is the host's own enters its state; the registers of `State.resetAt` do not depend on the reset's number. -/
theorem platformResetDiscardsPendingCommand : Obligations.PlatformResetDiscardsPendingCommand := by
  intro s rest hi hwait
  have hstep : step s = .next ({ s with inputs := rest } : State).platformReset := step_eq_takeInput hi rfl hwait
  exact ⟨_, hstep, rfl, rfl, rfl⟩

/-! ### The state at reset -/

/-- Settles O46: no error, IDLE, the default parameters, OUTLEN 0. -/
theorem resetErrorRecordAndOutlenLegal : Obligations.ResetErrorRecordAndOutlenLegal where
  record := .inl ⟨rfl, rfl, rfl⟩
  busy := nofun
  params := defaultParams_wellFormed
  outlen := .inl rfl

/-- PILOT_IDX reads as the list of the pilot bins. -/
theorem map_valueAt_pilotIdx (s : State) :
    ((List.finRange 4).map fun p => (s.valueAt (.pilotIdx p)).toNat) = s.params.pilotIndex.toList.map Fin.val := by
  rw [← map_getElem_finRange, List.map_map]
  exact List.map_congr_left fun p _ => toNat_ofNat_val s.params.pilotIndex[p]

/-- DATA_IDX reads as the list of the data bins. -/
theorem map_valueAt_dataIdx (s : State) :
    ((List.finRange 48).map fun d => (s.valueAt (.dataIdx d)).toNat) = s.params.dataIndex.toList.map Fin.val := by
  rw [← map_getElem_finRange, List.map_map]
  exact List.map_congr_left fun d _ => toNat_ofNat_val s.params.dataIndex[d]

/-- CROM_LEV reads as the two level fields, zero-extended (30_encoding.md R89). -/
theorem valueAt_cromLev_toNat (s : State) (c : Fin 64) :
    (s.valueAt (.cromLev c)).toNat = (levelFields (s.romAt c)).toNat :=
  BitVec.toNat_setWidth_of_le (by decide)

/-- The ROM at reset is that of the default level map (40_mapper.md R106). -/
theorem reset_romAt (c : Fin 64) : State.reset.romAt c = rom (BitVec.ofNat 6 c.val) := rfl

/-- Settles O49: the registers are read off; the tables hold the default index sets and the ROM of the default level
map. -/
theorem resetRegisterValues : Obligations.ResetRegisterValues := by
  obtain ⟨hpilot, hdata, -⟩ := defaultIndexSetsPartitionTheBins
  refine ⟨rfl, rfl, rfl, rfl, rfl, rfl, rfl, rfl, rfl, rfl, rfl, rfl, rfl, rfl, rfl, rfl, rfl, rfl, ?pilotIdx,
    ?dataIdx, fun c => ⟨?level, rfl, rfl, rfl, rfl⟩⟩
  case pilotIdx =>
    rw [map_valueAt_pilotIdx, State.reset, resetAt_params, hpilot]
    rfl
  case dataIdx =>
    rw [map_valueAt_dataIdx, State.reset, resetAt_params, hdata]
    rfl
  case level => rw [valueAt_cromLev_toNat, reset_romAt]

/-! ### The commands right after reset -/

/-- The reset value of CPFRAC is a fraction inside (0, 1) (42_synthesizer.md R154). -/
theorem fractionInside_resetAt (k : Nat) : FractionInside (State.resetAt k) := by
  have hfrac : (State.resetAt k).cpfrac.toInt = 16384 := rfl
  rw [FractionInside, hfrac]
  decide

/-- ERRINFO of a count that reads 0: the expected count stands alone in the high half (60_exceptions.md R201). -/
theorem append_setWidth_zero (expected : BitVec 32) (count : BitVec 16) (h : count = 0) :
    expected ++ count.setWidth 32 = expected ++ (0 : BitVec 32) := by
  rw [h]
  rfl

/-- Settles O50: the three counts are 0 at reset, so each command fails on the count it checks, whatever the buffers
hold. -/
theorem commandsFailRightAfterReset : Obligations.CommandsFailRightAfterReset := by
  intro k
  have hbitlen : (State.resetAt k).bitlen = 0 := rfl
  have hsymcnt : (State.resetAt k).symcnt = 0 := rfl
  have hfreqlen : (State.resetAt k).freqlen = 0 := rfl
  have hfrac := fractionInside_resetAt k
  obtain ⟨t, -, hmap, -, hmapStatus, -⟩ := wrongLengthRaisesInvalidLength (State.resetAt k) (by simp [hbitlen])
  have hassemble := wrongCountRaisesCardinality.1 (State.resetAt k) (by simp [hsymcnt])
  have hsynth := wrongVectorLengthRaisesConfiguration.1 (State.resetAt k) hfrac (by simp [hfreqlen])
  rw [append_setWidth_zero 288 _ hbitlen] at hmapStatus
  simp only [append_setWidth_zero 48 _ hsymcnt] at hassemble
  simp only [append_setWidth_zero 64 _ hfreqlen] at hsynth
  exact ⟨hfrac, ⟨t, hmap, hmapStatus⟩, hassemble, hsynth⟩

end Sys2Proof.Machine
end
